-- ==== Sys2Proof/Word.lean ====
section
/-! DEFINITION. Word.lean: the bit-vector words of the register interface and of the byte stream, the two audio
channels, the numbers of the datapath and the bytes of the I/Q stream.

A number of the datapath is a value of `RealNum`: a finite expression that denotes ONE real number (the
denotation is `RealNum.toReal` in Safety.lean).  The rules of the spec are equations over exact real numbers
(00_scope.md rule R8, the reference semantics), so a number is stored exactly, as plain data: a rational number
is `lin q 0`, and only a number that no rational expresses (a multiple of pi, a sine, a named real number) is stored
as more than that.  The arithmetic over these expressions is in Machine/Numbers.lean. -/

namespace Sys2Proof

/-- A byte of the I/Q stream (10_state.md rule R29: "each byte a signed 8-bit value", two's complement by 44_quantizer.md rule R197). -/
abbrev Byte := BitVec 8

/-- A control-register word: "The control registers are 32 bits wide" (10_state.md rule R33). -/
abbrev Word32 := BitVec 32

/-- A selection word, format S: `CH2 STEREO TAU[1] TAU[0] MODE[1] MODE[0]`, 6 bits (30_encoding.md rule R93). -/
abbrev Sel := BitVec 6

/-- An audio channel: channel 0 is L (or the mono channel), channel 1 is R (30_encoding.md rule R94 (g)). -/
inductive Chan where
  | ch0
  | ch1
  deriving DecidableEq, Repr, Inhabited

/-- The channel's number. -/
def Chan.index : Chan → Nat
  | .ch0 => 0
  | .ch1 => 1

/-- Two like things, one for each channel. -/
structure Pair (α : Type) where
  ch0 : α
  ch1 : α
  deriving DecidableEq, Repr, Inhabited

/-- The element of channel `c`. -/
def Pair.get {α : Type} (p : Pair α) : Chan → α
  | .ch0 => p.ch0
  | .ch1 => p.ch1

/-- The pair with the element of channel `c` replaced. -/
def Pair.set {α : Type} (p : Pair α) (c : Chan) (v : α) : Pair α :=
  match c with
  | .ch0 => { p with ch0 := v }
  | .ch1 => { p with ch1 := v }

/-- A number of the datapath, an expression that denotes one real number:
`lin a b` is `a + b * pi` with `a`, `b` rational; `named k` is the real number that the opaque constant
`Config.namedReal` gives `k`, so any real number at all (a sample or a coefficient that nothing else here expresses; log
entry 1); `sum`, `prod`, `quot` are the operations; `sine x` is the real sine of `x`; `clamp x` is `clip(x, -1, 1)`;
`wrapped x` is `wrap(x)` (00_scope.md rules R8 to R10). The operations of Machine/Numbers.lean keep a rational number in
the form `lin q 0`. -/
inductive RealNum where
  | lin (a b : Rat)
  | named (k : Nat)
  | sum (x y : RealNum)
  | prod (x y : RealNum)
  | quot (x y : RealNum)
  | sine (x : RealNum)
  | clamp (x : RealNum)
  | wrapped (x : RealNum)
  deriving DecidableEq, Repr, Inhabited

/-- The rational number `q` as a number of the datapath. -/
def RealNum.ofRat (q : Rat) : RealNum := .lin q 0

/-- The number 0. -/
def RealNum.zero : RealNum := .lin 0 0

/-- A byte of the I/Q stream as the unit holds it: `known b` is the byte `b`; `truncated x` is the byte `int8(trunc(x))`
of a number `x` whose truncation a rational enclosure does not decide (44_quantizer.md rule R196; log entry 3). The byte
that either is, is `IQByte.toByte` in Safety.lean. No rule computes with a byte of the stream: it is stored and
returned. -/
inductive IQByte where
  | known (b : Byte)
  | truncated (x : RealNum)
  deriving DecidableEq, Repr, Inhabited

/-- The byte 0. -/
def IQByte.zero : IQByte := .known 0#8

end Sys2Proof
end

