-- ==== Sys2Proof/Syntax.lean ====
section
/-! DEFINITION. Syntax.lean: the operations of the block, one constructor for each mnemonic of
spec/opcode_table.json, and the words that encode them (30_encoding.md rules R90 to R93).

A row of the table that is a further bit pattern of the same mnemonic (PRE.BYP has two rows, MIX.AVG three) is the
same operation on another selection word: "the two PRE.BYP patterns ... name the same variant" (30_encoding.md rule
R96).  Every format-S constructor carries the selection word it was selected by, so that no bit of an encoding is
lost, and RESAMP and PRE carry the channel they run on, their operand `c`. -/

namespace Sys2Proof

/-- The operations. -/
inductive Instr where
  /-- NOP, 46_commands.md rule R231. -/
  | nop
  /-- CHUNK, 46_commands.md rule R232. -/
  | chunk
  /-- SRST, 46_commands.md rule R238. -/
  | srst
  /-- DEQ with the request's byte count, 45_ring_buffer.md rules R210, R211. -/
  | deq (len : Word32)
  /-- RESAMP `c`, 40_resampler.md rule R120. -/
  | resamp (sel : Sel) (c : Chan)
  /-- PRE.50 `c`, 41_preemphasis.md rule R142. -/
  | pre50 (sel : Sel) (c : Chan)
  /-- PRE.75 `c`, 41_preemphasis.md rule R143. -/
  | pre75 (sel : Sel) (c : Chan)
  /-- PRE.BYP `c`, 41_preemphasis.md rule R144. -/
  | preByp (sel : Sel) (c : Chan)
  /-- MIX.MONO, 42_stereo_mixer.md rule R156. -/
  | mixMono (sel : Sel)
  /-- MIX.AVG, 42_stereo_mixer.md rule R157. -/
  | mixAvg (sel : Sel)
  /-- MIX.MPX, 42_stereo_mixer.md rule R158. -/
  | mixMpx (sel : Sel)
  /-- MOD.WFM, 43_modulator.md rule R179. -/
  | modWfm (sel : Sel)
  /-- MOD.NFM, 43_modulator.md rule R180. -/
  | modNfm (sel : Sel)
  /-- MOD.AM, 43_modulator.md rule R177. -/
  | modAm (sel : Sel)
  /-- QUANT, 44_quantizer.md rule R196. -/
  | quant (sel : Sel)
  /-- ENQ, one byte step of it, 45_ring_buffer.md rule R206. -/
  | enq (sel : Sel)
  deriving DecidableEq, Repr, Inhabited

/-- Where a chunk stands: one of the six slots a CHUNK runs in order (30_encoding.md rule R96), the first two once
for each channel (46_commands.md rule R235). -/
inductive Slot where
  | resamp (c : Chan)
  | pre (c : Chan)
  | mix
  | mod
  | quant
  | enq
  deriving DecidableEq, Repr, Inhabited

/-- Where an operation word is presented: `cmd` is the register `CMD` (format K), `request` the consumer's port
(format T), `slot k` the stage slot `k` of the chunk in progress (format S). -/
inductive Port where
  | cmd
  | request
  | slot (k : Slot)
  deriving DecidableEq, Repr, Inhabited

/-- An operation word of one of the three formats (30_encoding.md rule R90): a 32-bit command word, a transfer
request's 32-bit byte count, or a 6-bit selection word at a slot. -/
inductive OpWord where
  | k (w : Word32)
  | t (len : Word32)
  | s (slot : Slot) (sel : Sel)
  deriving DecidableEq, Repr, Inhabited

/-- The agents that take steps (00_scope.md rule R11). -/
inductive Agent where
  | host
  | producer
  | consumer
  deriving DecidableEq, Repr, Inhabited

/-- The port a word is for. -/
def OpWord.port : OpWord → Port
  | .k _ => .cmd
  | .t _ => .request
  | .s slot _ => .slot slot

/-- The agent that issues, or (format S) internally runs, the words of a port (60_exceptions.md rule R271). -/
def Port.agent : Port → Agent
  | .cmd => .host
  | .request => .consumer
  | .slot _ => .producer

/-- The agent of an operation: the column "agent" of spec/opcode_table.json. -/
def Instr.agent : Instr → Agent
  | .nop | .chunk | .srst => .host
  | .deq _ => .consumer
  | .resamp _ _ | .pre50 _ _ | .pre75 _ _ | .preByp _ _ => .producer
  | .mixMono _ | .mixAvg _ | .mixMpx _ => .producer
  | .modWfm _ | .modNfm _ | .modAm _ => .producer
  | .quant _ | .enq _ => .producer

end Sys2Proof
end

