-- ==== Sys2Proof/WellFormed.lean ====
section
/-! DEFINITION. WellFormed.lean: which operations have an encoding.

A format-S operation is well formed when its selection word matches a pattern of its row (30_encoding.md rule R96)
and, for RESAMP and PRE, its channel exists in the chunk (`c < LCH`, that is channel 1 only with `CH2 = 1`). -/

namespace Sys2Proof

/-! ### The fields of a selection word (30_encoding.md rule R93) -/

/-- `MODE`, bits 1:0. -/
def Sel.mode (w : Sel) : BitVec 2 := w.extractLsb' 0 2
/-- `TAU`, bits 3:2. -/
def Sel.tau (w : Sel) : BitVec 2 := w.extractLsb' 2 2
/-- `STEREO`, bit 4. -/
def Sel.stereo (w : Sel) : Bool := w.getLsbD 4
/-- `CH2`, bit 5. -/
def Sel.ch2 (w : Sel) : Bool := w.getLsbD 5

/-- The channel is one of the chunk's: `c < LCH`. -/
def Sel.hasChan (w : Sel) : Chan → Bool
  | .ch0 => true
  | .ch1 => w.ch2

/-! ### "condition in words" of 30_encoding.md rule R96 -/

/-- `MODE ∈ {0, 1}`. -/
def Sel.isFm (w : Sel) : Bool := w.mode == 0 || w.mode == 1
/-- PRE.50: `TAU = 0` and `MODE ∈ {0,1}`. -/
def Sel.isPre50 (w : Sel) : Bool := w.tau == 0 && w.isFm
/-- PRE.75: `TAU = 1` and `MODE ∈ {0,1}`. -/
def Sel.isPre75 (w : Sel) : Bool := w.tau == 1 && w.isFm
/-- PRE.BYP: `TAU = 2` or `MODE = 2`. -/
def Sel.isPreByp (w : Sel) : Bool := w.tau == 2 || w.mode == 2
/-- MIX.MONO: `LCH = 1`. -/
def Sel.isMono (w : Sel) : Bool := !w.ch2
/-- MIX.AVG: `LCH = 2` and (`STEREO = 0`, or `MODE` 1 or 2). -/
def Sel.isAvg (w : Sel) : Bool := w.ch2 && (!w.stereo || w.mode == 1 || w.mode == 2)
/-- MIX.MPX: `LCH = 2` and `STEREO = 1` and `MODE = 0`. -/
def Sel.isMpx (w : Sel) : Bool := w.ch2 && w.stereo && w.mode == 0

/-- The operation has an encoding. -/
def Instr.wellFormed : Instr → Bool
  | .nop => true
  | .chunk => true
  | .srst => true
  | .deq _ => true
  | .resamp w c => w.hasChan c
  | .pre50 w c => w.isPre50 && w.hasChan c
  | .pre75 w c => w.isPre75 && w.hasChan c
  | .preByp w c => w.isPreByp && w.hasChan c
  | .mixMono w => w.isMono
  | .mixAvg w => w.isAvg
  | .mixMpx w => w.isMpx
  | .modWfm w => w.mode == 0
  | .modNfm w => w.mode == 1
  | .modAm w => w.mode == 2
  | .quant _ => true
  | .enq _ => true

end Sys2Proof
end

