-- ==== Sys2Proof/Decode.lean ====
section
/-! DEFINITION. Decode.lean: from the words of the three formats to operations, total, rejecting by name; and the
encoder, from operations to words (30_encoding.md rules R90 to R99; spec/opcode_table.json). -/

namespace Sys2Proof

/-- Why bits are not an operation. -/
inductive Reject where
  /-- A command word other than 0, 1, 2 (30_encoding.md rule R97); the machine answers it with the fault F_CMD. -/
  | reservedCommand
  /-- A selection word that no pattern of the slot matches: one with a reserved `TAU = 3` or `MODE = 3`, which
  "cannot occur in `sel`" (30_encoding.md rules R93, R99). -/
  | noVariant
  /-- RESAMP or PRE on channel 1 of a chunk that has one channel (46_commands.md rule R235). -/
  | noSuchChannel
  /-- The bytes are not as many as the port's words have. -/
  | wrongLength
  /-- A selection byte with a bit above the six of format S. -/
  | selectionTooWide
  deriving DecidableEq, Repr, Inhabited

/-! ### Format K -/

/-- The command a word written to `CMD` encodes (30_encoding.md rule R91): `op` is bits 3:0 and bits 31:4 must be 0. -/
def decodeCommand (w : Word32) : Except Reject Instr :=
  if w = 0x00000000#32 then .ok .nop
  else if w = 0x00000001#32 then .ok .chunk
  else if w = 0x00000002#32 then .ok .srst
  else .error .reservedCommand

/-! ### Format S -/

/-- One row of the table of 30_encoding.md rule R96: the pattern's fixed bits and the operation it selects. -/
structure SelRow where
  mask : Sel
  pat : Sel
  op : Sel → Instr

/-- The word has the row's fixed bits. -/
def SelRow.hits (r : SelRow) (w : Sel) : Bool := w &&& r.mask == r.pat

/-- The rows that compete in a slot, in the order of spec/opcode_table.json. -/
def Slot.rows : Slot → List SelRow
  | .resamp c => [⟨0b000000#6, 0b000000#6, fun w => .resamp w c⟩]
  | .pre c =>
    [ ⟨0b001110#6, 0b000000#6, fun w => .pre50 w c⟩
    , ⟨0b001110#6, 0b000100#6, fun w => .pre75 w c⟩
    , ⟨0b001100#6, 0b001000#6, fun w => .preByp w c⟩
    , ⟨0b000011#6, 0b000010#6, fun w => .preByp w c⟩ ]
  | .mix =>
    [ ⟨0b100000#6, 0b000000#6, .mixMono⟩
    , ⟨0b110000#6, 0b100000#6, .mixAvg⟩
    , ⟨0b110011#6, 0b110001#6, .mixAvg⟩
    , ⟨0b110011#6, 0b110010#6, .mixAvg⟩
    , ⟨0b110011#6, 0b110000#6, .mixMpx⟩ ]
  | .mod =>
    [ ⟨0b000011#6, 0b000000#6, .modWfm⟩
    , ⟨0b000011#6, 0b000001#6, .modNfm⟩
    , ⟨0b000011#6, 0b000010#6, .modAm⟩ ]
  | .quant => [⟨0b000000#6, 0b000000#6, .quant⟩]
  | .enq => [⟨0b000000#6, 0b000000#6, .enq⟩]

/-- The channel a slot runs on, where it runs on one. -/
def Slot.chanExists (k : Slot) (w : Sel) : Bool :=
  match k with
  | .resamp c => w.hasChan c
  | .pre c => w.hasChan c
  | .mix => true
  | .mod => true
  | .quant => true
  | .enq => true

/-- The first row of a list that the word hits. -/
def firstHit (w : Sel) : List SelRow → Except Reject Instr
  | [] => .error .noVariant
  | r :: rs => if r.hits w then .ok (r.op w) else firstHit w rs

/-- The variant a selection word selects in a slot: "In each slot exactly one variant matches `sel`" (30_encoding.md
rule R96). -/
def decodeSel (k : Slot) (w : Sel) : Except Reject Instr :=
  if k.chanExists w then firstHit w k.rows else .error .noSuchChannel

/-! ### All formats -/

/-- The operation a word encodes. Every transfer request is a DEQ (30_encoding.md rule R92). -/
def decode : OpWord → Except Reject Instr
  | .k w => decodeCommand w
  | .t len => .ok (.deq len)
  | .s slot w => decodeSel slot w

/-- The 32-bit word of four bytes, bits 7:0 at the lowest address (20_memory.md rule R65). -/
def wordOfBytes (b0 b1 b2 b3 : Byte) : Word32 :=
  b0.setWidth 32 ||| (b1.setWidth 32 <<< 8) ||| (b2.setWidth 32 <<< 16) ||| (b3.setWidth 32 <<< 24)

/-- The four bytes of a word, the lowest address first (20_memory.md rule R65). -/
def bytesOfWord (w : Word32) : List Byte :=
  [w.extractLsb' 0 8, w.extractLsb' 8 8, w.extractLsb' 16 8, w.extractLsb' 24 8]

/-- The operation word that bytes presented at a port form. A command word's bytes follow 20_memory.md rule R65. DESIGN
CHOICE: a transfer request's bytes stand in the same order, for which the spec gives none (log entry 29), and a
selection word is one byte with bits 7:6 zero (log entry 13). -/
def wordOf (p : Port) (bs : List Byte) : Except Reject OpWord :=
  match p, bs with
  | .cmd, [b0, b1, b2, b3] => .ok (.k (wordOfBytes b0 b1 b2 b3))
  | .request, [b0, b1, b2, b3] => .ok (.t (wordOfBytes b0 b1 b2 b3))
  | .slot k, [b] => if b.toNat < 64 then .ok (.s k (b.setWidth 6)) else .error .selectionTooWide
  | .cmd, _ => .error .wrongLength
  | .request, _ => .error .wrongLength
  | .slot _, _ => .error .wrongLength

/-- Decoding on bytes, total. -/
def decodeBytes (p : Port) (bs : List Byte) : Except Reject Instr :=
  match wordOf p bs with
  | .ok w => decode w
  | .error e => .error e

/-! ### The encoder -/

/-- The word of an operation, from the tables of 30_encoding.md rules R91, R92, R93 and R96. -/
def encode : Instr → OpWord
  | .nop => .k 0x00000000#32
  | .chunk => .k 0x00000001#32
  | .srst => .k 0x00000002#32
  | .deq len => .t len
  | .resamp w c => .s (.resamp c) w
  | .pre50 w c => .s (.pre c) w
  | .pre75 w c => .s (.pre c) w
  | .preByp w c => .s (.pre c) w
  | .mixMono w => .s .mix w
  | .mixAvg w => .s .mix w
  | .mixMpx w => .s .mix w
  | .modWfm w => .s .mod w
  | .modNfm w => .s .mod w
  | .modAm w => .s .mod w
  | .quant w => .s .quant w
  | .enq w => .s .enq w

/-- The bytes of a word as they are presented at its port. -/
def OpWord.bytes : OpWord → List Byte
  | .k w => bytesOfWord w
  | .t len => bytesOfWord len
  | .s _ w => [w.setWidth 8]

/-! ### The table's own numbering

A row of spec/opcode_table.json gives an operation's bits without the port they are presented at, and rows of
different ports share bits (the word 0 is NOP, a DEQ of length 0, and every variant whose pattern's fixed bits are
0).  `tablePort` fixes the port for a table word (log entry 12): a 32-bit word that format K defines is a command,
any other a transfer request; a selection word is taken at the slot that its set bits decide (`CH2` decides slot 3,
`TAU` slot 2, `MODE` slot 4), and at slot 1 where no set bit decides one. -/

/-- The slot at which a bare selection word is taken. -/
def tableSlot (w : Sel) : Slot :=
  if w.ch2 then .mix
  else if w.tau ≠ 0 then .pre .ch0
  else if w.mode ≠ 0 then .mod
  else .resamp .ch0

/-- The port at which a table word of `nbits` bits is taken. -/
def tablePort (nbits w : Nat) : Option Port :=
  match nbits with
  | 32 => if w < 3 then some .cmd else some .request
  | 8 => some (.slot (tableSlot (BitVec.ofNat 6 w)))
  | _ => none

/-- The bytes of a table word, bit 0 in the first byte. -/
def tableBytes (nbits w : Nat) : List Byte :=
  match nbits with
  | 32 => bytesOfWord (BitVec.ofNat 32 w)
  | 8 => [BitVec.ofNat 8 w]
  | _ => []

/-- The operation this decoder reads from a table word of `nbits` bits. -/
def decodeTableWord (nbits w : Nat) : Option Instr :=
  match tablePort nbits w with
  | some p =>
    match decodeBytes p (tableBytes nbits w) with
    | .ok i => some i
    | .error _ => none
  | none => none

end Sys2Proof
end

