-- ==== Sys2Proof/Config.lean ====
section
/-! DEFINITION. Config.lean: what one hardware unit fixes for its life, and the values the spec leaves open.

The spec leaves six constants and the number format of a build OPEN (00_scope.md rule R5; 92_eei_decisions.md,
"Parameters left OPEN"; 93_implementation_defined.md U14, U15).  They are the fields of `Params`.  A state carries
its `Params` (they never change, log entry 4), so that a statement about every state is a statement about every
value of the parameters, and so that the spec's own worked examples, each of which names its parameter values, can
be evaluated.  The parameters of the state after reset are the opaque constants below: nothing in Lean can
evaluate them.  An opaque constant has no body: it stands for any value of its type. -/

namespace Sys2Proof

/-- The three coefficients of one pre-emphasis setting: `PRE_B0[k]`, `PRE_B1[k]`, `PRE_A1[k]` (00_scope.md rule R5,
41_preemphasis.md rule R141). The spec gives no value (91_not_in_source.md N3). -/
structure Coef where
  b0 : RealNum
  b1 : RealNum
  a1 : RealNum
  deriving DecidableEq, Repr, Inhabited

/-- Which number format the unit has (00_scope.md rule R8): `reference` is exact real arithmetic, over which every
rule is stated; `build` is a build whose operators round, of which the spec says nothing more. -/
inductive NumSel where
  | reference
  | build
  deriving DecidableEq, Repr, Inhabited

/-- The implementation parameters of 00_scope.md rule R5. -/
structure Params where
  /-- `TARGET_RATE`, written `T`: the fixed output sample rate in hertz, positive. -/
  targetRate : Nat
  /-- `N_MAX`: depth of the input sample memory for each channel, at least 4. -/
  nMax : Nat
  /-- `RING_C`: number of blocks in the ring, at least 1. -/
  ringC : Nat
  /-- `RING_B`: bytes in a block, at least 1. -/
  ringB : Nat
  /-- The coefficients of set 0, 50 us. -/
  pre50 : Coef
  /-- The coefficients of set 1, 75 us. -/
  pre75 : Coef
  /-- `NUM`. -/
  num : NumSel
  deriving DecidableEq, Repr, Inhabited

/-- The constraints of the table in 00_scope.md rule R5. -/
abbrev Params.wf (p : Params) : Prop :=
  1 ≤ p.targetRate ∧ 4 ≤ p.nMax ∧ 1 ≤ p.ringC ∧ 1 ≤ p.ringB

/-! ### The open parameters of the unit that State.reset describes (log entry 4) -/

/-- `TARGET_RATE - 1`; OPEN (92_eei_decisions.md D2). -/
opaque Config.targetRatePred : Nat
/-- `N_MAX - 4`; OPEN (00_scope.md rule R5). -/
opaque Config.nMaxExtra : Nat
/-- `RING_C - 1`; OPEN (92_eei_decisions.md D16). -/
opaque Config.ringCPred : Nat
/-- `RING_B - 1`; OPEN (92_eei_decisions.md D16). -/
opaque Config.ringBPred : Nat
/-- `PRE_B0[k]`, a real number; OPEN (92_eei_decisions.md D8). -/
opaque Config.preB0 : Nat → RealNum
/-- `PRE_B1[k]`, a real number; OPEN (92_eei_decisions.md D8). -/
opaque Config.preB1 : Nat → RealNum
/-- `PRE_A1[k]`, a real number; OPEN (92_eei_decisions.md D8). -/
opaque Config.preA1 : Nat → RealNum

/-- Coefficient set `k` of the unit. -/
def Config.coef (k : Nat) : Coef := { b0 := Config.preB0 k, b1 := Config.preB1 k, a1 := Config.preA1 k }

/-- The parameters of the unit. Each constraint of 00_scope.md rule R5 holds by the form of the field; the number
format is the reference semantics (log entries 1, 2, 4). -/
def Config.params : Params :=
  { targetRate := Config.targetRatePred + 1
    nMax := Config.nMaxExtra + 4
    ringC := Config.ringCPred + 1
    ringB := Config.ringBPred + 1
    pre50 := Config.coef 0
    pre75 := Config.coef 1
    num := .reference }

/-! ### The number format of a build (93_implementation_defined.md U14; log entry 2)

"no precision, rounding mode, subnormal or NaN behaviour is specified and none may be assumed" (00_scope.md rule
R8): each operator of a build is an opaque function of its operands. -/

/-- The rounded `+` of a build. -/
opaque Config.numAdd : RealNum → RealNum → Rat
/-- The rounded `-` of a build. -/
opaque Config.numSub : RealNum → RealNum → Rat
/-- The rounded `*` of a build. -/
opaque Config.numMul : RealNum → RealNum → Rat
/-- The rounded `/` of a build. -/
opaque Config.numDiv : RealNum → RealNum → Rat
/-- The numerator of the constant `PI` of a build, less 1. -/
opaque Config.numPiNum : Nat
/-- The denominator of the constant `PI` of a build, less 1. -/
opaque Config.numPiDen : Nat
/-- The constant `PI` of a build: some positive number (log entry 28). -/
def Config.numPi : Rat := (Config.numPiNum + 1 : Nat) / (Config.numPiDen + 1 : Nat)
/-- The `sin` of a build, before the bound that 00_scope.md rule R9 names. -/
opaque Config.numSin : RealNum → Rat
/-- The `cos` of a build, before the bound that 00_scope.md rule R9 names. -/
opaque Config.numCos : RealNum → Rat
/-- The embedding of the integers and decimal literals, and of exact ratios (log entry 27), into the format of a build. -/
opaque Config.numOfRat : Rat → Rat
/-- The `floor` of a build. -/
opaque Config.numFloor : RealNum → Int
/-- The `trunc` of a build. -/
opaque Config.numTrunc : RealNum → Int
/-- What a build reduces a phase outside `(-PI, PI]` to (log entry 28). -/
opaque Config.numWrap : RealNum → Rat

/-- The sample that a 32-bit word encodes in the number format of a build of 32 bits or fewer, or none where the word is
no finite number (20_memory.md rule R69; log entry 16). -/
opaque Config.numOfWord : Word32 → Option Rat

/-! ### Values the spec leaves open (93_implementation_defined.md U13) -/

/-- What sample `(c, i)` of `IN` holds before HOST has written it, `any value` (U13): a function of the reset it
follows, the channel and the index (log entry 9). -/
opaque Config.freeSample : Nat → Nat → Nat → RealNum

/-- What a byte of `RING` holds before ENQ has written it, `any value` (U13): a function of the reset it follows and
the byte's flat index (log entry 8). -/
opaque Config.freeRingByte : Nat → Nat → Byte

end Sys2Proof
end

