-- ==== Sys2Proof/Machine/State.lean ====
section
/-! DEFINITION. Machine/State.lean: all the state 10_state.md rule R20 gives the machine, what stands around it (the
unit's parameters, HOST's accesses still to be made, the order in which the agents move, the answers at the ports),
the reasons a step stops, and the state after reset (10_state.md rule R41). -/

namespace Sys2Proof.Machine

/-! ### Pieces of the state -/

/-- `HIST[c][0..3]`, oldest first: the last four input samples of channel `c` (10_state.md rule R21). -/
structure Hist where
  h0 : RealNum
  h1 : RealNum
  h2 : RealNum
  h3 : RealNum
  deriving DecidableEq, Repr, Inhabited

/-- `FST[c]`: the last input and the last output of the pre-emphasis filter of channel `c` (10_state.md rule R22). -/
structure FilterState where
  xp : RealNum
  yp : RealNum
  deriving DecidableEq, Repr, Inhabited

/-- The value of a sample load. A number of the reference semantics is finite; a build's format may have others, and
loading one is refused (93_implementation_defined.md U2). -/
inductive LoadValue where
  | finite (v : RealNum)
  | notFinite
  deriving DecidableEq, Repr, Inhabited

/-- One access of HOST (30_encoding.md rule R106): a register write or read at a byte offset with a width in bytes,
or a sample load. The channel and index of a load are numbers, so that one that does not exist can be asked for. -/
inductive HostOp where
  | wr (off : Nat) (bytes : Nat) (v : Word32)
  | rd (off : Nat) (bytes : Nat)
  | ld (c : Nat) (i : Nat) (v : LoadValue)
  deriving DecidableEq, Repr, Inhabited

/-- Who moves next. "Any agent that has a step may take it at any time" (00_scope.md rule R11): HOST makes the first
access of its list; PRODUCER takes a step of the chunk in progress; CONSUMER makes a transfer request of `len` bytes
(never pending, 60_exceptions.md rule R267); the platform resets the unit (70_reset_and_hazards.md rule R290). -/
inductive Turn where
  | host
  | producer
  | consumer (len : Word32)
  | platformReset
  deriving DecidableEq, Repr, Inhabited

/-- What stands around the unit: not state of the hardware (10_state.md rule R20 is complete without it), but what a
step reads and answers. -/
structure Env where
  /-- The unit's parameters; no step changes them (00_scope.md rule R5; log entry 4). -/
  par : Params
  /-- HOST's accesses not yet made, in the order HOST makes them (20_memory.md rule R71; log entry 5). -/
  hostQ : List HostOp
  /-- The order in which the agents move (93_implementation_defined.md U18; log entry 5). -/
  sched : List Turn
  /-- The word the last register read answered (46_commands.md rule R241; log entry 11). -/
  rdata : Word32
  /-- The bytes the last DEQ returned (45_ring_buffer.md rules R210, R211; log entry 11). -/
  txBytes : List IQByte
  /-- The return code of the last DEQ (45_ring_buffer.md rule R212; log entry 11). -/
  txRc : Nat
  /-- How many resets have happened: the counter the free values are read at (log entries 8, 9). -/
  epoch : Nat
  deriving DecidableEq, Repr, Inhabited

/-! ### The state -/

/-- The state of one hardware unit, in the order of 10_state.md rule R20. -/
structure State where
  /-- `HIST`, rule R21. -/
  hist : Pair Hist
  /-- `FST`, rule R22. -/
  fst : Pair FilterState
  /-- `PHASE`, in radians, rule R23. -/
  phase : RealNum
  /-- `PILOT`, a rational number of samples, rule R24. -/
  pilot : Rat
  /-- `BUF[c]`, rule R25. -/
  buf : Pair (List RealNum)
  /-- `SIG`, rule R25. -/
  sig : List RealNum
  /-- `IQ`, rule R25. -/
  iq : List RealNum
  /-- `OUTB`, rule R25. -/
  outb : List IQByte
  /-- `HEAD`, rule R28. -/
  head : Nat
  /-- `TAIL`, rule R28. -/
  tail : Nat
  /-- `COUNT`, rule R28. -/
  count : Nat
  /-- `OFF`, rule R28. -/
  off : Nat
  /-- `RING`: byte `(b, k)` at the flat index `b * RING_B + k` (rule R29; 20_memory.md rule R62), in canonical form; each
  byte known, or stored as the truncation that gives it (log entry 3). -/
  ring : List (Nat × IQByte)
  /-- `IN[c]`: sample `(c, i)` at index `i` of channel `c` (rule R30), in canonical form. -/
  inp : Pair (List (Nat × RealNum))
  /-- `LCFG`, rule R31. -/
  lcfg : Word32
  /-- `LN`, rule R31. -/
  ln : Word32
  /-- `LS`, rule R31. -/
  ls : Word32
  /-- `LCH`, rule R31. -/
  lch : BitVec 2
  /-- `LM`, rule R31: an integer without a width (92_eei_decisions.md D29). -/
  lm : Nat
  /-- `PEND`, rule R32. -/
  pend : List IQByte
  /-- `PIDX`, rule R32. -/
  pidx : Nat
  /-- `BUSY`, rule R32. -/
  busy : Bool
  /-- Which slot of the chunk in progress runs next; `none` when none is in progress. It stands in the place of a
  program counter: "the fixed stage order of the data flow" (rule R26; log entry 6). -/
  stage : Option Slot
  /-- The sticky bits of `STATUS`: bit 8 `UNDERRUN`, bits 16 to 21 the faults; the other bits are 0 (rule R35). -/
  sticky : Word32
  /-- `CFG`, rule R36. -/
  cfg : Word32
  /-- `CHUNK_N`, rule R37. -/
  chunkN : Word32
  /-- `CHUNK_RATE`, rule R38. -/
  chunkRate : Word32
  /-- `CHUNK_CH`, bits 1:0, rule R39. -/
  chunkCh : BitVec 2
  /-- What stands around the unit. -/
  env : Env
  deriving DecidableEq, Repr, Inhabited

/-! ### Why a step stops -/

/-- The machine stops. Only RESAMP raises these, on a latch that CHUNK's checks keep from ever being in force
(46_commands.md rule R232), so no run from a sound state meets one; they stand where 40_resampler.md rules R120 and
R128 give the operation no value. All are safe: the machine stops, and no value is given. -/
inductive Fault where
  /-- RESAMP with `LN < 4`: "A model must not give `N < 4` a value" (40_resampler.md rule R128). Safe. -/
  | chunkTooShort
  /-- RESAMP with `LN > N_MAX`: it would form an index of `IN` that does not exist (20_memory.md rule R61). Safe. -/
  | noSuchSample
  /-- RESAMP with `LM = 0`: the position `(j+1) * N / M` would divide by zero (60_exceptions.md rule R261). Safe. -/
  | noOutputSamples
  deriving DecidableEq, Repr, Inhabited

/-- The spec gives the situation no meaning ("refuse", 00_scope.md rule R7). All are safe: the machine stops where
the hardware may go on. -/
inductive Refusal where
  /-- An operation whose meaning the model does not have; raised by no meaning. Safe. -/
  | notModelled (mnemonic : String)
  /-- HOST: a register access that is misaligned or not 32 bits wide (93_implementation_defined.md U8). Safe. -/
  | badRegAccess
  /-- HOST: a word write in the window of `IN` of a unit whose numbers are exact reals, which have no word form
  (20_memory.md rule R69), or a word read there, where HOST reads nothing (20_memory.md rule R60). Safe. -/
  | sampleWindow
  /-- HOST: a load of `IN[c][i]` with `c > 1` or `i ≥ N_MAX`, or a word write above the window of `IN`
  (93_implementation_defined.md U3). Safe. -/
  | noSuchSample
  /-- HOST: a load that is not a finite number (93_implementation_defined.md U2). Safe. -/
  | notFinite
  /-- HOST: a write to `IN`, `CHUNK_N`, `CHUNK_RATE` or `CHUNK_CH` while `BUSY = 1` (93_implementation_defined.md
  U7). Safe. -/
  | inputsFrozen
  /-- DEQ with `len ≠ RING_B` (93_implementation_defined.md U6). Safe. -/
  | transferLength
  /-- QUANT on a value that its enclosure does not show to lie in `[-1, 1]` (93_implementation_defined.md U4). Safe. -/
  | quantRange
  /-- PRODUCER: a slot whose selection word selects no variant, which the legal values of `MODE` and `TAU` exclude
  (30_encoding.md rule R99). Safe. -/
  | noVariant
  deriving DecidableEq, Repr, Inhabited

/-! ### Reset -/

/-- The environment of a unit that nothing has been asked of. -/
def Env.initial : Env :=
  { par := Config.params, hostQ := [], sched := [], rdata := 0, txBytes := [], txRc := 0, epoch := 0 }

/-- The state after reset (10_state.md rule R41), in the environment `e`. `RING` and `IN` are "unspecified" there:
nothing is listed, and what an unlisted element reads as is a free value (log entries 8, 9). The latch is
"unspecified": every field 0 (log entry 10). -/
def State.resetIn (e : Env) : State :=
  { hist := ⟨⟨.zero, .zero, .zero, .zero⟩, ⟨.zero, .zero, .zero, .zero⟩⟩
    fst := ⟨⟨.zero, .zero⟩, ⟨.zero, .zero⟩⟩
    phase := .zero
    pilot := 0
    buf := ⟨[], []⟩
    sig := []
    iq := []
    outb := []
    head := 0
    tail := 0
    count := 0
    off := 0
    ring := []
    inp := ⟨[], []⟩
    lcfg := 0
    ln := 0
    ls := 0
    lch := 0
    lm := 0
    pend := []
    pidx := 0
    busy := false
    stage := none
    sticky := 0
    cfg := 0x00005A10#32
    chunkN := 0
    chunkRate := 0
    chunkCh := 0
    env := e }

/-- The machine right after reset. -/
def State.reset : State := State.resetIn Env.initial

end Sys2Proof.Machine
end

