-- ==== Sys2Proof/Machine/Flags.lean ====
section
/-! DEFINITION. Machine/Flags.lean: the status register (10_state.md rules R27, R35): its sticky bits, its read-only
views, and the fault codes (60_exceptions.md rule R255).  The hardware has no other flag: "There are no condition codes
and no predicate registers". -/

namespace Sys2Proof.Machine

/-- The faults (60_exceptions.md rule R255). -/
inductive FaultCode where
  | fChan
  | fRate
  | fShort
  | fLen
  | fMzero
  | fCmd
  deriving DecidableEq, Repr, Inhabited

/-- The code of a fault (60_exceptions.md rule R255). -/
def FaultCode.code : FaultCode → Nat
  | .fChan => 1
  | .fRate => 2
  | .fShort => 3
  | .fLen => 4
  | .fMzero => 5
  | .fCmd => 6

/-- The sticky bit of a fault: "The bit of fault code `n` is bit `15 + n`" (10_state.md rule R35). -/
def faultBit (f : FaultCode) : Word32 := 1#32 <<< (15 + f.code)

/-- `UNDERRUN`, bit 8 (10_state.md rule R35). -/
def underrunBit : Word32 := 0x00000100#32

/-- The sticky bits: 8 and 16 to 21 (10_state.md rule R35). -/
def stickyMask : Word32 := 0x003F0100#32

/-- The sticky bits after a write of `v` to `STATUS`: "clears exactly those of bits 8 and 16 to 21 where `v` has a 1,
and changes nothing else" (10_state.md rule R35). -/
def clearSticky (v sticky : Word32) : Word32 := sticky &&& ~~~(v &&& stickyMask)

/-- A bit of the status word. -/
def flagBit (b : Bool) (pos : Nat) : Word32 := if b then 1#32 <<< pos else 0#32

/-- `FULL`: 1 exactly when `COUNT = RING_C` (10_state.md rule R35). -/
def State.full (s : State) : Bool := s.count == s.env.par.ringC

/-- `EMPTY`: 1 exactly when `COUNT = 0` (10_state.md rule R35). -/
def State.empty (s : State) : Bool := s.count == 0

/-- The word a read of `STATUS` answers (10_state.md rule R35): reserved bits 0. -/
def statusWord (s : State) : Word32 :=
  (s.sticky &&& stickyMask) ||| flagBit s.busy 0 ||| flagBit s.full 1 ||| flagBit s.empty 2

end Sys2Proof.Machine
end

