-- ==== Sys2Proof/Machine/Numbers.lean ====
section
/-! DEFINITION. Machine/Numbers.lean: arithmetic on the numbers of the datapath (00_scope.md rules R8 to R10).

Reference semantics.  Every operation is exact: the number it gives denotes the real number the rule names (Laws/Real.lean
proves it for each).  A sum is a list of terms, each a coefficient `a + b * pi` and a factor, with at most one term for
each factor, so that terms cancel; a rational number is always computed.  A comparison that a result needs is made on a
rational ENCLOSURE of the number: an interval that contains it.  An operation that an enclosure decides is carried out;
a clip, a wrap or a truncation that it does not decide is stored as an expression, which is exact too (log entries 1
and 3).

Builds.  `NumFormat` is the record `NUM` of 00_scope.md rule R8. The stages are written over it, one operator of the
record for each operator of the pseudocode, in the order the rule gives. -/

namespace Sys2Proof

/-! ### Enclosures -/

/-- A closed interval with rational ends. -/
structure Enc where
  lo : Rat
  hi : Rat
  deriving DecidableEq, Repr, Inhabited

/-- The number of binary digits after the point that an enclosure keeps. -/
def encScale : Rat := 1208925819614629174706176

/-- The largest multiple of `1 / encScale` not above `q`. -/
def roundDown (q : Rat) : Rat := (q * encScale).floor / encScale

/-- The smallest multiple of `1 / encScale` not below `q`. -/
def roundUp (q : Rat) : Rat := -(roundDown (-q))

/-- The interval of one rational number. -/
def Enc.point (q : Rat) : Enc := ⟨q, q⟩

/-- An interval with ends on the grid that contains the given one. -/
def Enc.widen (e : Enc) : Enc := ⟨roundDown e.lo, roundUp e.hi⟩

/-- A rational number below pi. -/
def piLo : Rat := 314159265358979323846 / 100000000000000000000

/-- A rational number above pi. -/
def piHi : Rat := 314159265358979323847 / 100000000000000000000

/-- The sum of two intervals. -/
def Enc.add (x y : Enc) : Enc := ⟨x.lo + y.lo, x.hi + y.hi⟩

/-- The product of two intervals. -/
def Enc.mul (x y : Enc) : Enc :=
  ⟨ min (min (x.lo * y.lo) (x.lo * y.hi)) (min (x.hi * y.lo) (x.hi * y.hi))
  , max (max (x.lo * y.lo) (x.lo * y.hi)) (max (x.hi * y.lo) (x.hi * y.hi)) ⟩

/-- The reciprocals of an interval that does not contain 0. -/
def Enc.inv (x : Enc) : Option Enc :=
  if 0 < x.lo ∨ x.hi < 0 then some ⟨1 / x.hi, 1 / x.lo⟩ else none

/-- `clip(q, -1, 1)` of a rational number (00_scope.md rule R10). -/
def clipRat (q : Rat) : Rat := if q < -1 then -1 else if 1 < q then 1 else q

/-- The clipped interval. -/
def Enc.clip (x : Enc) : Enc := ⟨clipRat x.lo, clipRat x.hi⟩

/-- `n!`. -/
def fact : Nat → Nat
  | 0 => 1
  | n + 1 => (n + 1) * fact n

/-- The first `n` terms of the sine's power series at `x`. -/
def sinSeries (x : Rat) : Nat → Rat
  | 0 => 0
  | n + 1 => sinSeries x n + (if n % 2 = 0 then 1 else -1) * (x ^ (2 * n + 1) / fact (2 * n + 1))

/-- The middle of the two bounds of pi. -/
def piMid : Rat := (piLo + piHi) / 2

/-- How far from `sin r` the first twenty terms of the series are at most, for `|r| ≤ 4`. -/
def seriesError : Rat := 1 / 100000000000000000000

/-- The sines of an interval: the series at its middle `c`, reduced by the nearest multiple of `2 * pi`, with an
allowance for the interval's radius, for the reduction and for the series. -/
def Enc.sin (e : Enc) : Enc :=
  let c := (e.lo + e.hi) / 2
  let k := (c / (2 * piMid) + 1 / 2).floor
  let r := roundDown (c - 2 * k * piMid)
  if -4 ≤ r ∧ r ≤ 4 then
    let v := sinSeries r 20
    let d := (e.hi - e.lo) / 2 + 2 * k.natAbs * (piHi - piLo) + 1 / encScale + seriesError
    Enc.clip ⟨v - d, v + d⟩
  else ⟨-1, 1⟩

/-- `a + b * pi`. -/
def Enc.lin (a b : Rat) : Enc :=
  if b = 0 then Enc.point a
  else if 0 < b then Enc.widen ⟨a + b * piLo, a + b * piHi⟩
  else Enc.widen ⟨a + b * piHi, a + b * piLo⟩

/-- An interval that contains the number; none where none is known: for a named number, and where a divisor's interval
contains 0. -/
def RealNum.enc : RealNum → Option Enc
  | .lin a b => some (Enc.lin a b)
  | .named _ => none
  | .sum x y => match x.enc, y.enc with
    | some u, some v => some (u.add v).widen
    | _, _ => none
  | .prod x y => match x.enc, y.enc with
    | some u, some v => some (u.mul v).widen
    | _, _ => none
  | .quot x y => match x.enc, y.enc with
    | some u, some v =>
      match v.inv with
      | some w => some (u.mul w).widen
      | none => none
    | _, _ => none
  | .sine x => match x.enc with
    | some u => some u.sin.widen.clip
    | none => some ⟨-1, 1⟩
  | .clamp x => match x.enc with
    | some u => some u.clip
    | none => some ⟨-1, 1⟩
  | .wrapped _ => some ⟨-piHi, piHi⟩

/-! ### The operations of the reference semantics

A sum is `sum t xs`: a term and the sum of the others; a term is `prod (lin a b) u`, or its factor `u` alone where the
coefficient is 1. -/

/-- A term's coefficient `a + b * pi`, as `(a, b)`, and its factor. -/
def RealNum.split : RealNum → (Rat × Rat) × RealNum
  | .prod (.lin a b) u => ((a, b), u)
  | u => ((1, 0), u)

/-- The term `(a + b * pi) * u`. -/
def RealNum.term (a b : Rat) (u : RealNum) : RealNum :=
  if a = 0 ∧ b = 0 then .zero else if a = 1 ∧ b = 0 then u else .prod (.lin a b) u

/-- A term and the sum of the others. -/
def RealNum.cons (t xs : RealNum) : RealNum :=
  if t = .zero then xs else if xs = .zero then t else .sum t xs

/-- `(a + b * pi) * u + x`: the coefficient joins the one that `u` has in `x`, where it has one. -/
def RealNum.addTerm (a b : Rat) (u : RealNum) : RealNum → RealNum
  | .lin c d => cons (term a b u) (.lin c d)
  | .sum t xs => if t.split.2 = u then cons (term (a + t.split.1.1) (b + t.split.1.2) u) xs else cons t (addTerm a b u xs)
  | x => if x.split.2 = u then term (a + x.split.1.1) (b + x.split.1.2) u else cons (term a b u) x

/-- `(a + b * pi) + x`. -/
def RealNum.addLin (a b : Rat) : RealNum → RealNum
  | .lin c d => .lin (a + c) (b + d)
  | .sum t xs => cons t (addLin a b xs)
  | x => cons x (.lin a b)

/-- `x + y`, where `y` is not 0: its terms one by one. -/
def RealNum.addTerms (x : RealNum) : RealNum → RealNum
  | .lin a b => addLin a b x
  | .sum t ys => addTerm t.split.1.1 t.split.1.2 t.split.2 (addTerms x ys)
  | y => addTerm y.split.1.1 y.split.1.2 y.split.2 x

/-- `x + y`. -/
def RealNum.add (x y : RealNum) : RealNum := if x = .zero then y else if y = .zero then x else addTerms x y

/-- `(a + b * pi) * t` for a term `t`: the coefficients are multiplied where no square of pi arises. -/
def RealNum.scaleTerm (a b : Rat) (t : RealNum) : RealNum :=
  if b = 0 then term (a * t.split.1.1) (a * t.split.1.2) t.split.2
  else if t.split.1.2 = 0 then term (a * t.split.1.1) (b * t.split.1.1) t.split.2
  else .prod (.lin a b) t

/-- `(a + b * pi) * x`. -/
def RealNum.scale (a b : Rat) : RealNum → RealNum
  | .lin c d =>
    if b = 0 then .lin (a * c) (a * d) else if d = 0 then .lin (a * c) (b * c) else .prod (.lin a b) (.lin c d)
  | .sum t xs => add (scaleTerm a b t) (scale a b xs)
  | x => scaleTerm a b x

/-- `x - y`. -/
def RealNum.sub (x y : RealNum) : RealNum := add x (scale (-1) 0 y)

/-- `x * y`. -/
def RealNum.mul (x y : RealNum) : RealNum :=
  if x = .zero ∨ y = .zero then .zero
  else if x = .lin 1 0 then y
  else if y = .lin 1 0 then x
  else match x, y with
    | .lin a b, y => scale a b y
    | x, .lin a b => scale a b x
    | x, y => .prod x y

/-- `x / y`. No rule divides by 0: the divisors are 2, 100, 19000, `T ≥ 1` and `M ≥ 1`. -/
def RealNum.div (x y : RealNum) : RealNum :=
  match x, y with
  | .lin a b, .lin c d =>
    if d = 0 ∧ c ≠ 0 then .lin (a / c) (b / c)
    else if a = 0 ∧ c = 0 ∧ d ≠ 0 then .lin (b / d) 0
    else .quot (.lin a b) (.lin c d)
  | x, .lin c d => if d = 0 ∧ c ≠ 0 then scale (1 / c) 0 x else .quot x (.lin c d)
  | x, y => .quot x y

/-- The number less the multiples of `2 * pi` that the wraps among its terms have added: an angle of the same sine. -/
def RealNum.unwrap : RealNum → RealNum
  | .wrapped x => x.unwrap
  | .sum t xs => add t.unwrap xs.unwrap
  | x => x

/-- `b` less the even integer that brings it into `(-1, 1]`: an angle of `b` half turns, reduced. -/
def halfTurns (b : Rat) : Rat := b + 2 * ((1 - b) / 2).floor

/-- `sin(r * pi)` for `0 ≤ r ≤ 1`, from the first quarter turn: the rational values at the multiples of a sixth that have
one; else the sine as an expression. -/
def sinQuarter (r : Rat) : RealNum :=
  let u := if 1 / 2 < r then 1 - r else r
  if u = 0 then .zero
  else if u = 1 / 2 then .lin 1 0
  else if u = 1 / 6 then .lin (1 / 2) 0
  else .sine (.lin 0 u)

/-- `sin(r * pi)` for `-1 < r ≤ 1`. -/
def sinHalfTurns (r : Rat) : RealNum := if r < 0 then .scale (-1) 0 (sinQuarter (-r)) else sinQuarter r

/-- The real sine (00_scope.md rule R9). -/
def RealNum.sin (x : RealNum) : RealNum :=
  match x.unwrap with
  | .lin a b => if a = 0 then sinHalfTurns (halfTurns b) else .sine (.lin a b)
  | y => .sine y

/-- The real cosine (00_scope.md rule R9): the sine a quarter turn on. -/
def RealNum.cos (x : RealNum) : RealNum := (add x (.lin 0 (1 / 2))).sin

/-- `clip(x, -1, 1)` (00_scope.md rule R10), decided by the enclosure where it can be. -/
def RealNum.clip (x : RealNum) : RealNum :=
  match x.enc with
  | some e =>
    if e.hi < -1 then .lin (-1) 0
    else if 1 < e.lo then .lin 1 0
    else if -1 ≤ e.lo ∧ e.hi ≤ 1 then x
    else .clamp x
  | none => .clamp x

/-- `wrap(x)`, the number in `(-pi, pi]` that differs from `x` by a multiple of `2 * pi` (00_scope.md rule R10). The
multiple is `2 * pi` times the floor of `(pi - x) / (2 * pi)`; where the enclosure of that quotient does not decide
its floor, the wrapped number is stored as an expression. -/
def RealNum.wrap (x : RealNum) : RealNum :=
  let y := x.unwrap
  match (RealNum.div (RealNum.sub (.lin 0 1) y) (.lin 0 2)).enc with
  | some e => if e.lo.floor = e.hi.floor then RealNum.add y (.lin 0 (2 * e.lo.floor)) else .wrapped y
  | none => .wrapped y

/-- The integer nearest to zero among `floor(q)` and `-floor(-q)` (00_scope.md rule R10). -/
def truncRat (q : Rat) : Int := if 0 ≤ q then q.floor else -(-q).floor

/-- `int8(q)`: the two's-complement byte of an integer in `-128 .. 127` (44_quantizer.md rule R197). -/
def int8 (q : Int) : Byte := BitVec.ofInt 8 q

/-- `int8(trunc(x))`: where the two ends of the enclosure truncate to the same integer, which is so whenever `x` is
rational, the byte of that integer; elsewhere the byte is stored as the expression (log entry 3). -/
def RealNum.truncByte (x : RealNum) : IQByte :=
  match x.enc with
  | some e => if truncRat e.lo = truncRat e.hi then .known (int8 (truncRat e.lo)) else .truncated x
  | none => .truncated x

/-- The enclosure shows that `-1 ≤ x ≤ 1`. -/
def RealNum.inUnit (x : RealNum) : Bool :=
  match x.enc with
  | some e => decide (-1 ≤ e.lo) && decide (e.hi ≤ 1)
  | none => false

/-! ### Number formats -/

/-- The record `NUM` (00_scope.md rule R8): the operators of a number format, over the numbers of the datapath. Its
`floor` stands in the counter's step, its `trunc` in `truncByte`; the clip compares and copies, and does not round. -/
structure NumFormat where
  /-- The embedding of the integers and decimal literals, and of an exact ratio at one rounding (log entry 27). -/
  ofRat : Rat → RealNum
  pi : RealNum
  add : RealNum → RealNum → RealNum
  sub : RealNum → RealNum → RealNum
  mul : RealNum → RealNum → RealNum
  div : RealNum → RealNum → RealNum
  sin : RealNum → RealNum
  cos : RealNum → RealNum
  wrap : RealNum → RealNum
  /-- `int8(trunc(x))` of a product of 127 and a value in `[-1, 1]`. -/
  truncByte : RealNum → IQByte
  /-- `(PILOT + 1) modW`, as a function of `W` and `PILOT`. -/
  pilotStep : Rat → Rat → Rat

/-- `p modW`: the number in `[0, W)` that differs from `p` by a multiple of `W` (42_stereo_mixer.md rule R159). -/
def ratMod (p w : Rat) : Rat := p - w * (p / w).floor

/-- Exact real arithmetic, the reference semantics (00_scope.md rule R8). -/
def NumFormat.reference : NumFormat :=
  { ofRat := .ofRat
    pi := .lin 0 1
    add := .add
    sub := .sub
    mul := .mul
    div := .div
    sin := .sin
    cos := .cos
    wrap := .wrap
    truncByte := RealNum.truncByte
    pilotStep := fun w p => ratMod (p + 1) w }

/-! ### The helper functions of a build (00_scope.md rule R10) -/

/-- The interval `(-PI, PI]` of a build, with its own constant (log entry 28). -/
abbrev inBuildPi (p : Rat) : Prop := -Config.numPi < p ∧ p ≤ Config.numPi

/-- A phase outside the interval, reduced: some number in `(-PI, PI]` (log entry 28). -/
def buildReduce (x : RealNum) : Rat := if inBuildPi (Config.numWrap x) then Config.numWrap x else Config.numPi

/-- `wrap` of a build: "the identity on `(-pi, pi]`" (43_modulator.md rule R183), and elsewhere some number in that
interval, which is the build's own (log entry 28). -/
def buildWrap (x : RealNum) : Rat :=
  match x with
  | .lin p b => if b = 0 ∧ inBuildPi p then p else buildReduce (.lin p b)
  | x => buildReduce x

/-- `trunc` of a build on a product of 127 and a value in `[-1, 1]`: some integer in `-127 .. 127`; a build for which it
is not is "outside this spec" (44_quantizer.md rule R199; log entry 2). -/
def buildTrunc (x : RealNum) : Int :=
  if -127 ≤ Config.numTrunc x ∧ Config.numTrunc x ≤ 127 then Config.numTrunc x else 0

/-- The counter step `(PILOT + 1) modW` of a build: the rounded `+`, then nothing inside `[0, W)`, "one conditional
subtraction" where `W ≥ 1` (42_stereo_mixer.md rule R159), and elsewhere the rounded quotient's floor times `W`
subtracted; `W` is rounded once (rule R162, "up to the rounding of `W` and of the subtraction"; log entry 21). -/
def buildPilotStep (w p : Rat) : Rat :=
  let sum := Config.numAdd (.ofRat p) (.ofRat (Config.numOfRat 1))
  let wrap := Config.numOfRat w
  if 0 ≤ sum ∧ sum < wrap then sum
  else if 1 ≤ w ∧ wrap ≤ sum then Config.numSub (.ofRat sum) (.ofRat wrap)
  else
    let turns := Config.numOfRat (Config.numFloor (.ofRat (Config.numDiv (.ofRat sum) (.ofRat wrap))))
    Config.numSub (.ofRat sum) (.ofRat (Config.numMul (.ofRat wrap) (.ofRat turns)))

/-- A build of which nothing is known but what the spec names: its sine and cosine lie in `[-1, 1]` (00_scope.md rule
R9), its wrap keeps `(-PI, PI]`, its truncation of a value in `[-127, 127]` stays there (log entries 2, 28). -/
def NumFormat.build : NumFormat :=
  { ofRat := fun q => .ofRat (Config.numOfRat q)
    pi := .ofRat Config.numPi
    add := fun x y => .ofRat (Config.numAdd x y)
    sub := fun x y => .ofRat (Config.numSub x y)
    mul := fun x y => .ofRat (Config.numMul x y)
    div := fun x y => .ofRat (Config.numDiv x y)
    sin := fun x => .ofRat (clipRat (Config.numSin x))
    cos := fun x => .ofRat (clipRat (Config.numCos x))
    wrap := fun x => .ofRat (buildWrap x)
    truncByte := fun x => .known (int8 (buildTrunc x))
    pilotStep := buildPilotStep }

/-- The number format a parameter names. -/
def NumFormat.of : NumSel → NumFormat
  | .reference => .reference
  | .build => .build

end Sys2Proof
end

