-- ==== Sys2Proof/Machine/Operands.lean ====
section
/-! DEFINITION. Machine/Operands.lean: the operands of the operations: the fields of the registers, the values derived
from them "before any stage uses them" (30_encoding.md rule R94), and the legal values of `CFG` (10_state.md rule
R36). -/

namespace Sys2Proof.Machine

/-! ### `CFG` (10_state.md rule R36) -/

/-- `MODE`, bits 1:0. -/
def cfgMode (w : Word32) : BitVec 2 := w.extractLsb' 0 2
/-- `TAU`, bits 3:2. -/
def cfgTau (w : Word32) : BitVec 2 := w.extractLsb' 2 2
/-- `STEREO`, bit 4. -/
def cfgStereo (w : Word32) : Bool := w.getLsbD 4
/-- `GAIN`, bits 15:8. -/
def cfgGain (w : Word32) : Nat := (w.extractLsb' 8 8).toNat

/-- A two-bit field with the unrecognised value 3 replaced by the documented default 0 (30_encoding.md rule R99). -/
def legalField (f : BitVec 2) : BitVec 2 := if f = 3#2 then 0#2 else f

/-- The word a write of `v` stores in `CFG`: reserved bits dropped, `MODE = 3` and `TAU = 3` stored as 0 (10_state.md
rule R36; 46_commands.md rule R240). -/
def legalCfg (v : Word32) : Word32 :=
  (v &&& 0x0000FF10#32) ||| (legalField (cfgMode v)).setWidth 32 ||| ((legalField (cfgTau v)).setWidth 32 <<< 2)

/-! ### The chunk latch (10_state.md rule R31) -/

/-- The chunk in progress has two channels: `LCH = 2`. -/
def State.stereoChunk (s : State) : Bool := s.lch == 2#2

/-- The selection word `{CH2, STEREO, TAU, MODE}`, from the latch (30_encoding.md rule R93). -/
def State.sel (s : State) : Sel :=
  (if s.stereoChunk then 0b100000#6 else 0b000000#6) ||| (s.lcfg.extractLsb' 0 5).setWidth 6

/-- The output count `M = roundhalfup(N * T / S) = (2*N*T + S) div (2*S)` (40_resampler.md rule R121). -/
def outCount (n t r : Nat) : Nat := (2 * n * t + r) / (2 * r)

/-- The gain factor `g = GAIN / 100` of a configuration word, "an exact rational" (43_modulator.md rule R176); a build
embeds it at one rounding (log entry 27). -/
def gainFactor (w : Word32) : Rat := (cfgGain w : Rat) / 100

/-- The deviation of wide FM, in hertz (30_encoding.md rule R94 (b)). -/
def deviationWide : Nat := 75000

/-- The deviation of narrow FM, in hertz (30_encoding.md rule R94 (b)). -/
def deviationNarrow : Nat := 5000

/-- The phase step scale `((2 * PI) * dev) / T` in the number format `f` (43_modulator.md rule R178). -/
def phaseScale (f : NumFormat) (dev t : Nat) : RealNum :=
  f.div (f.mul (f.mul (f.ofRat 2) f.pi) (f.ofRat dev)) (f.ofRat t)

/-- The pilot wrap `W = 4 * T / 19000`, an exact rational (42_stereo_mixer.md rule R160). -/
def pilotWrap (t : Nat) : Rat := 4 * (t : Rat) / 19000

/-! ### The unit's number format and parameters -/

/-- The number format of the unit. -/
def State.format (s : State) : NumFormat := NumFormat.of s.env.par.num

/-- `TARGET_RATE`. -/
def State.rate (s : State) : Nat := s.env.par.targetRate

end Sys2Proof.Machine
end

