-- ==== Sys2Proof/Machine/Ops.lean ====
section
/-! DEFINITION. Machine/Ops.lean: the operations the meanings share: reading and writing the two memories, recording a
fault, the hold of a command, the soft reset, the chunk latch, the order of the slots, the ring's cursors. -/

namespace Sys2Proof.Machine

/-! ### Memories

A memory is a list of (index, element) pairs with indices strictly rising.  An index that is not listed holds no
value: it has not been written since reset. -/

/-- The canonical form: indices strictly rising. -/
def Memory.wf {β : Type} : List (Nat × β) → Bool
  | [] => true
  | [_] => true
  | (a, _) :: (b, v) :: m => decide (a < b) && Memory.wf ((b, v) :: m)

/-- The element at an index, if one has been written there. -/
def Memory.read {β : Type} : List (Nat × β) → Nat → Option β
  | [], _ => none
  | (a, v) :: m, i => if i = a then some v else Memory.read m i

/-- The memory with `w` written at index `i`. -/
def Memory.write {β : Type} : List (Nat × β) → Nat → β → List (Nat × β)
  | [], i, w => [(i, w)]
  | (a, v) :: m, i, w =>
    if i < a then (i, w) :: (a, v) :: m
    else if i = a then (i, w) :: m
    else (a, v) :: Memory.write m i w

/-- `MemRead(IN, (c, i))`: the last value stored there (20_memory.md rule R61); before any, a free value
(93_implementation_defined.md U13; log entry 9). -/
def readIn (s : State) (c : Chan) (i : Nat) : RealNum :=
  match Memory.read (s.inp.get c) i with
  | some v => v
  | none => Config.freeSample s.env.epoch c.index i

/-- `MemWrite(IN, (c, i), v)` (20_memory.md rule R61). -/
def writeIn (c : Chan) (i : Nat) (v : RealNum) (s : State) : State :=
  { s with inp := s.inp.set c (Memory.write (s.inp.get c) i v) }

/-- The flat index of byte `(b, k)` of `RING`: `b * RING_B + k` (20_memory.md rule R62). -/
def ringIndex (s : State) (b k : Nat) : Nat := b * s.env.par.ringB + k

/-- `MemRead(RING, (b, k))` (20_memory.md rule R62); before any write there, a free value
(93_implementation_defined.md U13; log entry 8). -/
def readRing (s : State) (b k : Nat) : IQByte :=
  match Memory.read s.ring (ringIndex s b k) with
  | some v => v
  | none => .known (Config.freeRingByte s.env.epoch (ringIndex s b k))

/-- `MemWrite(RING, (b, k), v)` (20_memory.md rule R62). -/
def writeRing (b k : Nat) (v : IQByte) (s : State) : State :=
  { s with ring := Memory.write s.ring (ringIndex s b k) v }

/-! ### Faults, the counterpart of taking an exception

"`raise F_x` sets `STATUS` bit `15 + code` and ends the command. Nothing else changes ... no control goes anywhere; no
mode changes" (60_exceptions.md rule R264).  There is no saved state and no vector. -/

/-- Fault entry (60_exceptions.md rule R264). -/
def raiseFault (f : FaultCode) (s : State) : State := { s with sticky := s.sticky ||| faultBit f }

/-- The counterpart of returning from an exception: "There is no return operation. HOST acknowledges by writing 1 to
the bit" (60_exceptions.md rule R265; 10_state.md rule R35). -/
def acknowledge (v : Word32) (s : State) : State := { s with sticky := clearSticky v s.sticky }

/-! ### The hold and the soft reset -/

/-- A command: "Every `CMD` write is first held while `BUSY = 1` and executes when `BUSY = 0`" (46_commands.md rule
R230). While it is held nothing changes (log entry 7). -/
def whenIdle (s : State) (effect : State) : State := if s.busy then s else effect

/-- The reset event (70_reset_and_hazards.md rule R290): every state element takes the value of 10_state.md rule R41;
what stands around the unit stays, and the free values are read anew (log entries 8, 9, 17). -/
def resetEvent (s : State) : State := State.resetIn { s.env with epoch := s.env.epoch + 1 }

/-! ### CHUNK's checks and latch -/

/-- The first of CHUNK's checks that fails, in the order of 46_commands.md rule R232. -/
def chunkFault (s : State) : Option FaultCode :=
  if s.chunkCh ≠ 1#2 ∧ s.chunkCh ≠ 2#2 then some .fChan
  else if s.chunkRate = 0#32 then some .fRate
  else if s.chunkN.toNat < 4 then some .fShort
  else if s.env.par.nMax < s.chunkN.toNat then some .fLen
  else if outCount s.chunkN.toNat s.rate s.chunkRate.toNat = 0 then some .fMzero
  else none

/-- The latch: "On acceptance, in one step: `LCFG <- CFG ; LN <- N ; LS <- S ; LCH <- CH ; LM <- M ; BUSY <- 1`"
(46_commands.md rule R233), and the chunk stands at its first slot. -/
def latchChunk (s : State) : State :=
  { s with
    lcfg := s.cfg
    ln := s.chunkN
    ls := s.chunkRate
    lch := s.chunkCh
    lm := outCount s.chunkN.toNat s.rate s.chunkRate.toNat
    busy := true
    stage := some (.resamp .ch0) }

/-- The slot after `k` in the stage sequence (46_commands.md rule R235); `two` says that the chunk has two channels. -/
def nextSlot (two : Bool) : Slot → Slot
  | .resamp .ch0 => if two then .resamp .ch1 else .pre .ch0
  | .resamp .ch1 => .pre .ch0
  | .pre .ch0 => if two then .pre .ch1 else .mix
  | .pre .ch1 => .mix
  | .mix => .mod
  | .mod => .quant
  | .quant => .enq
  | .enq => .enq

/-- The chunk moves on from slot `k`. -/
def advance (k : Slot) (s : State) : State := { s with stage := some (nextSlot s.stereoChunk k) }

/-- Completion (46_commands.md rule R237): `BUSY` returns to 0. The working buffers "hold nothing between chunks"
(10_state.md rule R25). -/
def finishChunk (s : State) : State :=
  { s with busy := false, stage := none, buf := ⟨[], []⟩, sig := [], iq := [], outb := [] }

/-! ### The ring's cursors (20_memory.md rule R74) -/

/-- Publication: `HEAD <- (HEAD + 1) mod RING_C ; COUNT <- COUNT + 1` (45_ring_buffer.md rule R207), and `OFF <- 0`. -/
def publish (s : State) : State :=
  { s with head := (s.head + 1) % s.env.par.ringC, count := s.count + 1, off := 0 }

/-- Claim and free: `TAIL <- (TAIL + 1) mod RING_C ; COUNT <- COUNT - 1` (45_ring_buffer.md rule R210). -/
def claim (s : State) : State :=
  { s with tail := (s.tail + 1) % s.env.par.ringC, count := s.count - 1 }

/-- The answer at the consumer's port: the bytes and the return code 0 (30_encoding.md rule R92). -/
def answer (bs : List IQByte) (s : State) : State := { s with env := { s.env with txBytes := bs, txRc := 0 } }

end Sys2Proof.Machine
end

