-- ==== Sys2Proof/Machine/Bus.lean ====
section
/-! DEFINITION. Machine/Bus.lean: HOST's accesses that are not commands: register writes and reads and sample loads
(46_commands.md rules R240 to R242; 20_memory.md rules R60 to R69). They are bus accesses, "not operations"
(30_encoding.md rule R90). -/

namespace Sys2Proof.Machine

/-- The offset of `CMD` (10_state.md rule R33). -/
def offCmd : Nat := 0x00
/-- The offset of `STATUS` (10_state.md rule R33). -/
def offStatus : Nat := 0x04
/-- The offset of `CFG` (10_state.md rule R33). -/
def offCfg : Nat := 0x08
/-- The offset of `CHUNK_N` (10_state.md rule R33). -/
def offChunkN : Nat := 0x0C
/-- The offset of `CHUNK_RATE` (10_state.md rule R33). -/
def offChunkRate : Nat := 0x10
/-- The offset of `CHUNK_CH` (10_state.md rule R33). -/
def offChunkCh : Nat := 0x14
/-- `IN_BASE`: where the window of `IN` starts (20_memory.md rule R69). -/
def inBase : Nat := 0x10000

/-- The access is one of a whole aligned 32-bit word (20_memory.md rules R66, R67). -/
def wordAccess (off bytes : Nat) : Bool := bytes == 4 && off % 4 == 0

/-- `CMD` is being written by this access: the word is a command (10_state.md rule R34). -/
def isCommand (off bytes : Nat) : Bool := wordAccess off bytes && off == offCmd

/-- A write that is only allowed while `BUSY = 0` (46_commands.md rules R240, R242). -/
def unlessBusy (s t : State) : Host.Outcome State Fault Refusal :=
  if s.busy then .refused .inputsFrozen else .next t

/-- The channel of a number, where there is one. -/
def chanOf : Nat → Option Chan
  | 0 => some .ch0
  | 1 => some .ch1
  | _ => none

/-- `ld c, i, v` (46_commands.md rule R242): refused where `IN` has no such sample (20_memory.md rule R61), where the
value is no finite number (93_implementation_defined.md U2), and while `BUSY = 1`. -/
def sampleLoad (c i : Nat) (v : LoadValue) (s : State) : Host.Outcome State Fault Refusal :=
  match chanOf c, v with
  | none, _ => .refused .noSuchSample
  | some _, .notFinite => .refused .notFinite
  | some k, .finite x =>
    if s.env.par.nMax ≤ i then .refused .noSuchSample
    else unlessBusy s (writeIn k i x s)

/-- What a word write stores in the window of `IN`, as a sample load sees it. -/
def wordSample (v : Word32) : LoadValue :=
  match Config.numOfWord v with
  | some q => .finite (.ofRat q)
  | none => .notFinite

/-- A word write in the window of `IN`: "sample `(c, i)` at byte offset `IN_BASE + 4 × (c × N_MAX + i)`, one 32-bit word
per sample (only for a `NUM` of 32 bits or fewer; otherwise the model passes samples as values)" (20_memory.md rule R69).
A build stores the sample that the word encodes; exact real arithmetic has no word form, and the write is refused (log
entry 16). -/
def windowWrite (off : Nat) (v : Word32) (s : State) : Host.Outcome State Fault Refusal :=
  match s.env.par.num with
  | .build =>
    sampleLoad ((off - inBase) / 4 / s.env.par.nMax) ((off - inBase) / 4 % s.env.par.nMax) (wordSample v) s
  | .reference => .refused .sampleWindow

/-- `wr REG, v` for a register other than `CMD` (46_commands.md rule R240). A reserved offset ignores the write
(10_state.md rule R40). -/
def regWrite (off bytes : Nat) (v : Word32) (s : State) : Host.Outcome State Fault Refusal :=
  if wordAccess off bytes = false then .refused .badRegAccess
  else if inBase ≤ off then windowWrite off v s
  else if off = offStatus then .next (acknowledge v s)
  else if off = offCfg then .next { s with cfg := legalCfg v }
  else if off = offChunkN then unlessBusy s { s with chunkN := v }
  else if off = offChunkRate then unlessBusy s { s with chunkRate := v }
  else if off = offChunkCh then unlessBusy s { s with chunkCh := v.extractLsb' 0 2 }
  else .next s

/-- The value a register reads as (10_state.md rules R34 to R40): `CMD` and the reserved offsets read 0. -/
def regValue (s : State) (off : Nat) : Word32 :=
  if off = offStatus then statusWord s
  else if off = offCfg then s.cfg
  else if off = offChunkN then s.chunkN
  else if off = offChunkRate then s.chunkRate
  else if off = offChunkCh then s.chunkCh.setWidth 32
  else 0#32

/-- `rd REG` (46_commands.md rule R241): the value is answered and nothing else happens. -/
def regRead (off bytes : Nat) (s : State) : Host.Outcome State Fault Refusal :=
  if wordAccess off bytes = false then .refused .badRegAccess
  else if inBase ≤ off then .refused .sampleWindow
  else .next { s with env := { s.env with rdata := regValue s off } }

end Sys2Proof.Machine
end

