-- ==== Sys2Proof/Machine/Commands.lean ====
section
/-! DEFINITION. Machine/Commands.lean: HOST's commands NOP, CHUNK and SRST (46_commands.md), each answered by a next
state: while `BUSY = 1` the command is held and nothing changes; else it has its effect. -/

namespace Sys2Proof.Machine

/-- NOP: "*Effect:* none, after the hold" (46_commands.md rule R231). -/
def execNop (s : State) : Host.Outcome State Fault Refusal := .next (whenIdle s s)

/-- CHUNK's acceptance: the first failing check records its fault and nothing else; if all pass the latch is written
(46_commands.md rules R232, R233). -/
def acceptChunk (s : State) : State :=
  match chunkFault s with
  | some f => raiseFault f s
  | none => latchChunk s

/-- CHUNK (46_commands.md rule R232). Its stages are the operations of the slots, which PRODUCER runs one after
another (46_commands.md rule R235; log entry 6). -/
def execChunk (s : State) : Host.Outcome State Fault Refusal := .next (whenIdle s (acceptChunk s))

/-- SRST: "after the hold of rule R230, the whole instance takes the reset state" (46_commands.md rule R238). -/
def execSrst (s : State) : Host.Outcome State Fault Refusal := .next (whenIdle s (resetEvent s))

end Sys2Proof.Machine
end

