-- ==== Sys2Proof/Machine/Mixer.lean ====
section
/-! DEFINITION. Machine/Mixer.lean: the stereo mixer, MIX.MONO, MIX.AVG and MIX.MPX (42_stereo_mixer.md). -/

namespace Sys2Proof.Machine

/-- MIX.MONO: `SIG[n] <- BUF[0][n]` (42_stereo_mixer.md rule R156). -/
def execMixMono (s : State) : Host.Outcome State Fault Refusal :=
  .next (advance .mix { s with sig := s.buf.ch0 })

/-- `(L + R) / 2` (42_stereo_mixer.md rule R157). -/
def average (f : NumFormat) (l r : RealNum) : RealNum := f.div (f.add l r) (f.ofRat 2)

/-- MIX.AVG: `SIG[n] <- (L[n] + R[n]) / 2` (42_stereo_mixer.md rule R157). -/
def execMixAvg (s : State) : Host.Outcome State Fault Refusal :=
  .next (advance .mix { s with sig := List.zipWith (average s.format) s.buf.ch0 s.buf.ch1 })

/-- The time of a sample, `t <- PILOT / T` (42_stereo_mixer.md rule R158); `PILOT` is a number of the format already. -/
def pilotTime (f : NumFormat) (t : Nat) (pilot : Rat) : RealNum := f.div (.ofRat pilot) (f.ofRat t)

/-- The subcarrier `sin(4 * PI * 19000 * t)` (42_stereo_mixer.md rule R158). -/
def subcarrier (f : NumFormat) (time : RealNum) : RealNum :=
  f.sin (f.mul (f.mul (f.mul (f.ofRat 4) f.pi) (f.ofRat 19000)) time)

/-- The pilot tone `sin(2 * PI * 19000 * t)` (42_stereo_mixer.md rule R158). -/
def pilotTone (f : NumFormat) (time : RealNum) : RealNum :=
  f.sin (f.mul (f.mul (f.mul (f.ofRat 2) f.pi) (f.ofRat 19000)) time)

/-- One multiplex sample, `0.9 * (sum + dif * sub) + 0.1 * pil`, at the counter's value (42_stereo_mixer.md rule R158). -/
def mpxSample (f : NumFormat) (t : Nat) (pilot : Rat) (l r : RealNum) : RealNum :=
  let time := pilotTime f t pilot
  let sum := f.div (f.add l r) (f.ofRat 2)
  let dif := f.div (f.sub l r) (f.ofRat 2)
  f.add (f.mul (f.ofRat (9 / 10)) (f.add sum (f.mul dif (subcarrier f time))))
    (f.mul (f.ofRat (1 / 10)) (pilotTone f time))

/-- The multiplex of two buffers: the counter is used first and stepped after (42_stereo_mixer.md rules R158, R159);
the counter after it and the samples. -/
def mpx (f : NumFormat) (t : Nat) : Rat → List RealNum → List RealNum → Rat × List RealNum
  | p, l :: ls, r :: rs =>
    let u := mpx f t (f.pilotStep (pilotWrap t) p) ls rs
    (u.1, mpxSample f t p l r :: u.2)
  | p, [], _ => (p, [])
  | p, _ :: _, [] => (p, [])

/-- MIX.MPX (42_stereo_mixer.md rule R158). -/
def execMixMpx (s : State) : Host.Outcome State Fault Refusal :=
  let u := mpx s.format s.rate s.pilot s.buf.ch0 s.buf.ch1
  .next (advance .mix { s with pilot := u.1, sig := u.2 })

end Sys2Proof.Machine
end

