-- ==== Sys2Proof/Machine/Modulator.lean ====
section
/-! DEFINITION. Machine/Modulator.lean: the modulator, MOD.WFM, MOD.NFM and MOD.AM (43_modulator.md). -/

namespace Sys2Proof.Machine

/-! ### Amplitude modulation -/

/-- The in-phase value `clip(SIG[n] * g + 0.5, -1, 1)` (43_modulator.md rule R177). A build embeds the exact ratio `g` at
one rounding, the model's choice (log entry 27). -/
def amSample (f : NumFormat) (g : Rat) (x : RealNum) : RealNum :=
  (f.add (f.mul x (f.ofRat g)) (f.ofRat (1 / 2))).clip

/-- The pairs `(clip(SIG[n] * g + 0.5, -1, 1), 0)`: the quadrature is "a stored constant, not a computed value"
(43_modulator.md rules R177, R186). -/
def amPairs (f : NumFormat) (g : Rat) : List RealNum → List RealNum
  | [] => []
  | x :: xs => amSample f g x :: RealNum.zero :: amPairs f g xs

/-- MOD.AM (43_modulator.md rule R177). -/
def execModAm (s : State) : Host.Outcome State Fault Refusal :=
  .next (advance .mod { s with iq := amPairs s.format (gainFactor s.lcfg) s.sig })

/-! ### Frequency modulation -/

/-- The phase after one sample: `wrap(PHASE + D * clip(SIG[n] * g, -1, 1))` (43_modulator.md rule R179). A build embeds
the exact ratio `g` at one rounding, the model's choice (log entry 27). -/
def fmPhase (f : NumFormat) (scale : RealNum) (g : Rat) (phase x : RealNum) : RealNum :=
  f.wrap (f.add phase (f.mul scale (f.mul x (f.ofRat g)).clip))

/-- Frequency modulation of a signal: "The phase is advanced and wrapped first, and the pair is taken from the new
phase"; the pair is `(sin(PHASE), cos(PHASE))` (43_modulator.md rule R179). The phase after it and the pairs. -/
def fmPairs (f : NumFormat) (scale : RealNum) (g : Rat) : RealNum → List RealNum → RealNum × List RealNum
  | p, [] => (p, [])
  | p, x :: xs =>
    let p' := fmPhase f scale g p x
    let r := fmPairs f scale g p' xs
    (r.1, f.sin p' :: f.cos p' :: r.2)

/-- FM with a deviation of `dev` hertz: `IQ` and `PHASE` (43_modulator.md rule R179). -/
def modulateFm (dev : Nat) (s : State) : State :=
  let r := fmPairs s.format (phaseScale s.format dev s.rate) (gainFactor s.lcfg) s.phase s.sig
  { s with phase := r.1, iq := r.2 }

/-- MOD.WFM: `dev = 75000` (43_modulator.md rule R179). -/
def execModWfm (s : State) : Host.Outcome State Fault Refusal :=
  .next (advance .mod (modulateFm deviationWide s))

/-- MOD.NFM: `dev = 5000` (43_modulator.md rule R180). -/
def execModNfm (s : State) : Host.Outcome State Fault Refusal :=
  .next (advance .mod (modulateFm deviationNarrow s))

end Sys2Proof.Machine
end

