-- ==== Sys2Proof/Machine/Preemphasis.lean ====
section
/-! DEFINITION. Machine/Preemphasis.lean: the pre-emphasis filter, PRE.50, PRE.75 and PRE.BYP (41_preemphasis.md). -/

namespace Sys2Proof.Machine

/-- The recursion of 41_preemphasis.md rule R142 over a buffer: `out <- (B0*xin + B1*xp) - A1*yp`, then `xp <- xin`,
`yp <- out`; the state after it and the outputs. -/
def preFilter (f : NumFormat) (k : Coef) : FilterState → List RealNum → FilterState × List RealNum
  | st, [] => (st, [])
  | st, xin :: xs =>
    let out := f.sub (f.add (f.mul k.b0 xin) (f.mul k.b1 st.xp)) (f.mul k.a1 st.yp)
    let r := preFilter f k ⟨xin, out⟩ xs
    (r.1, out :: r.2)

/-- The filter in place over `BUF[c]`, with the state `FST[c]` and the coefficient set `k` (41_preemphasis.md rule
R142). -/
def filterChannel (k : Coef) (c : Chan) (s : State) : State :=
  let r := preFilter s.format k (s.fst.get c) (s.buf.get c)
  { s with fst := s.fst.set c r.1, buf := s.buf.set c r.2 }

/-- PRE.50 `c`: coefficient set 0 (41_preemphasis.md rule R142). -/
def execPre50 (c : Chan) (s : State) : Host.Outcome State Fault Refusal :=
  .next (advance (.pre c) (filterChannel s.env.par.pre50 c s))

/-- PRE.75 `c`: coefficient set 1, the same `FST[c]` (41_preemphasis.md rule R143). -/
def execPre75 (c : Chan) (s : State) : Host.Outcome State Fault Refusal :=
  .next (advance (.pre c) (filterChannel s.env.par.pre75 c s))

/-- PRE.BYP `c`: "*Effect:* none: `BUF[c]` is unchanged ... and `FST[c]` is neither read nor written"
(41_preemphasis.md rule R144). -/
def execPreByp (c : Chan) (s : State) : Host.Outcome State Fault Refusal := .next (advance (.pre c) s)

end Sys2Proof.Machine
end

