-- ==== Sys2Proof/Machine/Quantizer.lean ====
section
/-! DEFINITION. Machine/Quantizer.lean: the quantiser to signed 8-bit, QUANT (44_quantizer.md). -/

namespace Sys2Proof.Machine

/-- `int8(q)` with `q <- trunc(IQ[k] * 127)` (44_quantizer.md rule R196). -/
def quantValue (f : NumFormat) (v : RealNum) : IQByte := f.truncByte (f.mul v (f.ofRat 127))

/-- One value to one byte. Outside `[-1, 1]` the spec gives it no meaning (44_quantizer.md rule R199;
93_implementation_defined.md U4; log entry 24). -/
def quantByte (f : NumFormat) (v : RealNum) : Option IQByte := if v.inUnit then some (quantValue f v) else none

/-- "per I and Q independently": each value is converted by itself, in order (44_quantizer.md rules R196, R198). -/
def quantBytes (f : NumFormat) : List RealNum → Option (List IQByte)
  | [] => some []
  | v :: vs =>
    match quantByte f v with
    | some b =>
      match quantBytes f vs with
      | some bs => some (b :: bs)
      | none => none
    | none => none

/-- The string of bytes "is handed to ENQ unchanged and in this order" (44_quantizer.md rule R198): `OUTB`, and
`PEND <- OUTB ; PIDX <- 0` (46_commands.md rule R235), which the model does in QUANT's own step (log entry 6). -/
def handOver (bs : List IQByte) (s : State) : State := { s with outb := bs, pend := bs, pidx := 0 }

/-- QUANT (44_quantizer.md rule R196). -/
def execQuant (s : State) : Host.Outcome State Fault Refusal :=
  match quantBytes s.format s.iq with
  | some bs => .next (advance .quant (handOver bs s))
  | none => .refused .quantRange

end Sys2Proof.Machine
end

