-- ==== Sys2Proof/Machine/Resampler.lean ====
section
/-! DEFINITION. Machine/Resampler.lean: the linear resampler, RESAMP (40_resampler.md). -/

namespace Sys2Proof.Machine

/-- Output `j` of `m` (40_resampler.md rule R120) from the carried-over sample, the input `x` and its length `n`: the
last output is the last input (rule R125); before the first input sample the carry and `x[0]` are interpolated
(rule R123); thereafter `x[f-1]` and `x[f]` (rule R124). The weight `w = (q mod M) / M` is exact; a build embeds the
exact ratio at one rounding, the model's choice (log entry 27). -/
def resampleAt (f : NumFormat) (carry : RealNum) (x : Nat → RealNum) (n m j : Nat) : RealNum :=
  if j + 1 = m then x (n - 1)
  else
    let q := (j + 1) * n
    let w := f.ofRat (((q % m : Nat) : Rat) / ((m : Nat) : Rat))
    let a := if q / m = 0 then carry else x (q / m - 1)
    let b := if q / m = 0 then x 0 else x (q / m)
    f.add a (f.mul w (f.sub b a))

/-- The outputs `y[0..m-1]`. -/
def resample (f : NumFormat) (carry : RealNum) (x : Nat → RealNum) (n m : Nat) : List RealNum :=
  (List.range m).map (resampleAt f carry x n m)

/-- The last four input samples, oldest first (40_resampler.md rule R127). -/
def lastFour (x : Nat → RealNum) (n : Nat) : Hist := ⟨x (n - 4), x (n - 3), x (n - 2), x (n - 1)⟩

/-- What RESAMP `c` writes: `BUF[c]` and `HIST[c]` (40_resampler.md rules R120, R127). -/
def resampleChannel (c : Chan) (s : State) : State :=
  { s with
    buf := s.buf.set c (resample s.format (s.hist.get c).h3 (readIn s c) s.ln.toNat s.lm)
    hist := s.hist.set c (lastFour (readIn s c) s.ln.toNat) }

/-- RESAMP `c` (40_resampler.md rule R120). It stops where the preconditions that CHUNK's checks guarantee do not hold
(rule R128; log entry 14). -/
def execResamp (c : Chan) (s : State) : Host.Outcome State Fault Refusal :=
  if s.ln.toNat < 4 then .fault .chunkTooShort
  else if s.env.par.nMax < s.ln.toNat then .fault .noSuchSample
  else if s.lm = 0 then .fault .noOutputSamples
  else .next (advance (.resamp c) (resampleChannel c s))

end Sys2Proof.Machine
end

