-- ==== Sys2Proof/Machine/Ring.lean ====
section
/-! DEFINITION. Machine/Ring.lean: the transmit ring buffer, ENQ and DEQ (45_ring_buffer.md). -/

namespace Sys2Proof.Machine

/-! ### Producer side -/

/-- One byte into the head block: the write, `PIDX + 1`, `OFF + 1`, and the publication where the block is full
(45_ring_buffer.md rules R206, R207). -/
def enqueueByte (b : IQByte) (s : State) : State :=
  let w := writeRing s.head s.off b { s with pidx := s.pidx + 1, off := s.off + 1 }
  if s.off + 1 = s.env.par.ringB then publish w else w

/-- The chunk is complete "when the last of the `2·LM` bytes has been enqueued" (46_commands.md rule R237). -/
def completeIfDone (s : State) : State := if s.pend.length ≤ s.pidx then finishChunk s else s

/-- One ENQ step: enabled only while `COUNT < RING_C` (45_ring_buffer.md rules R206, R208); while the ring is full
PRODUCER holds and nothing changes (log entry 7). With no byte pending the chunk is complete. -/
def enqStep (s : State) : State :=
  match s.pend[s.pidx]? with
  | some b => if s.count < s.env.par.ringC then completeIfDone (enqueueByte b s) else s
  | none => finishChunk s

/-- ENQ, one step of it: "ENQ is a sequence of `2·LM` PRODUCER steps, one per byte" (45_ring_buffer.md rule R206). -/
def execEnq (s : State) : Host.Outcome State Fault Refusal := .next (enqStep s)

/-! ### Consumer side -/

/-- The bytes of block `b` in increasing order (20_memory.md rule R62). -/
def blockBytes (s : State) (b : Nat) : List IQByte := (List.range s.env.par.ringB).map (readRing s b)

/-- DEQ on a non-empty ring: the tail block's bytes, then claim and free (45_ring_buffer.md rule R210). -/
def dequeueBlock (s : State) : State := claim (answer (blockBytes s s.tail) s)

/-- DEQ on an empty ring: a block of zeros and `UNDERRUN` (45_ring_buffer.md rule R211). -/
def underrun (s : State) : State :=
  answer (List.replicate s.env.par.ringB .zero) { s with sticky := s.sticky ||| underrunBit }

/-- DEQ (45_ring_buffer.md rules R210, R211). "The hardware serves `len = RING_B` only" (30_encoding.md rule R92). -/
def execDeq (len : Word32) (s : State) : Host.Outcome State Fault Refusal :=
  if len.toNat = s.env.par.ringB then .next (if 0 < s.count then dequeueBlock s else underrun s)
  else .refused .transferLength

end Sys2Proof.Machine
end

