-- ==== Sys2Proof/Machine/Dispatch.lean ====
section
/-! DEFINITION. Machine/Dispatch.lean: the meaning of each operation. The meanings of the format-S operations read the
chunk latch (10_state.md rule R31, "Every stage reads the latch"), from which the selection word was formed. -/

namespace Sys2Proof.Machine

def exec (i : Instr) (s : State) : Host.Outcome State Fault Refusal :=
  match i with
  | .nop => Sys2Proof.Machine.execNop s
  | .chunk => Sys2Proof.Machine.execChunk s
  | .srst => Sys2Proof.Machine.execSrst s
  | .deq len => Sys2Proof.Machine.execDeq len s
  | .resamp _ c => Sys2Proof.Machine.execResamp c s
  | .pre50 _ c => Sys2Proof.Machine.execPre50 c s
  | .pre75 _ c => Sys2Proof.Machine.execPre75 c s
  | .preByp _ c => Sys2Proof.Machine.execPreByp c s
  | .mixMono _ => Sys2Proof.Machine.execMixMono s
  | .mixAvg _ => Sys2Proof.Machine.execMixAvg s
  | .mixMpx _ => Sys2Proof.Machine.execMixMpx s
  | .modWfm _ => Sys2Proof.Machine.execModWfm s
  | .modNfm _ => Sys2Proof.Machine.execModNfm s
  | .modAm _ => Sys2Proof.Machine.execModAm s
  | .quant _ => Sys2Proof.Machine.execQuant s
  | .enq _ => Sys2Proof.Machine.execEnq s

end Sys2Proof.Machine
end

