-- ==== Sys2Proof/Machine/Agents.lean ====
section
/-! DEFINITION. Machine/Agents.lean: the moves of the three agents (00_scope.md rule R11): which word an agent's move
presents, how a word is run, and what becomes of the lists of accesses and of turns (log entries 5, 6, 7). -/

namespace Sys2Proof.Machine

/-! ### Fetching

There is no program counter and no fetch (10_state.md rule R26).  What an agent's move presents is: the command word
of HOST's next access, the length of CONSUMER's request, or the selection word of the chunk in progress at the slot
where it stands. -/

/-- The move at the head of the list of turns is made. -/
def popTurn (s : State) : State := { s with env := { s.env with sched := s.env.sched.tail } }

/-- HOST's access at the head of its list is made. -/
def popHost (s : State) : State := { s with env := { s.env with hostQ := s.env.hostQ.tail } }

/-- The operation word the next move presents, where it presents one: a `CMD` write that is not held (46_commands.md
rule R230), a transfer request (30_encoding.md rule R92), or the selection word at the chunk's slot (30_encoding.md
rule R93). -/
def fetch (s : State) : Option OpWord :=
  match s.env.sched with
  | .host :: _ =>
    match s.env.hostQ with
    | .wr off bytes v :: _ => if isCommand off bytes ∧ s.busy = false then some (.k v) else none
    | .rd _ _ :: _ => none
    | .ld _ _ _ :: _ => none
    | [] => none
  | .producer :: _ =>
    match s.stage with
    | some k => some (.s k s.sel)
    | none => none
  | .consumer len :: _ => some (.t len)
  | .platformReset :: _ => none
  | [] => none

/-- The state in which the presented operation runs: the turn is taken, and a command has left HOST's list. -/
def fetched (s : State) : State :=
  match s.env.sched with
  | .host :: _ => popHost (popTurn s)
  | .producer :: _ => popTurn s
  | .consumer _ :: _ => popTurn s
  | .platformReset :: _ => popTurn s
  | [] => s

/-- What a word that is no operation does: a reserved command word records `F_CMD` "and does nothing else"
(46_commands.md rule R239); a selection word that selects no variant is refused (30_encoding.md rule R99). -/
def rejectWord (e : Reject) (s : State) : Host.Outcome State Fault Refusal :=
  match e with
  | .reservedCommand => .next (raiseFault .fCmd s)
  | .noVariant => .refused .noVariant
  | .noSuchChannel => .refused .noVariant
  | .wrongLength => .refused .noVariant
  | .selectionTooWide => .refused .noVariant

/-- A word presented at a port is decoded and run. -/
def runWord (w : OpWord) (s : State) : Host.Outcome State Fault Refusal :=
  match decode w with
  | .ok i => exec i s
  | .error e => rejectWord e s

/-! ### Moves that present no operation -/

/-- HOST's move where it presents no command to run: a register or sample access; a held `CMD` write, which stays at
the head of HOST's list (10_state.md rule R34); or nothing, where HOST's list is empty. -/
def hostAccess (s : State) : Host.Outcome State Fault Refusal :=
  match s.env.hostQ with
  | [] => .next s
  | .wr off bytes v :: _ => if isCommand off bytes then .next s else regWrite off bytes v (popHost s)
  | .rd off bytes :: _ => regRead off bytes (popHost s)
  | .ld c i v :: _ => sampleLoad c i v (popHost s)

/-- A move that presents no operation word. PRODUCER has no step while no chunk is in progress (00_scope.md rule R11);
with no turn left no agent moves, and nothing changes (log entry 5). -/
def otherMove (s : State) : Host.Outcome State Fault Refusal :=
  match s.env.sched with
  | .host :: _ => hostAccess (popTurn s)
  | .producer :: _ => .next (popTurn s)
  | .consumer _ :: _ => .next (popTurn s)
  | .platformReset :: _ => .next (resetEvent (popTurn s))
  | [] => .next s

/-- One move. -/
def move (s : State) : Host.Outcome State Fault Refusal :=
  match fetch s with
  | some w => runWord w (fetched s)
  | none => otherMove s

/-! ### Placing one operation word as the next move -/

/-- A command word as HOST's next access, with no chunk in progress that would hold it. -/
def placeCommand (w : Word32) (s : State) : State :=
  { s with
    busy := false
    stage := none
    env := { s.env with hostQ := .wr offCmd 4 w :: s.env.hostQ, sched := .host :: s.env.sched } }

/-- A transfer request as the next move. -/
def placeRequest (len : Word32) (s : State) : State :=
  { s with env := { s.env with sched := .consumer len :: s.env.sched } }

/-- A chunk in progress that stands at slot `k` with the selection word `w`: its latch is that of an accepted chunk of
four samples at the target rate (`LN = 4`, `LS = T`, so `LM = 4`), with the fields of `w` in `LCFG` and `LCH`, and at
slot 6 its eight bytes are pending (log entry 20). -/
def placeSlot (k : Slot) (w : Sel) (s : State) : State :=
  { s with
    lcfg := (s.lcfg &&& 0xFFFFFFE0#32) ||| (w &&& 0b011111#6).setWidth 32
    lch := if w.ch2 then 2#2 else 1#2
    ln := 4#32
    ls := BitVec.ofNat 32 s.rate
    lm := 4
    pend := if k = .enq then List.replicate 8 .zero else s.pend
    pidx := if k = .enq then 0 else s.pidx
    busy := true
    stage := some k
    env := { s.env with sched := .producer :: s.env.sched } }

/-- The operation word `w` as the next move. -/
def placeWord (w : OpWord) (s : State) : State :=
  match w with
  | .k v => placeCommand v s
  | .t len => placeRequest len s
  | .s k v => placeSlot k v s

end Sys2Proof.Machine
end

