-- ==== Sys2Proof/Machine/Step.lean ====
section
/-! DEFINITION. Machine/Step.lean: one step of the machine is one move of one agent. -/

namespace Sys2Proof.Machine

/-- One step: the move that stands first in the list of turns. -/
def step (s : State) : Host.Outcome State Fault Refusal := move s

/-- The state with a table word of `nbits` bits placed as the next move, so that the next step runs exactly the
operation it encodes (log entries 5, 12, 20). A word that forms no operation word changes nothing. -/
def State.withFetchWord (s : State) (nbits w : Nat) : State :=
  match tablePort nbits w with
  | some p =>
    match wordOf p (tableBytes nbits w) with
    | .ok o => placeWord o s
    | .error _ => s
  | none => s

end Sys2Proof.Machine
end

