-- ==== Sys2Proof/Safety.lean ====
section
/-! DEFINITION. Safety.lean: the terms in which claims about the machine are made: the real number that a number of
the datapath denotes, the invariants of a sound state, the bytes the ring holds, and what an operation left alone.
Nothing here is used by the machine. -/

namespace Sys2Proof

/-! ### What a number denotes (00_scope.md rules R8 to R10) -/

/-- The real numbers that `RealNum.named` names: nothing is known of them, so that each stands for any real number (log
entry 1). -/
noncomputable opaque Config.namedReal : Nat → ℝ

/-- `clip(v, -1, 1)` of a real number (00_scope.md rule R10). -/
noncomputable def clipReal (v : ℝ) : ℝ := if v < -1 then -1 else if 1 < v then 1 else v

/-- `wrap(p)`: "the unique real `p'` with `p' − p` an integer multiple of 2π and `−π < p' ≤ π`" (00_scope.md rule
R10). -/
noncomputable def wrapReal (p : ℝ) : ℝ := p + 2 * Real.pi * ⌊(Real.pi - p) / (2 * Real.pi)⌋

/-- The real number that a number of the datapath denotes. -/
noncomputable def RealNum.toReal : RealNum → ℝ
  | .lin a b => (a : ℝ) + (b : ℝ) * Real.pi
  | .named k => Config.namedReal k
  | .sum x y => x.toReal + y.toReal
  | .prod x y => x.toReal * y.toReal
  | .quot x y => x.toReal / y.toReal
  | .sine x => Real.sin x.toReal
  | .clamp x => clipReal x.toReal
  | .wrapped x => wrapReal x.toReal

/-- `trunc(v)` of a real number: the integer nearest to zero among `floor(v)` and `-floor(-v)` (00_scope.md rule R10). -/
noncomputable def truncReal (v : ℝ) : ℤ := if 0 ≤ v then ⌊v⌋ else -⌊-v⌋

/-- The byte that a byte of the stream is: `int8(trunc(x))` where it is stored as a truncation (44_quantizer.md rules
R196, R197). -/
noncomputable def IQByte.toByte : IQByte → Byte
  | .known b => b
  | .truncated x => int8 (truncReal x.toReal)

namespace Machine

/-! ### Invariants of a sound state -/

/-- The unit works over exact real arithmetic, the reference semantics (00_scope.md rule R8). -/
abbrev State.exactFormat (s : State) : Prop := s.env.par.num = .reference

/-- The parameters are those of some unit (00_scope.md rule R5). -/
abbrev State.parSound (s : State) : Prop := s.env.par.wf

/-- The ring's cursors (45_ring_buffer.md rules R214, R216; 10_state.md rule R28). -/
def State.ringSound (s : State) : Prop :=
  s.count ≤ s.env.par.ringC ∧ s.head < s.env.par.ringC ∧ s.tail < s.env.par.ringC ∧ s.off < s.env.par.ringB ∧
  s.head = (s.tail + s.count) % s.env.par.ringC ∧ (0 < s.off → s.count < s.env.par.ringC)

/-- Every index of a memory lies below a bound. -/
def Memory.below {β : Type} (m : List (Nat × β)) (bound : Nat) : Prop := ∀ x ∈ m, x.1 < bound

/-- The memories are in canonical form and list only elements that exist (20_memory.md rule R60). -/
def State.memSound (s : State) : Prop :=
  Memory.wf s.ring = true ∧ Memory.wf s.inp.ch0 = true ∧ Memory.wf s.inp.ch1 = true ∧
  Memory.below s.ring (s.env.par.ringC * s.env.par.ringB) ∧
  Memory.below s.inp.ch0 s.env.par.nMax ∧ Memory.below s.inp.ch1 s.env.par.nMax

/-- The registers hold legal values: the reserved bits of `STATUS` and `CFG` are 0, and `MODE` and `TAU` are not 3, in
`CFG` and in its latched copy (10_state.md rules R35, R36; 30_encoding.md rule R99). -/
def State.regSound (s : State) : Prop :=
  s.sticky &&& ~~~stickyMask = 0#32 ∧ legalCfg s.cfg = s.cfg ∧ legalCfg s.lcfg = s.lcfg

/-- The working buffers that the slot `k` reads hold one entry for each output sample (10_state.md rule R25), the I/Q
values lie in `[-1, 1]` (43_modulator.md rule R181), and at slot 6 a byte is pending (10_state.md rule R32). -/
def State.buffersSound (s : State) : Slot → Prop
  | .resamp .ch0 => True
  | .resamp .ch1 => s.buf.ch0.length = s.lm
  | .pre _ => s.buf.ch0.length = s.lm ∧ (s.lch = 2#2 → s.buf.ch1.length = s.lm)
  | .mix => s.buf.ch0.length = s.lm ∧ (s.lch = 2#2 → s.buf.ch1.length = s.lm)
  | .mod => s.sig.length = s.lm
  | .quant => s.iq.length = 2 * s.lm ∧ ∀ v ∈ s.iq, v.inUnit = true
  | .enq => s.pend.length = 2 * s.lm ∧ s.pidx < 2 * s.lm

/-- A chunk is in progress exactly when `BUSY = 1`; it is one that CHUNK accepted (46_commands.md rule R232), it
stands at a slot of a channel it has, and its buffers are those of that slot. -/
def State.seqSound (s : State) : Prop :=
  match s.stage with
  | none => s.busy = false
  | some k =>
    s.busy = true ∧ 4 ≤ s.ln.toNat ∧ s.ln.toNat ≤ s.env.par.nMax ∧ 1 ≤ s.lm ∧ (s.lch = 1#2 ∨ s.lch = 2#2) ∧
    ((k = .resamp .ch1 ∨ k = .pre .ch1) → s.lch = 2#2) ∧ s.buffersSound k

/-- `0 ≤ PILOT < W` (42_stereo_mixer.md rule R161). -/
def State.pilotSound (s : State) : Prop := 0 ≤ s.pilot ∧ s.pilot < pilotWrap s.rate

/-- `-pi < PHASE ≤ pi` (43_modulator.md rule R182); in a build, with the build's own `PI` (log entry 28). -/
def State.phaseSound (s : State) : Prop :=
  match s.env.par.num with
  | .reference => -Real.pi < s.phase.toReal ∧ s.phase.toReal ≤ Real.pi
  | .build => ∃ p : Rat, s.phase = .ofRat p ∧ inBuildPi p

/-- All of these but the last two. -/
def State.sound (s : State) : Prop :=
  s.parSound ∧ s.ringSound ∧ s.memSound ∧ s.regSound ∧ s.seqSound

/-! ### The bytes in the ring -/

/-- The `n`-th byte of the ring counted from the tail block's first. -/
def ringByteAt (s : State) (n : Nat) : IQByte :=
  readRing s ((s.tail + n / s.env.par.ringB) % s.env.par.ringC) (n % s.env.par.ringB)

/-- The bytes that have been enqueued and not dequeued, oldest first: the filled blocks and the part of the head block
that is written (45_ring_buffer.md rules R215, R218). -/
def ringContents (s : State) : List IQByte :=
  (List.range (s.count * s.env.par.ringB + s.off)).map (ringByteAt s)

/-! ### What an operation left alone -/

/-- Every byte of `RING` and every sample of `IN` reads as before. -/
def sameMemory (s t : State) : Prop :=
  (∀ b k, readRing t b k = readRing s b k) ∧ ∀ c i, readIn t c i = readIn s c i

/-- The control registers, the sticky bits and the chunk latch are as before. -/
def sameRegisters (s t : State) : Prop :=
  t.sticky = s.sticky ∧ t.cfg = s.cfg ∧ t.chunkN = s.chunkN ∧ t.chunkRate = s.chunkRate ∧ t.chunkCh = s.chunkCh ∧
  t.lcfg = s.lcfg ∧ t.ln = s.ln ∧ t.ls = s.ls ∧ t.lch = s.lch ∧ t.lm = s.lm

/-- The ring's cursors are as before. -/
def sameCursors (s t : State) : Prop :=
  t.head = s.head ∧ t.tail = s.tail ∧ t.count = s.count ∧ t.off = s.off

/-- The persistent datapath state is as before (10_state.md rule R20). -/
def sameDatapath (s t : State) : Prop :=
  t.hist = s.hist ∧ t.fst = s.fst ∧ t.phase = s.phase ∧ t.pilot = s.pilot

/-- The working buffers and the pending output are as before (10_state.md rules R25, R32). -/
def sameBuffers (s t : State) : Prop :=
  t.buf = s.buf ∧ t.sig = s.sig ∧ t.iq = s.iq ∧ t.outb = s.outb ∧ t.pend = s.pend ∧ t.pidx = s.pidx

/-- The slot at which an operation is presented, where it is one of the chunk's. -/
def slotOf (i : Instr) : Option Slot :=
  match encode i with
  | .k _ => none
  | .t _ => none
  | .s k _ => some k

/-- The real number that sample `(c, i)` of `IN` denotes. -/
noncomputable def inReal (s : State) (c : Chan) (i : Nat) : ℝ := (readIn s c i).toReal

/-- Entry `n` of a list of numbers, as a real number (0 beyond its end). -/
noncomputable def realAt (l : List RealNum) (n : Nat) : ℝ := (l.getD n RealNum.zero).toReal

/-- `BUSY` and the slot the chunk stands at are as before. -/
def sameProgress (s t : State) : Prop := t.busy = s.busy ∧ t.stage = s.stage

end Machine

end Sys2Proof
end

