-- ==== Sys2Proof/Certificates/Slice0/Obligations.lean ====
section
/-! DEFINITION. Obligations.lean: the statements about the machine. In each, `s` is any state, so any value of the
unit's parameters (00_scope.md rule R5); `s.exactFormat` says that the unit's number format is exact real arithmetic
(00_scope.md rule R8), and a statement without it holds of every number format. -/

open Sys2Proof Sys2Proof.Machine

/-! ### Encoding -/

/-- Decoding the word of a well-formed operation gives it back, for every operation and every operand
(30_encoding.md rules R91 to R96). -/
def Obligations.DecodeInvertsEncode : Prop :=
  ∀ i : Instr, i.wellFormed = true → decode (encode i) = .ok i

/-- A word that decodes is the word of the operation it decodes to, and that operation is well formed: every bit of a
word is kept, and a selection word selects a variant only under the variant's "condition in words" (30_encoding.md
rule R96). -/
def Obligations.EncodeInvertsDecode : Prop :=
  ∀ (w : OpWord) (i : Instr), decode w = .ok i → encode i = w ∧ i.wellFormed = true

/-- "With `MODE ∈ {0,1,2}` and `TAU ∈ {0,1,2}` every `sel` matches exactly one variant per slot" (30_encoding.md rule
R96, an inference the spec marks as derived): some row of the slot matches, and rows that match name the same
operation. -/
def Obligations.EverySelectionMatchesOneVariant : Prop :=
  ∀ (k : Slot) (w : Sel), w.mode ≠ 3#2 → w.tau ≠ 3#2 →
    (∃ r ∈ k.rows, r.hits w = true) ∧
    ∀ r ∈ k.rows, ∀ r' ∈ k.rows, r.hits w = true → r'.hits w = true → r.op w = r'.op w

/-- Words written out from the spec's encodings decode to the operations they stand for: the three commands
(30_encoding.md rule R91), a request of 16 bytes (rule R92), and rows of the table of selection words in
95_test_vectors.md, V-CM-4. -/
def Obligations.WordsOfTheTablesDecode : Prop :=
  decode (.k 0x00000000#32) = .ok .nop ∧
  decode (.k 0x00000001#32) = .ok .chunk ∧
  decode (.k 0x00000002#32) = .ok .srst ∧
  decode (.k 0x00000003#32) = .error .reservedCommand ∧
  decode (.k 0x00000011#32) = .error .reservedCommand ∧
  decode (.t 16#32) = .ok (.deq 16#32) ∧
  decode (.s (.pre .ch1) 0b110000#6) = .ok (.pre50 0b110000#6 .ch1) ∧
  decode (.s .mix 0b110000#6) = .ok (.mixMpx 0b110000#6) ∧
  decode (.s .mod 0b110000#6) = .ok (.modWfm 0b110000#6) ∧
  decode (.s .mix 0b010000#6) = .ok (.mixMono 0b010000#6) ∧
  decode (.s .mix 0b100000#6) = .ok (.mixAvg 0b100000#6) ∧
  decode (.s (.pre .ch0) 0b110101#6) = .ok (.pre75 0b110101#6 .ch0) ∧
  decode (.s .mod 0b110101#6) = .ok (.modNfm 0b110101#6) ∧
  decode (.s (.pre .ch0) 0b110010#6) = .ok (.preByp 0b110010#6 .ch0) ∧
  decode (.s .mod 0b110010#6) = .ok (.modAm 0b110010#6) ∧
  decode (.s (.pre .ch0) 0b111000#6) = .ok (.preByp 0b111000#6 .ch0)

/-- The selection word is formed from the latch: bits 1:0 are `LCFG.MODE`, bits 3:2 `LCFG.TAU`, bit 4 `LCFG.STEREO`,
and bit 5 is 1 exactly when `LCH = 2` (30_encoding.md rule R93). -/
def Obligations.SelectionWordIsFormedFromTheLatch : Prop :=
  ∀ s : State, s.sel.mode = cfgMode s.lcfg ∧ s.sel.tau = cfgTau s.lcfg ∧ s.sel.stereo = cfgStereo s.lcfg ∧
    (s.sel.ch2 = true ↔ s.lch = 2#2)

/-! ### Steps -/

/-- A step is the operation that the next move presents, in the state with the turn taken (and, for HOST, the access
made): HOST's `CMD` write with `BUSY = 0` presents its word, PRODUCER the selection word at the chunk's slot, CONSUMER
its request; the operation is `exec` of what the word decodes to, and a word that decodes to nothing is rejected. HOST's
move on an access that is no command is that register write, register read or sample load; a move with nothing to do
takes its turn. Nothing else stands around `exec`. The lists of turns and accesses are the model's own (log entry 5). -/
def Obligations.StepRunsTheDecodedOperation : Prop :=
  let runs := fun (w : OpWord) (s t : State) =>
    (∀ i, decode w = .ok i → step s = exec i t) ∧ (∀ e, decode w = .error e → step s = rejectWord e t)
  ∀ (s : State) (ts : List Turn) (q : List HostOp),
    let turn : State := { s with env := { s.env with sched := ts } }
    let made : State := { s with env := { s.env with sched := ts, hostQ := q } }
    (∀ v, s.env.sched = .host :: ts → s.env.hostQ = .wr 0 4 v :: q → s.busy = false → runs (.k v) s made) ∧
    (∀ k, s.env.sched = .producer :: ts → s.stage = some k → runs (.s k s.sel) s turn) ∧
    (∀ len, s.env.sched = .consumer len :: ts → runs (.t len) s turn) ∧
    (∀ off bytes v, s.env.sched = .host :: ts → s.env.hostQ = .wr off bytes v :: q → off ≠ 0 ∨ bytes ≠ 4 →
      step s = regWrite off bytes v made) ∧
    (∀ off bytes, s.env.sched = .host :: ts → s.env.hostQ = .rd off bytes :: q → step s = regRead off bytes made) ∧
    (∀ c i v, s.env.sched = .host :: ts → s.env.hostQ = .ld c i v :: q → step s = sampleLoad c i v made) ∧
    (s.env.sched = .host :: ts → s.env.hostQ = [] → step s = .next turn) ∧
    (s.env.sched = .producer :: ts → s.stage = none → step s = .next turn) ∧
    (s.env.sched = [] → step s = .next s)

/-- A command word other than 0, 1, 2 sets `STATUS.F_CMD` (bit 21, fault code 6) and does nothing else (46_commands.md
rule R239; 60_exceptions.md rule R263). -/
def Obligations.ReservedCommandOnlySetsFCmd : Prop :=
  ∀ (s : State) (v : Word32), v ≠ 0x00000000#32 → v ≠ 0x00000001#32 → v ≠ 0x00000002#32 → s.busy = false →
    runWord (.k v) s = .next { s with sticky := s.sticky ||| 0x00200000#32 }

/-- "Every `CMD` write is first held while `BUSY = 1`" (46_commands.md rule R230): the three commands change nothing
then, and HOST's move on a `CMD` write of any word leaves the write where it is (10_state.md rule R34). -/
def Obligations.CommandsAreHeldWhileBusy : Prop :=
  ∀ s : State, s.busy = true →
    (exec .nop s = .next s ∧ exec .chunk s = .next s ∧ exec .srst s = .next s) ∧
    ∀ (v : Word32) (q : List HostOp) (ts : List Turn),
      s.env.hostQ = .wr 0 4 v :: q → s.env.sched = .host :: ts →
      step s = .next { s with env := { s.env with sched := ts } }

/-! ### Commands -/

/-- NOP: the word 0; no effect, in any state (46_commands.md rule R231). -/
def Obligations.NopChangesNothing : Prop :=
  decode (.k 0x00000000#32) = .ok .nop ∧ ∀ s : State, exec .nop s = .next s

/-- CHUNK, when `BUSY = 0` and every check passes, writes the latch, with `LM = (2*N*T + S) div (2*S)`, and sets `BUSY`
(46_commands.md rules R232, R233; 40_resampler.md rule R121). Nothing else changes but the model's slot cursor, which
says that a chunk is in progress (log entry 6). -/
def Obligations.ChunkWritesTheLatch : Prop :=
  ∀ s : State, s.busy = false → (s.chunkCh = 1#2 ∨ s.chunkCh = 2#2) → s.chunkRate ≠ 0#32 →
    4 ≤ s.chunkN.toNat → s.chunkN.toNat ≤ s.env.par.nMax →
    (2 * s.chunkN.toNat * s.env.par.targetRate + s.chunkRate.toNat) / (2 * s.chunkRate.toNat) ≠ 0 →
    exec .chunk s = .next { s with
      lcfg := s.cfg, ln := s.chunkN, ls := s.chunkRate, lch := s.chunkCh,
      lm := (2 * s.chunkN.toNat * s.env.par.targetRate + s.chunkRate.toNat) / (2 * s.chunkRate.toNat),
      busy := true, stage := some (.resamp .ch0) }

/-- CHUNK's checks run in the order 1 to 5, the first that fails sets its bit `15 + code` of `STATUS`, and nothing else
changes (46_commands.md rule R232; 60_exceptions.md rules R257 to R262, R264). -/
def Obligations.ChunkFaultsInOrderAndPrecisely : Prop :=
  ∀ s : State, s.busy = false →
    (s.chunkCh ≠ 1#2 ∧ s.chunkCh ≠ 2#2 →
      exec .chunk s = .next { s with sticky := s.sticky ||| 0x00010000#32 }) ∧
    ((s.chunkCh = 1#2 ∨ s.chunkCh = 2#2) → s.chunkRate = 0#32 →
      exec .chunk s = .next { s with sticky := s.sticky ||| 0x00020000#32 }) ∧
    ((s.chunkCh = 1#2 ∨ s.chunkCh = 2#2) → s.chunkRate ≠ 0#32 → s.chunkN.toNat < 4 →
      exec .chunk s = .next { s with sticky := s.sticky ||| 0x00040000#32 }) ∧
    ((s.chunkCh = 1#2 ∨ s.chunkCh = 2#2) → s.chunkRate ≠ 0#32 → 4 ≤ s.chunkN.toNat →
      s.env.par.nMax < s.chunkN.toNat →
      exec .chunk s = .next { s with sticky := s.sticky ||| 0x00080000#32 }) ∧
    ((s.chunkCh = 1#2 ∨ s.chunkCh = 2#2) → s.chunkRate ≠ 0#32 → 4 ≤ s.chunkN.toNat →
      s.chunkN.toNat ≤ s.env.par.nMax → 2 * s.chunkN.toNat * s.env.par.targetRate < s.chunkRate.toNat →
      exec .chunk s = .next { s with sticky := s.sticky ||| 0x00100000#32 })

/-- SRST when `BUSY = 0`, and the platform's reset at any time, take the reset state: every datapath element 0, the
ring empty, no chunk in progress, `STATUS` reading 4, `CFG = 0x5A10` and the chunk registers 0 (46_commands.md rule
R238; 70_reset_and_hazards.md rule R290; 10_state.md rule R41). The model's choice: the latch, which rule R41 leaves
unspecified, is 0 (log entry 10), no byte of `RING` and no sample of `IN` is listed (log entries 8, 9), and of what
stands around the unit the parameters, HOST's list and the answers at the ports stay, while only the model's counter of
resets moves (log entry 17). -/
def Obligations.SrstAndResetTakeTheResetState : Prop :=
  ∀ s : State,
    (s.busy = false → ∃ t, exec .srst s = .next t ∧
      t = { State.reset with env := { s.env with epoch := t.env.epoch } } ∧
      (1 ≤ s.env.par.ringC → statusWord t = 0x00000004#32)) ∧
    ∀ ts, s.env.sched = .platformReset :: ts → ∃ t, step s = .next t ∧
      t = { State.reset with env := { s.env with sched := ts, epoch := t.env.epoch } } ∧
      (1 ≤ s.env.par.ringC → statusWord t = 0x00000004#32)

/-- The reset values the spec states (10_state.md rule R41). -/
def Obligations.ResetValues : Prop :=
  let r := State.reset
  (∀ c, r.hist.get c = ⟨.zero, .zero, .zero, .zero⟩) ∧ (∀ c, r.fst.get c = ⟨.zero, .zero⟩) ∧
  r.phase = .zero ∧ r.pilot = 0 ∧ r.head = 0 ∧ r.tail = 0 ∧ r.count = 0 ∧ r.off = 0 ∧
  (∀ c, r.buf.get c = []) ∧ r.sig = [] ∧ r.iq = [] ∧ r.outb = [] ∧ r.pend = [] ∧ r.pidx = 0 ∧ r.busy = false ∧
  statusWord r = 0x00000004#32 ∧ r.cfg = 0x00005A10#32 ∧ r.chunkN = 0 ∧ r.chunkRate = 0 ∧ r.chunkCh = 0

/-! ### The consumer's side -/

/-- Every request selects DEQ; on a non-empty ring it returns the tail block's bytes with return code 0, advances `TAIL`
modulo `RING_C`, decrements `COUNT`, and changes nothing else: no byte of memory, no register, no flag
(45_ring_buffer.md rule R210). -/
def Obligations.DeqReturnsTheTailBlock : Prop :=
  ∀ (s : State) (len : Word32), len.toNat = s.env.par.ringB → 0 < s.count →
    decode (.t len) = .ok (.deq len) ∧
    exec (.deq len) s = .next { s with
      tail := (s.tail + 1) % s.env.par.ringC
      count := s.count - 1
      env := { s.env with
        txBytes := (List.range s.env.par.ringB).map (fun k => readRing s s.tail k)
        txRc := 0 } }

/-- DEQ on an empty ring returns `RING_B` zero bytes with return code 0, sets `STATUS.UNDERRUN` (bit 8), and changes
nothing else (45_ring_buffer.md rule R211; 60_exceptions.md rule R268). -/
def Obligations.DeqOnAnEmptyRingReturnsZeros : Prop :=
  ∀ (s : State) (len : Word32), len.toNat = s.env.par.ringB → s.count = 0 →
    exec (.deq len) s = .next { s with
      sticky := s.sticky ||| 0x00000100#32
      env := { s.env with txBytes := List.replicate s.env.par.ringB (.known 0#8), txRc := 0 } }

/-- "DEQ is always enabled, in every state, and is one step" (45_ring_buffer.md rule R213), whatever PRODUCER and HOST
are doing; "Every DEQ returns `rc = 0`" (rule R212). A request of another length has no meaning
(93_implementation_defined.md U6). -/
def Obligations.DeqIsAlwaysEnabled : Prop :=
  ∀ (s : State) (len : Word32) (ts : List Turn), s.env.sched = .consumer len :: ts →
    (len.toNat = s.env.par.ringB → ∃ t, step s = .next t ∧ t.env.txRc = 0 ∧ t.env.txBytes.length = s.env.par.ringB) ∧
    (len.toNat ≠ s.env.par.ringB → step s = .refused .transferLength)

/-! ### The producer's side -/

/-- One ENQ step with a byte pending and the ring not full: the byte is stored at `(HEAD, OFF)` and no other byte of
`RING` and no sample of `IN` changes; `PIDX` and `OFF` advance; the step that fills the block publishes it: `HEAD`
advances modulo `RING_C`, `COUNT` rises by one, `OFF` returns to 0 (45_ring_buffer.md rules R206, R207). With the last
byte `BUSY` returns to 0 (46_commands.md rule R237); that it does so in the step of that byte is the model's reading (log
entry 18). Nothing else changes, but that a completed chunk has no slot and no working buffers (10_state.md rule R25; log
entry 6). -/
def Obligations.EnqStoresOneByteAndPublishes : Prop :=
  ∀ (s : State) (w : Sel) (b : IQByte), s.pend[s.pidx]? = some b → s.count < s.env.par.ringC →
    ∃ t, exec (.enq w) s = .next t ∧
      readRing t s.head s.off = b ∧
      (∀ b' k', ringIndex s b' k' ≠ ringIndex s s.head s.off → readRing t b' k' = readRing s b' k') ∧
      (∀ c i, readIn t c i = readIn s c i) ∧
      t.pidx = s.pidx + 1 ∧ t.pend = s.pend ∧ t.tail = s.tail ∧
      (s.off + 1 = s.env.par.ringB →
        t.head = (s.head + 1) % s.env.par.ringC ∧ t.count = s.count + 1 ∧ t.off = 0) ∧
      (s.off + 1 ≠ s.env.par.ringB → t.head = s.head ∧ t.count = s.count ∧ t.off = s.off + 1) ∧
      (s.pidx + 1 = s.pend.length → t.busy = false) ∧
      (s.pidx + 1 < s.pend.length → sameProgress s t ∧ t.buf = s.buf ∧ t.sig = s.sig ∧ t.iq = s.iq ∧ t.outb = s.outb) ∧
      sameDatapath s t ∧ sameRegisters s t ∧ t.env = s.env

/-- While `COUNT = RING_C` and a byte is pending PRODUCER holds: nothing changes and `BUSY` stays as it is; a DEQ lifts
the hold: after it the step is enabled (45_ring_buffer.md rules R208, R219; 60_exceptions.md rule R269). -/
def Obligations.EnqHoldsWhileTheRingIsFull : Prop :=
  ∀ (s : State) (w : Sel) (len : Word32), s.count = s.env.par.ringC → s.pidx < s.pend.length →
    exec (.enq w) s = .next s ∧
    (1 ≤ s.env.par.ringC → len.toNat = s.env.par.ringB →
      ∃ t, exec (.deq len) s = .next t ∧ t.count < t.env.par.ringC ∧
        ∃ u, exec (.enq w) t = .next u ∧ u.pidx = s.pidx + 1)

/-- First in, first out, exact (45_ring_buffer.md rule R215, an inference the spec marks as derived): an ENQ step
appends its byte to the bytes the ring holds, and a DEQ on a non-empty ring returns the oldest `RING_B` of them, so
that no byte is lost, duplicated, reordered or altered. -/
def Obligations.RingIsFirstInFirstOut : Prop :=
  ∀ s : State, s.parSound → s.ringSound →
    (∀ (w : Sel) (b : IQByte), s.pend[s.pidx]? = some b → s.count < s.env.par.ringC →
      ∃ t, exec (.enq w) s = .next t ∧ ringContents t = ringContents s ++ [b]) ∧
    (∀ len : Word32, len.toNat = s.env.par.ringB → 0 < s.count →
      ∃ t, exec (.deq len) s = .next t ∧ ringContents s = t.env.txBytes ++ ringContents t) ∧
    (∀ len : Word32, len.toNat = s.env.par.ringB → s.count = 0 →
      ∃ t, exec (.deq len) s = .next t ∧ ringContents t = ringContents s)

/-! ### Invariants that every step keeps -/

/-- The ring's cursors stay in range, `HEAD = (TAIL + COUNT) mod RING_C`, and `OFF > 0` implies `COUNT < RING_C`
(45_ring_buffer.md rules R214, R216, which the spec marks as derived); the parameters are "fixed for the life of one
hardware instance" (00_scope.md rule R5). -/
def Obligations.StepKeepsTheRingCursors : Prop :=
  ∀ s t : State, s.parSound → s.ringSound → step s = .next t → t.ringSound ∧ t.env.par = s.env.par

/-- The memories stay in canonical form and list only elements that exist (the model's form of memory; 20_memory.md
rule R60). -/
def Obligations.StepKeepsTheMemoryForm : Prop :=
  ∀ s t : State, s.parSound → s.ringSound → s.memSound → step s = .next t → t.memSound

/-- The reserved bits of `STATUS` and `CFG` stay 0 and `MODE` and `TAU` stay legal, in `CFG` and in the latch
(10_state.md rules R35, R36; 30_encoding.md rules R98, R99). The model's choice: after a step that is SRST or the
platform's reset the latch, which rules R31 and R41 leave unspecified, is 0, and so has legal fields (log entry 10). -/
def Obligations.StepKeepsTheRegistersLegal : Prop :=
  ∀ s t : State, s.regSound → step s = .next t → t.regSound

/-- `BUSY` is 1 exactly while a chunk is in progress, and a chunk in progress is one that CHUNK accepted, at a slot whose
buffers hold one entry for each output sample (46_commands.md rules R232, R235, R237; 10_state.md rule R25). -/
def Obligations.StepKeepsTheChunkSound : Prop :=
  ∀ s t : State, s.seqSound → step s = .next t → t.seqSound

/-- `0 ≤ PILOT < W` after every operation (42_stereo_mixer.md rule R161, which the spec marks as derived). -/
def Obligations.StepKeepsThePilotBounded : Prop :=
  ∀ s t : State, s.exactFormat → s.parSound → s.pilotSound → step s = .next t → t.pilotSound

/-- `-pi < PHASE ≤ pi` after every operation (43_modulator.md rule R182, which the spec marks as derived; 10_state.md
rule R23), over exact arithmetic, and in a build with the build's own `PI`, the model's choice (log entry 28). -/
def Obligations.StepKeepsThePhaseInRange : Prop :=
  ∀ s t : State, s.phaseSound → step s = .next t → t.phaseSound

/-- The invariants hold after reset. The model's choice: that the unit after reset works over exact arithmetic (log entry
1), that its latch, which is to hold legal fields, is 0 (log entry 10), and that its memories list nothing (log entries
8, 9). -/
def Obligations.ResetIsSound : Prop :=
  State.reset.sound ∧ State.reset.pilotSound ∧ State.reset.phaseSound ∧ State.reset.exactFormat

/-- "no stage micro-operation and no DEQ can fault" (60_exceptions.md rule R255), and a value outside `[-1, 1]` cannot
reach QUANT (44_quantizer.md rule R199): from a sound state, in every number format, no step stops with a fault, and a
move of PRODUCER is answered by a next state. -/
def Obligations.NoStageOfASoundStateStops : Prop :=
  ∀ s : State, s.sound →
    (∀ f, step s ≠ .fault f) ∧
    ∀ ts, s.env.sched = .producer :: ts → ∃ t, step s = .next t

/-- Who writes the ring's cursors: `HEAD` and `OFF` change only in a move of PRODUCER, `TAIL` only in a move of
CONSUMER, `COUNT` in either, but for a reset, which is SRST, a move of HOST, or the platform's (10_state.md rule R28). The
state that a reset leaves is the model's in what rule R41 leaves unspecified (log entries 8, 9, 10). -/
def Obligations.CursorsHaveTheirOwners : Prop :=
  ∀ (s t : State) (m : Turn) (ts : List Turn), s.env.sched = m :: ts → step s = .next t →
    ((m = .host ∨ m = .platformReset) ∧ t = { State.reset with env := t.env }) ∨
    ((m ≠ .producer → t.head = s.head ∧ t.off = s.off) ∧
     ((∀ len, m ≠ .consumer len) → t.tail = s.tail) ∧
     (m ≠ .producer → (∀ len, m ≠ .consumer len) → t.count = s.count))

/-! ### The resampler -/

/-- The output count is `N * T / S` rounded to nearest with ties upward (40_resampler.md rule R121). -/
def Obligations.OutputCountIsRoundedHalfUp : Prop :=
  ∀ n t r : Nat, 0 < r → (outCount n t r : ℤ) = ⌊(n * t : ℚ) / r + 1 / 2⌋

/-- RESAMP `c` under the preconditions CHUNK guarantees: `M` outputs; output `j < M - 1` is
`a + w * (b - a)` with `q = (j+1)*N`, `f = q div M`, `w = (q mod M)/M`, `a` the carry and `b = x[0]` where `f = 0`,
`a = x[f-1]` and `b = x[f]` elsewhere; the last output is the last input; `HIST[c]` is the last four inputs, oldest
first. Nothing else changes but the model's slot cursor (40_resampler.md rules R123 to R127). -/
def Obligations.ResampleInterpolatesLinearly : Prop :=
  ∀ (s : State) (w : Sel) (c : Chan), s.exactFormat → 4 ≤ s.ln.toNat → s.ln.toNat ≤ s.env.par.nMax → 1 ≤ s.lm →
    ∃ t, exec (.resamp w c) s = .next t ∧
      (t.buf.get c).length = s.lm ∧
      (∀ j, j + 1 < s.lm →
        let q := (j + 1) * s.ln.toNat
        let a := if q / s.lm = 0 then (s.hist.get c).h3.toReal else inReal s c (q / s.lm - 1)
        let b := inReal s c (q / s.lm)
        realAt (t.buf.get c) j = a + ((q % s.lm : Nat) : ℝ) / s.lm * (b - a)) ∧
      realAt (t.buf.get c) (s.lm - 1) = inReal s c (s.ln.toNat - 1) ∧
      t.hist.get c = ⟨readIn s c (s.ln.toNat - 4), readIn s c (s.ln.toNat - 3), readIn s c (s.ln.toNat - 2),
        readIn s c (s.ln.toNat - 1)⟩ ∧
      t = { s with buf := s.buf.set c (t.buf.get c), hist := s.hist.set c (t.hist.get c),
                   stage := t.stage }

/-- `len(y) = M` exactly and `y[M-1] = x[N-1]` exactly, in every number format (40_resampler.md rules R125, R133). -/
def Obligations.ResampleLengthAndLastSampleAreExact : Prop :=
  ∀ (s : State) (w : Sel) (c : Chan), 4 ≤ s.ln.toNat → s.ln.toNat ≤ s.env.par.nMax → 1 ≤ s.lm →
    ∃ t, exec (.resamp w c) s = .next t ∧ (t.buf.get c).length = s.lm ∧
      (t.buf.get c)[s.lm - 1]? = some (readIn s c (s.ln.toNat - 1))

/-- RESAMP is given no value where the preconditions fail: `N < 4` (40_resampler.md rule R128), an input beyond
`N_MAX` (20_memory.md rule R61), no output sample (60_exceptions.md rule R261); the names of the stops are the
model's (log entry 14). -/
def Obligations.ResampleStopsOutsideItsPreconditions : Prop :=
  ∀ (s : State) (w : Sel) (c : Chan),
    (s.ln.toNat < 4 → exec (.resamp w c) s = .fault .chunkTooShort) ∧
    (4 ≤ s.ln.toNat → s.env.par.nMax < s.ln.toNat → exec (.resamp w c) s = .fault .noSuchSample) ∧
    (4 ≤ s.ln.toNat → s.ln.toNat ≤ s.env.par.nMax → s.lm = 0 → exec (.resamp w c) s = .fault .noOutputSamples)

/-- Every output lies between any bounds that hold the carry and all inputs: so a constant input with an equal carry
gives that constant, and inputs in `[-1, 1]` give outputs there (40_resampler.md rules R131 and R134, which the spec
marks as derived; 95_test_vectors.md S1). -/
def Obligations.ResampleStaysBetweenItsInputs : Prop :=
  ∀ (s t : State) (w : Sel) (c : Chan) (lo hi : ℝ), s.exactFormat → exec (.resamp w c) s = .next t →
    lo ≤ (s.hist.get c).h3.toReal → (s.hist.get c).h3.toReal ≤ hi →
    (∀ i, i < s.ln.toNat → lo ≤ inReal s c i ∧ inReal s c i ≤ hi) →
    (t.buf.get c).length = s.lm ∧ ∀ y ∈ t.buf.get c, lo ≤ y.toReal ∧ y.toReal ≤ hi

/-- A rising input after a carry not above it gives a rising output, strictly where the input is strict
(40_resampler.md rule R132, which the spec marks as derived; 95_test_vectors.md S1). -/
def Obligations.ResampleKeepsMonotone : Prop :=
  ∀ (s t : State) (w : Sel) (c : Chan), s.exactFormat → exec (.resamp w c) s = .next t →
    ((s.hist.get c).h3.toReal ≤ inReal s c 0 → (∀ i, i + 1 < s.ln.toNat → inReal s c i ≤ inReal s c (i + 1)) →
      ∀ j, j + 1 < s.lm → realAt (t.buf.get c) j ≤ realAt (t.buf.get c) (j + 1)) ∧
    ((s.hist.get c).h3.toReal < inReal s c 0 → (∀ i, i + 1 < s.ln.toNat → inReal s c i < inReal s c (i + 1)) →
      ∀ j, j + 1 < s.lm → realAt (t.buf.get c) j < realAt (t.buf.get c) (j + 1))

/-! ### The pre-emphasis filter -/

/-- PRE.50 and PRE.75 of channel `c`, selected by `xx000x` and `xx010x`: `out[n] = (B0*x[n] + B1*x[n-1]) - A1*out[n-1]`,
where before the first sample stand `FST[c]`, with the coefficients of their own set; `FST[c]` becomes the last input and
the last output. Nothing else changes but the model's slot cursor (41_preemphasis.md rules R142, R143). -/
def Obligations.PreEmphasisFollowsTheRecursion : Prop :=
  let follows := fun (k : Coef) (c : Chan) (s t : State) =>
    let x := fun n => if n = 0 then (s.fst.get c).xp.toReal else realAt (s.buf.get c) (n - 1)
    let y := fun n => if n = 0 then (s.fst.get c).yp.toReal else realAt (t.buf.get c) (n - 1)
    let m := (s.buf.get c).length
    (t.buf.get c).length = m ∧
    (∀ n, n < m → y (n + 1) = k.b0.toReal * x (n + 1) + k.b1.toReal * x n - k.a1.toReal * y n) ∧
    (t.fst.get c).xp.toReal = x m ∧ (t.fst.get c).yp.toReal = y m ∧
    t = { s with buf := s.buf.set c (t.buf.get c), fst := s.fst.set c (t.fst.get c), stage := t.stage }
  ∀ (s : State) (w : Sel) (c : Chan), s.exactFormat →
    ((w &&& 0b001110#6 = 0b000000#6 → w.hasChan c = true → decode (.s (.pre c) w) = .ok (.pre50 w c)) ∧
      ∃ t, exec (.pre50 w c) s = .next t ∧ follows s.env.par.pre50 c s t) ∧
    ((w &&& 0b001110#6 = 0b000100#6 → w.hasChan c = true → decode (.s (.pre c) w) = .ok (.pre75 w c)) ∧
      ∃ t, exec (.pre75 w c) s = .next t ∧ follows s.env.par.pre75 c s t)

/-- Filtering `x1` and then `x2` with the state carried between is filtering `x1 ++ x2`, in every number format
(41_preemphasis.md rule R149, which the spec marks as derived; 95_test_vectors.md S2). -/
def Obligations.PreEmphasisConcatenates : Prop :=
  ∀ (f : NumFormat) (k : Coef) (st : FilterState) (x1 x2 : List RealNum),
    preFilter f k st (x1 ++ x2) =
      ((preFilter f k (preFilter f k st x1).1 x2).1,
       (preFilter f k st x1).2 ++ (preFilter f k (preFilter f k st x1).1 x2).2)

/-- From `FST[c] = (0, 0)` a zero input gives a zero output and leaves `FST[c] = (0, 0)`, for any coefficients
(41_preemphasis.md rule R148, which the spec marks as derived; 95_test_vectors.md S2). -/
def Obligations.PreEmphasisOfZeroIsZero : Prop :=
  ∀ (s : State) (w : Sel) (c : Chan) (i : Instr), s.exactFormat → s.fst.get c = ⟨.zero, .zero⟩ →
    (∀ x ∈ s.buf.get c, x = RealNum.zero) → (i = .pre50 w c ∨ i = .pre75 w c) →
    ∃ t, exec i s = .next t ∧ t = { s with stage := t.stage }

/-- For fixed coefficients the filter is linear in its state and input together (41_preemphasis.md rule R150, which the
spec marks as derived). -/
def Obligations.PreEmphasisIsLinear : Prop :=
  ∀ (k : Coef) (u v r : FilterState) (x y z : List RealNum) (a b : ℝ),
    x.length = z.length → y.length = z.length →
    r.xp.toReal = a * u.xp.toReal + b * v.xp.toReal → r.yp.toReal = a * u.yp.toReal + b * v.yp.toReal →
    (∀ n, realAt z n = a * realAt x n + b * realAt y n) →
    let fx := preFilter .reference k u x
    let fy := preFilter .reference k v y
    let fz := preFilter .reference k r z
    (∀ n, realAt fz.2 n = a * realAt fx.2 n + b * realAt fy.2 n) ∧
    fz.1.xp.toReal = a * fx.1.xp.toReal + b * fy.1.xp.toReal ∧
    fz.1.yp.toReal = a * fx.1.yp.toReal + b * fy.1.yp.toReal

/-- PRE.BYP, selected by `xx10xx` and `xxxx10`, leaves `BUF[c]` and `FST[c]`, and all else but the model's slot cursor,
exactly as they are, in every number format (41_preemphasis.md rule R144). -/
def Obligations.BypassIsExact : Prop :=
  ∀ (s : State) (w : Sel) (c : Chan),
    (w &&& 0b001100#6 = 0b001000#6 ∨ w &&& 0b000011#6 = 0b000010#6 → w.hasChan c = true →
      decode (.s (.pre c) w) = .ok (.preByp w c)) ∧
    ∃ t, exec (.preByp w c) s = .next t ∧ t = { s with stage := t.stage }

/-! ### The mixer -/

/-- MIX.MONO, selected by `0xxxxx`, copies `BUF[0]` to `SIG`, exactly, in every number format; nothing else changes but
the model's slot cursor (42_stereo_mixer.md rule R156). -/
def Obligations.MixMonoCopies : Prop :=
  ∀ (s : State) (w : Sel),
    (w &&& 0b100000#6 = 0b000000#6 → decode (.s .mix w) = .ok (.mixMono w)) ∧
    ∃ t, exec (.mixMono w) s = .next t ∧ t = { s with sig := s.buf.ch0, stage := t.stage }

/-- MIX.AVG, selected by `10xxxx`, `11xx01` and `11xx10`: `SIG[n] = (L[n] + R[n]) / 2`; `PILOT` and all else but the
model's slot cursor are untouched (42_stereo_mixer.md rule R157). -/
def Obligations.MixAvgAverages : Prop :=
  ∀ (s : State) (w : Sel), s.exactFormat → s.buf.ch0.length = s.buf.ch1.length →
    (w &&& 0b110000#6 = 0b100000#6 ∨ w &&& 0b110011#6 = 0b110001#6 ∨ w &&& 0b110011#6 = 0b110010#6 →
      decode (.s .mix w) = .ok (.mixAvg w)) ∧
    ∃ t, exec (.mixAvg w) s = .next t ∧ t = { s with sig := t.sig, stage := t.stage } ∧
      t.sig.length = s.buf.ch0.length ∧
      ∀ n, realAt t.sig n = (realAt s.buf.ch0 n + realAt s.buf.ch1 n) / 2

/-- MIX.MPX, selected by `11xx00`: with `p` the counter's value at a sample (`PILOT` at the first, stepped by 1 modulo
`W = 4*T/19000` after each), `SIG[n] = 0.9 * ((L+R)/2 + (L-R)/2 * sin(4*pi*19000*t)) + 0.1 * sin(2*pi*19000*t)` with
`t = p / T`; `PILOT` ends at the value after the last sample. Nothing else changes but the model's slot cursor
(42_stereo_mixer.md rule R158). -/
def Obligations.MixMpxMultiplexes : Prop :=
  ∀ (s : State) (w : Sel), s.exactFormat → s.buf.ch0.length = s.buf.ch1.length →
    let p := fun n => Nat.iterate (fun q : Rat => ratMod (q + 1) (4 * (s.env.par.targetRate : Rat) / 19000)) n s.pilot
    (w &&& 0b110011#6 = 0b110000#6 → decode (.s .mix w) = .ok (.mixMpx w)) ∧
    ∃ t, exec (.mixMpx w) s = .next t ∧ t = { s with sig := t.sig, pilot := t.pilot, stage := t.stage } ∧
      t.sig.length = s.buf.ch0.length ∧ t.pilot = p s.buf.ch0.length ∧
      ∀ n, n < s.buf.ch0.length →
        realAt t.sig n =
          0.9 * ((realAt s.buf.ch0 n + realAt s.buf.ch1 n) / 2 + (realAt s.buf.ch0 n - realAt s.buf.ch1 n) / 2 *
            Real.sin (4 * Real.pi * 19000 * ((p n : ℝ) / s.env.par.targetRate))) +
          0.1 * Real.sin (2 * Real.pi * 19000 * ((p n : ℝ) / s.env.par.targetRate))

/-- "`(PILOT + 1) modW` is the unique value `p'` with `0 ≤ p' < W` and `(PILOT + 1) − p'` an integer multiple of `W`";
for `W ≥ 1` and `0 ≤ PILOT < W` it is one conditional subtraction (42_stereo_mixer.md rule R159). -/
def Obligations.PilotCounterStep : Prop :=
  ∀ (p w : Rat), 0 < w →
    (0 ≤ ratMod (p + 1) w ∧ ratMod (p + 1) w < w ∧ ∃ k : ℤ, (p + 1) - ratMod (p + 1) w = k * w) ∧
    (∀ p' : Rat, 0 ≤ p' → p' < w → (∃ k : ℤ, (p + 1) - p' = k * w) → p' = ratMod (p + 1) w) ∧
    (1 ≤ w → 0 ≤ p → p < w → ratMod (p + 1) w = if p + 1 ≥ w then p + 1 - w else p + 1)

/-- The tones are those of a sample counter that never wraps: after `m` steps from 0 the pilot is
`sin(2*pi*19000*m/T)` and the subcarrier `sin(4*pi*19000*m/T)` (42_stereo_mixer.md rule R162, which the spec marks as
derived). -/
def Obligations.PilotTonesArePhaseContinuous : Prop :=
  ∀ t m : Nat, 1 ≤ t →
    let p := Nat.iterate (fun q : Rat => ratMod (q + 1) (pilotWrap t)) m 0
    (pilotTone .reference (pilotTime .reference t p)).toReal = Real.sin (2 * Real.pi * 19000 * m / t) ∧
    (subcarrier .reference (pilotTime .reference t p)).toReal = Real.sin (4 * Real.pi * 19000 * m / t)

/-! ### The modulator -/

/-- MOD.WFM (`xxxx00`, `dev = 75000`) and MOD.NFM (`xxxx01`, `dev = 5000`): for each sample
`PHASE <- wrap(PHASE + 2*pi*dev/T * clip(SIG[n]*g, -1, 1))` with `g = GAIN/100`, then the pair is
`(sin(PHASE), cos(PHASE))`, in-phase first. Nothing else changes but the model's slot cursor (43_modulator.md rules R179,
R180). -/
def Obligations.FmAdvancesThePhase : Prop :=
  let modulates := fun (dev : ℝ) (s t : State) =>
    let g : ℝ := (cfgGain s.lcfg : ℝ) / 100
    ∃ p : Nat → ℝ, p 0 = s.phase.toReal ∧ p s.sig.length = t.phase.toReal ∧
      (∀ n, n < s.sig.length →
        p (n + 1) = wrapReal (p n + 2 * Real.pi * dev / s.env.par.targetRate * clipReal (realAt s.sig n * g)) ∧
        realAt t.iq (2 * n) = Real.sin (p (n + 1)) ∧ realAt t.iq (2 * n + 1) = Real.cos (p (n + 1))) ∧
      t.iq.length = 2 * s.sig.length ∧
      t = { s with iq := t.iq, phase := t.phase, stage := t.stage }
  ∀ (s : State) (w : Sel), s.exactFormat →
    ((w &&& 0b000011#6 = 0b000000#6 → decode (.s .mod w) = .ok (.modWfm w)) ∧
      ∃ t, exec (.modWfm w) s = .next t ∧ modulates 75000 s t) ∧
    ((w &&& 0b000011#6 = 0b000001#6 → decode (.s .mod w) = .ok (.modNfm w)) ∧
      ∃ t, exec (.modNfm w) s = .next t ∧ modulates 5000 s t)

/-- The operations of slots 2 to 4 complete in every state and every number format (60_exceptions.md rule R255); every
value that MOD writes lies in `[-1, 1]`, in a build because its sine and cosine are taken to (00_scope.md rule R9; log
entry 2), and over exact arithmetic each FM pair lies on the unit circle (43_modulator.md rules R181, R185, which the
spec marks as derived; 95_test_vectors.md S3). -/
def Obligations.StagesCompleteInEveryFormat : Prop :=
  ∀ (s : State) (w : Sel) (c : Chan),
    (∀ i ∈ [Instr.pre50 w c, .pre75 w c, .preByp w c, .mixMono w, .mixAvg w, .mixMpx w], ∃ t, exec i s = .next t) ∧
    (∀ i ∈ [Instr.modWfm w, .modNfm w, .modAm w], ∃ t, exec i s = .next t ∧
      t.iq.length = 2 * s.sig.length ∧ ∀ v ∈ t.iq, v.inUnit = true) ∧
    (∀ i ∈ [Instr.modWfm w, .modNfm w], ∀ t, s.exactFormat → exec i s = .next t →
      ∀ n, n < s.sig.length → realAt t.iq (2 * n) ^ 2 + realAt t.iq (2 * n + 1) ^ 2 = 1)

/-- Silence does not drift: where `SIG[n]*g = 0` for every `n`, `PHASE` stays as it was and every pair is
`(sin(PHASE), cos(PHASE))` (43_modulator.md rule R183, which the spec marks as derived; 95_test_vectors.md S3). So it is
over exact arithmetic, and "exactly under any `NUM` with `Δ × 0 = 0` and `p + 0 = p`" whose wrap keeps `PHASE`, as a
build's wrap does on `(-PI, PI]`, its own interval (log entry 28). -/
def Obligations.FmSilenceKeepsThePhase : Prop :=
  (∀ (s t : State) (w : Sel), s.exactFormat → s.phaseSound →
    (exec (.modWfm w) s = .next t ∨ exec (.modNfm w) s = .next t) →
    (∀ x ∈ s.sig, x.toReal * ((cfgGain s.lcfg : ℝ) / 100) = 0) →
    t.phase.toReal = s.phase.toReal ∧
    ∀ n, n < s.sig.length →
      realAt t.iq (2 * n) = Real.sin s.phase.toReal ∧ realAt t.iq (2 * n + 1) = Real.cos s.phase.toReal) ∧
  (∀ (f : NumFormat) (scale p : RealNum) (g : Rat) (xs : List RealNum),
    f.mul scale .zero = .zero → f.add p .zero = p → f.wrap p = p → (∀ x ∈ xs, f.mul x (f.ofRat g) = .zero) →
    (fmPairs f scale g p xs).1 = p ∧
    ∀ n, n < xs.length →
      (fmPairs f scale g p xs).2[2 * n]? = some (f.sin p) ∧ (fmPairs f scale g p xs).2[2 * n + 1]? = some (f.cos p)) ∧
  ∀ p : Rat, inBuildPi p → NumFormat.build.wrap (.ofRat p) = .ofRat p

/-- MOD.AM (`xxxx10`): each pair is `(clip(SIG[n]*g + 0.5, -1, 1), 0)` with `g = GAIN/100`; `PHASE` and all else but `IQ`
and the model's slot cursor are untouched (43_modulator.md rule R177). -/
def Obligations.AmScalesAndClips : Prop :=
  ∀ (s : State) (w : Sel), s.exactFormat →
    (w &&& 0b000011#6 = 0b000010#6 → decode (.s .mod w) = .ok (.modAm w)) ∧
    ∃ t, exec (.modAm w) s = .next t ∧ t = { s with iq := t.iq, stage := t.stage } ∧
      t.iq.length = 2 * s.sig.length ∧
      ∀ n, n < s.sig.length →
        realAt t.iq (2 * n) = clipReal (realAt s.sig n * ((cfgGain s.lcfg : ℝ) / 100) + 0.5) ∧
        realAt t.iq (2 * n + 1) = 0

/-- "`IQ[2n+1] = 0` exactly, for every `n`, under any `NUM`: it is a stored constant" (43_modulator.md rule R186, which
the spec marks as derived; 95_test_vectors.md S4). -/
def Obligations.AmQuadratureIsAStoredZero : Prop :=
  ∀ (s : State) (w : Sel), ∃ t, exec (.modAm w) s = .next t ∧
    ∀ n, n < s.sig.length → t.iq[2 * n + 1]? = some RealNum.zero

/-! ### The quantiser -/

/-- QUANT, where each value's enclosure shows that it lies in `[-1, 1]` (log entry 24): in every number format one byte for
each value, in order, handed to ENQ unchanged with `PIDX = 0`, which 46_commands.md rule R235 writes after QUANT and the
model in QUANT's own step (log entry 6), each an integer `q` with `-127 ≤ q ≤ 127`; over exact arithmetic
`q = trunc(127 * v)`, toward zero, and a pair inside the unit circle gives a pair inside the circle of radius 127
(44_quantizer.md rules R196 to R200).
The byte is the one that `IQByte.toByte` gives; a rational value's is stored as the byte itself (log entry 3). That a
build's integer stays in the range is log entry 2, the two's-complement byte log entry 22. Nothing else changes but the
model's slot cursor. -/
def Obligations.QuantTruncatesTowardZero : Prop :=
  ∀ (s : State) (w : Sel), (∀ v ∈ s.iq, v.inUnit = true) →
    ∃ t, exec (.quant w) s = .next t ∧
      t = { s with outb := t.outb, pend := t.outb, pidx := 0, stage := t.stage } ∧
      t.outb.length = s.iq.length ∧
      (∀ b ∈ t.outb, -127 ≤ b.toByte.toInt ∧ b.toByte.toInt ≤ 127) ∧
      (s.exactFormat →
        (∀ (n : Nat) (v : RealNum) (b : IQByte), s.iq[n]? = some v → t.outb[n]? = some b →
          b.toByte.toInt = truncReal (127 * v.toReal) ∧ ∀ q : Rat, v = .ofRat q → ∃ c, b = .known c) ∧
        ∀ (n m : Nat) (u v : RealNum) (a b : IQByte), s.iq[n]? = some u → s.iq[m]? = some v →
          t.outb[n]? = some a → t.outb[m]? = some b → u.toReal ^ 2 + v.toReal ^ 2 ≤ 1 →
          a.toByte.toInt ^ 2 + b.toByte.toInt ^ 2 ≤ 127 ^ 2)

/-! ### What selects and what cannot interfere -/

/-- "A `CFG` write during a chunk changes nothing in that chunk" (70_reset_and_hazards.md rule R305): an operation of
the chunk does the same whatever `CFG` holds, in every other part of the state, and leaves `CFG` alone. -/
def Obligations.ConfigurationActsThroughTheLatchOnly : Prop :=
  ∀ (i : Instr) (s t : State) (v : Word32), i.agent = .producer → exec i s = .next t →
    t.cfg = s.cfg ∧ exec i { s with cfg := v } = .next { t with cfg := v }

/-- Slots 1 to 5 "read no state CONSUMER writes and write none it reads" (46_commands.md rule R236): each does the same
whatever the ring, its cursors and the sticky bits hold, and leaves them alone. -/
def Obligations.StagesDoNotTouchTheRing : Prop :=
  ∀ (i : Instr) (s t : State) (ring : List (Nat × IQByte)) (head tail count off : Nat) (sticky : Word32),
    i.agent = .producer → slotOf i ≠ some .enq → exec i s = .next t →
    sameCursors s t ∧ t.ring = s.ring ∧ t.sticky = s.sticky ∧
    exec i { s with ring := ring, head := head, tail := tail, count := count, off := off, sticky := sticky } =
      .next { t with ring := ring, head := head, tail := tail, count := count, off := off, sticky := sticky }

/-- Channels are independent (40_resampler.md rule R129, 41_preemphasis.md rule R146, which the spec marks as derived):
RESAMP and PRE of channel `c` leave the other channel's buffer, history, filter state and input memory alone, and do the
same to channel `c` whatever those hold. -/
def Obligations.ChannelsAreIndependent : Prop :=
  ∀ (i : Instr) (s t : State) (w : Sel) (c d : Chan) (b : List RealNum) (h : Hist) (x : FilterState)
    (m : List (Nat × RealNum)), d ≠ c →
    (i = .resamp w c ∨ i = .pre50 w c ∨ i = .pre75 w c ∨ i = .preByp w c) → exec i s = .next t →
    t.buf.get d = s.buf.get d ∧ t.hist.get d = s.hist.get d ∧ t.fst.get d = s.fst.get d ∧ t.inp = s.inp ∧
    exec i { s with buf := s.buf.set d b, hist := s.hist.set d h, fst := s.fst.set d x, inp := s.inp.set d m } =
      .next { t with buf := t.buf.set d b, hist := t.hist.set d h, fst := t.fst.set d x, inp := t.inp.set d m }

/-- What the operations of slots 1 to 5 leave alone, in every form and number format: the registers, the latch, the
sticky bits, the ring's cursors, every byte of `RING` and sample of `IN`, `BUSY`, and what stands around the unit
(10_state.md rule R43). Each changes only the datapath state and buffers that rule R43 names for it, and the slot cursor,
the model's own (log entry 6), moves on in the order of 46_commands.md rule R235: each slot once for each channel. -/
def Obligations.FrameOfTheStages : Prop :=
  ∀ (i : Instr) (s t : State), i.agent = .producer → slotOf i ≠ some .enq → exec i s = .next t →
    sameRegisters s t ∧ sameCursors s t ∧ sameMemory s t ∧ t.busy = s.busy ∧ t.env = s.env ∧
    (∀ k, slotOf i = some k → t.stage = some (nextSlot (s.lch == 2#2) k)) ∧
    ((∀ w c, i ≠ .resamp w c) → t.hist = s.hist) ∧
    ((∀ w c, i ≠ .pre50 w c ∧ i ≠ .pre75 w c) → t.fst = s.fst) ∧
    ((∀ w, i ≠ .modWfm w ∧ i ≠ .modNfm w) → t.phase = s.phase) ∧
    ((∀ w, i ≠ .mixMpx w) → t.pilot = s.pilot) ∧
    ((∀ w c, i ≠ .resamp w c ∧ i ≠ .pre50 w c ∧ i ≠ .pre75 w c) → t.buf = s.buf) ∧
    ((∀ w, i ≠ .mixMono w ∧ i ≠ .mixAvg w ∧ i ≠ .mixMpx w) → t.sig = s.sig) ∧
    ((∀ w, i ≠ .modWfm w ∧ i ≠ .modNfm w ∧ i ≠ .modAm w) → t.iq = s.iq) ∧
    ((∀ w, i ≠ .quant w) → t.outb = s.outb ∧ t.pend = s.pend ∧ t.pidx = s.pidx)

/-! ### HOST's accesses -/

/-- What a register write stores, by an aligned 32-bit access: `STATUS` clears exactly the sticky bits written as 1;
`CFG` takes the legalised word at any time; `CHUNK_N` and `CHUNK_RATE` the word and `CHUNK_CH` its bits 1:0 while
`BUSY = 0`, and are refused while `BUSY = 1`; a reserved offset below the window of `IN` ignores the write
(46_commands.md rule R240; 10_state.md rules R35 to R40). A misaligned access and one of another width are refused
(93_implementation_defined.md U8; log entry 23). In the window of `IN` the word at `0x10000 + 4 * (c * N_MAX + i)` is, in
a build, the load of sample `(c, i)` with the number the word encodes, a word above the window names no sample, and over
exact arithmetic, which has no word form, the write is refused (20_memory.md rule R69; log entry 16). -/
def Obligations.RegisterWritesStore : Prop :=
  ∀ (s : State) (v : Word32),
    regWrite 0x04 4 v s = .next { s with sticky := s.sticky &&& ~~~(v &&& 0x003F0100#32) } ∧
    regWrite 0x08 4 v s = .next { s with cfg := legalCfg v } ∧
    (s.busy = false →
      regWrite 0x0C 4 v s = .next { s with chunkN := v } ∧
      regWrite 0x10 4 v s = .next { s with chunkRate := v } ∧
      regWrite 0x14 4 v s = .next { s with chunkCh := v.extractLsb' 0 2 }) ∧
    (s.busy = true →
      regWrite 0x0C 4 v s = .refused .inputsFrozen ∧ regWrite 0x10 4 v s = .refused .inputsFrozen ∧
      regWrite 0x14 4 v s = .refused .inputsFrozen) ∧
    (∀ off, 0x18 ≤ off → off < 0x10000 → off % 4 = 0 → regWrite off 4 v s = .next s) ∧
    (∀ off bytes, off % 4 ≠ 0 ∨ bytes ≠ 4 → regWrite off bytes v s = .refused .badRegAccess) ∧
    (∀ (c : Chan) (i : Nat), s.env.par.num = .build → i < s.env.par.nMax →
      regWrite (0x10000 + 4 * (c.index * s.env.par.nMax + i)) 4 v s = sampleLoad c.index i (wordSample v) s) ∧
    (∀ off, s.env.par.num = .build → 1 ≤ s.env.par.nMax → 0x10000 + 8 * s.env.par.nMax ≤ off → off % 4 = 0 →
      regWrite off 4 v s = .refused .noSuchSample) ∧
    (∀ off, s.exactFormat → 0x10000 ≤ off → off % 4 = 0 → regWrite off 4 v s = .refused .sampleWindow)

/-- The fields `CFG` holds after a write of `v`: `GAIN` and `STEREO` as written, `MODE` and `TAU` as written but 3
stored as 0, the reserved bits 7:5 and 31:16 zero (10_state.md rule R36; 30_encoding.md rules R98, R99). -/
def Obligations.CfgTakesLegalValues : Prop :=
  ∀ v : Word32,
    cfgMode (legalCfg v) = (if cfgMode v = 3#2 then 0#2 else cfgMode v) ∧
    cfgTau (legalCfg v) = (if cfgTau v = 3#2 then 0#2 else cfgTau v) ∧
    cfgStereo (legalCfg v) = cfgStereo v ∧ cfgGain (legalCfg v) = cfgGain v ∧
    legalCfg v &&& 0xFFFF00E0#32 = 0#32

/-- What a register read answers, with no side effect: `CMD` and the reserved offsets read 0, `CFG`, `CHUNK_N`,
`CHUNK_RATE` and `CHUNK_CH` their value, `STATUS` its word (46_commands.md rule R241; 10_state.md rules R34 to R40); the
answer is kept in the state (log entry 11). A misaligned read and one of another width are refused
(93_implementation_defined.md U8; log entry 23), and so is a read in the window of `IN`, which HOST only writes
(20_memory.md rule R60; log entry 16). -/
def Obligations.RegisterReadsAnswer : Prop :=
  ∀ s : State,
    let answers := fun (off : Nat) (v : Word32) => regRead off 4 s = .next { s with env := { s.env with rdata := v } }
    answers 0x00 0#32 ∧ answers 0x04 (statusWord s) ∧ answers 0x08 s.cfg ∧ answers 0x0C s.chunkN ∧
    answers 0x10 s.chunkRate ∧ answers 0x14 (s.chunkCh.setWidth 32) ∧
    (∀ off, 0x18 ≤ off → off < 0x10000 → off % 4 = 0 → answers off 0#32) ∧
    (∀ off bytes, off % 4 ≠ 0 ∨ bytes ≠ 4 → regRead off bytes s = .refused .badRegAccess) ∧
    (∀ off, 0x10000 ≤ off → off % 4 = 0 → regRead off 4 s = .refused .sampleWindow)

/-- The fields of the status word: bit 0 is `BUSY`, bit 1 is 1 exactly when `COUNT = RING_C`, bit 2 exactly when
`COUNT = 0`, bit 8 and bits 16 to 21 are the sticky bits, and every other bit is 0 (10_state.md rule R35). -/
def Obligations.StatusWordFields : Prop :=
  ∀ (s : State) (n : Nat), n < 32 →
    (statusWord s).getLsbD n =
      (if n = 0 then s.busy
       else if n = 1 then decide (s.count = s.env.par.ringC)
       else if n = 2 then decide (s.count = 0)
       else if n = 8 ∨ (16 ≤ n ∧ n ≤ 21) then s.sticky.getLsbD n
       else false)

/-- A sample load stores `v` at `(c, i)` while `BUSY = 0` and no other sample changes; it is refused while `BUSY = 1`
(46_commands.md rule R242; 93_implementation_defined.md U7), where no such sample exists (20_memory.md rule R61; U3) and
where the value is not finite (U2). Which refusal it is where two of these hold is the model's choice (log entry 23). -/
def Obligations.SampleLoadsStore : Prop :=
  ∀ (s : State) (i : Nat) (v : RealNum),
    (∀ c : Chan, i < s.env.par.nMax → s.busy = false →
      ∃ t, sampleLoad c.index i (.finite v) s = .next t ∧ readIn t c i = v ∧
        (∀ d j, d ≠ c ∨ j ≠ i → readIn t d j = readIn s d j) ∧ t = { s with inp := t.inp }) ∧
    (∀ c : Chan, i < s.env.par.nMax → s.busy = true → sampleLoad c.index i (.finite v) s = .refused .inputsFrozen) ∧
    (∀ c : Nat, 1 < c ∨ s.env.par.nMax ≤ i → sampleLoad c i (.finite v) s = .refused .noSuchSample) ∧
    (∀ c : Chan, sampleLoad c.index i .notFinite s = .refused .notFinite)

/-! ### A whole chunk -/

/-- A chunk that has just been accepted, in a sound state whose ring has room for its `2 * LM` bytes
(`2 * LM ≤ (RING_C - COUNT) * RING_B - OFF`, 70_reset_and_hazards.md rule R313), completes within
`(5 or, with two channels, 7) + 2 * LM` moves of PRODUCER, in every number format, and what it has done to the ring is to
append exactly `2 * LM` bytes, each an integer in `-127 .. 127` (46_commands.md rules R235, R237, R245). -/
def Obligations.AChunkWithRoomCompletes : Prop :=
  ∀ s : State, s.sound → s.stage = some (.resamp .ch0) →
    2 * s.lm + s.off ≤ (s.env.par.ringC - s.count) * s.env.par.ringB →
    let n := (if s.lch = 2#2 then 7 else 5) + 2 * s.lm
    s.env.sched = List.replicate n .producer →
    ∃ (t : State) (bs : List IQByte), Sys2Proof.core.run n s = .next t ∧ t.busy = false ∧
      ringContents t = ringContents s ++ bs ∧ bs.length = 2 * s.lm ∧
      ∀ b ∈ bs, -127 ≤ b.toByte.toInt ∧ b.toByte.toInt ≤ 127
end

