-- ==== Sys2Proof/Laws/State.lean ====
section
/-! SUPPORT. Laws/State.lean: for each update of the state, what each field holds after it: one lemma for one field and
one update, each true by unfolding. -/

namespace Sys2Proof

@[simp] theorem Pair.get_set_same {α : Type} (p : Pair α) (c : Chan) (v : α) : (p.set c v).get c = v := by
  cases c <;> rfl

theorem Pair.get_set_other {α : Type} (p : Pair α) {c d : Chan} (h : d ≠ c) (v : α) : (p.set c v).get d = p.get d := by
  cases c <;> cases d <;> first | rfl | exact absurd rfl h

@[simp] theorem Pair.set_get_self {α : Type} (p : Pair α) (c : Chan) : p.set c (p.get c) = p := by
  cases c <;> rfl

namespace Machine

/-! ### `advance` -/

@[simp] theorem advance_hist (k : Slot) (s : State) : (advance k s).hist = s.hist := rfl
@[simp] theorem advance_fst (k : Slot) (s : State) : (advance k s).fst = s.fst := rfl
@[simp] theorem advance_phase (k : Slot) (s : State) : (advance k s).phase = s.phase := rfl
@[simp] theorem advance_pilot (k : Slot) (s : State) : (advance k s).pilot = s.pilot := rfl
@[simp] theorem advance_buf (k : Slot) (s : State) : (advance k s).buf = s.buf := rfl
@[simp] theorem advance_sig (k : Slot) (s : State) : (advance k s).sig = s.sig := rfl
@[simp] theorem advance_iq (k : Slot) (s : State) : (advance k s).iq = s.iq := rfl
@[simp] theorem advance_outb (k : Slot) (s : State) : (advance k s).outb = s.outb := rfl
@[simp] theorem advance_head (k : Slot) (s : State) : (advance k s).head = s.head := rfl
@[simp] theorem advance_tail (k : Slot) (s : State) : (advance k s).tail = s.tail := rfl
@[simp] theorem advance_count (k : Slot) (s : State) : (advance k s).count = s.count := rfl
@[simp] theorem advance_off (k : Slot) (s : State) : (advance k s).off = s.off := rfl
@[simp] theorem advance_ring (k : Slot) (s : State) : (advance k s).ring = s.ring := rfl
@[simp] theorem advance_inp (k : Slot) (s : State) : (advance k s).inp = s.inp := rfl
@[simp] theorem advance_lcfg (k : Slot) (s : State) : (advance k s).lcfg = s.lcfg := rfl
@[simp] theorem advance_ln (k : Slot) (s : State) : (advance k s).ln = s.ln := rfl
@[simp] theorem advance_ls (k : Slot) (s : State) : (advance k s).ls = s.ls := rfl
@[simp] theorem advance_lch (k : Slot) (s : State) : (advance k s).lch = s.lch := rfl
@[simp] theorem advance_lm (k : Slot) (s : State) : (advance k s).lm = s.lm := rfl
@[simp] theorem advance_pend (k : Slot) (s : State) : (advance k s).pend = s.pend := rfl
@[simp] theorem advance_pidx (k : Slot) (s : State) : (advance k s).pidx = s.pidx := rfl
@[simp] theorem advance_busy (k : Slot) (s : State) : (advance k s).busy = s.busy := rfl
@[simp] theorem advance_stage (k : Slot) (s : State) : (advance k s).stage = some (nextSlot s.stereoChunk k) := rfl
@[simp] theorem advance_sticky (k : Slot) (s : State) : (advance k s).sticky = s.sticky := rfl
@[simp] theorem advance_cfg (k : Slot) (s : State) : (advance k s).cfg = s.cfg := rfl
@[simp] theorem advance_chunkN (k : Slot) (s : State) : (advance k s).chunkN = s.chunkN := rfl
@[simp] theorem advance_chunkRate (k : Slot) (s : State) : (advance k s).chunkRate = s.chunkRate := rfl
@[simp] theorem advance_chunkCh (k : Slot) (s : State) : (advance k s).chunkCh = s.chunkCh := rfl
@[simp] theorem advance_env (k : Slot) (s : State) : (advance k s).env = s.env := rfl

/-! ### `raiseFault` -/

@[simp] theorem raiseFault_hist (f : FaultCode) (s : State) : (raiseFault f s).hist = s.hist := rfl
@[simp] theorem raiseFault_fst (f : FaultCode) (s : State) : (raiseFault f s).fst = s.fst := rfl
@[simp] theorem raiseFault_phase (f : FaultCode) (s : State) : (raiseFault f s).phase = s.phase := rfl
@[simp] theorem raiseFault_pilot (f : FaultCode) (s : State) : (raiseFault f s).pilot = s.pilot := rfl
@[simp] theorem raiseFault_buf (f : FaultCode) (s : State) : (raiseFault f s).buf = s.buf := rfl
@[simp] theorem raiseFault_sig (f : FaultCode) (s : State) : (raiseFault f s).sig = s.sig := rfl
@[simp] theorem raiseFault_iq (f : FaultCode) (s : State) : (raiseFault f s).iq = s.iq := rfl
@[simp] theorem raiseFault_outb (f : FaultCode) (s : State) : (raiseFault f s).outb = s.outb := rfl
@[simp] theorem raiseFault_head (f : FaultCode) (s : State) : (raiseFault f s).head = s.head := rfl
@[simp] theorem raiseFault_tail (f : FaultCode) (s : State) : (raiseFault f s).tail = s.tail := rfl
@[simp] theorem raiseFault_count (f : FaultCode) (s : State) : (raiseFault f s).count = s.count := rfl
@[simp] theorem raiseFault_off (f : FaultCode) (s : State) : (raiseFault f s).off = s.off := rfl
@[simp] theorem raiseFault_ring (f : FaultCode) (s : State) : (raiseFault f s).ring = s.ring := rfl
@[simp] theorem raiseFault_inp (f : FaultCode) (s : State) : (raiseFault f s).inp = s.inp := rfl
@[simp] theorem raiseFault_lcfg (f : FaultCode) (s : State) : (raiseFault f s).lcfg = s.lcfg := rfl
@[simp] theorem raiseFault_ln (f : FaultCode) (s : State) : (raiseFault f s).ln = s.ln := rfl
@[simp] theorem raiseFault_ls (f : FaultCode) (s : State) : (raiseFault f s).ls = s.ls := rfl
@[simp] theorem raiseFault_lch (f : FaultCode) (s : State) : (raiseFault f s).lch = s.lch := rfl
@[simp] theorem raiseFault_lm (f : FaultCode) (s : State) : (raiseFault f s).lm = s.lm := rfl
@[simp] theorem raiseFault_pend (f : FaultCode) (s : State) : (raiseFault f s).pend = s.pend := rfl
@[simp] theorem raiseFault_pidx (f : FaultCode) (s : State) : (raiseFault f s).pidx = s.pidx := rfl
@[simp] theorem raiseFault_busy (f : FaultCode) (s : State) : (raiseFault f s).busy = s.busy := rfl
@[simp] theorem raiseFault_stage (f : FaultCode) (s : State) : (raiseFault f s).stage = s.stage := rfl
@[simp] theorem raiseFault_sticky (f : FaultCode) (s : State) : (raiseFault f s).sticky = s.sticky ||| faultBit f := rfl
@[simp] theorem raiseFault_cfg (f : FaultCode) (s : State) : (raiseFault f s).cfg = s.cfg := rfl
@[simp] theorem raiseFault_chunkN (f : FaultCode) (s : State) : (raiseFault f s).chunkN = s.chunkN := rfl
@[simp] theorem raiseFault_chunkRate (f : FaultCode) (s : State) : (raiseFault f s).chunkRate = s.chunkRate := rfl
@[simp] theorem raiseFault_chunkCh (f : FaultCode) (s : State) : (raiseFault f s).chunkCh = s.chunkCh := rfl
@[simp] theorem raiseFault_env (f : FaultCode) (s : State) : (raiseFault f s).env = s.env := rfl

/-! ### `acknowledge` -/

@[simp] theorem acknowledge_hist (v : Word32) (s : State) : (acknowledge v s).hist = s.hist := rfl
@[simp] theorem acknowledge_fst (v : Word32) (s : State) : (acknowledge v s).fst = s.fst := rfl
@[simp] theorem acknowledge_phase (v : Word32) (s : State) : (acknowledge v s).phase = s.phase := rfl
@[simp] theorem acknowledge_pilot (v : Word32) (s : State) : (acknowledge v s).pilot = s.pilot := rfl
@[simp] theorem acknowledge_buf (v : Word32) (s : State) : (acknowledge v s).buf = s.buf := rfl
@[simp] theorem acknowledge_sig (v : Word32) (s : State) : (acknowledge v s).sig = s.sig := rfl
@[simp] theorem acknowledge_iq (v : Word32) (s : State) : (acknowledge v s).iq = s.iq := rfl
@[simp] theorem acknowledge_outb (v : Word32) (s : State) : (acknowledge v s).outb = s.outb := rfl
@[simp] theorem acknowledge_head (v : Word32) (s : State) : (acknowledge v s).head = s.head := rfl
@[simp] theorem acknowledge_tail (v : Word32) (s : State) : (acknowledge v s).tail = s.tail := rfl
@[simp] theorem acknowledge_count (v : Word32) (s : State) : (acknowledge v s).count = s.count := rfl
@[simp] theorem acknowledge_off (v : Word32) (s : State) : (acknowledge v s).off = s.off := rfl
@[simp] theorem acknowledge_ring (v : Word32) (s : State) : (acknowledge v s).ring = s.ring := rfl
@[simp] theorem acknowledge_inp (v : Word32) (s : State) : (acknowledge v s).inp = s.inp := rfl
@[simp] theorem acknowledge_lcfg (v : Word32) (s : State) : (acknowledge v s).lcfg = s.lcfg := rfl
@[simp] theorem acknowledge_ln (v : Word32) (s : State) : (acknowledge v s).ln = s.ln := rfl
@[simp] theorem acknowledge_ls (v : Word32) (s : State) : (acknowledge v s).ls = s.ls := rfl
@[simp] theorem acknowledge_lch (v : Word32) (s : State) : (acknowledge v s).lch = s.lch := rfl
@[simp] theorem acknowledge_lm (v : Word32) (s : State) : (acknowledge v s).lm = s.lm := rfl
@[simp] theorem acknowledge_pend (v : Word32) (s : State) : (acknowledge v s).pend = s.pend := rfl
@[simp] theorem acknowledge_pidx (v : Word32) (s : State) : (acknowledge v s).pidx = s.pidx := rfl
@[simp] theorem acknowledge_busy (v : Word32) (s : State) : (acknowledge v s).busy = s.busy := rfl
@[simp] theorem acknowledge_stage (v : Word32) (s : State) : (acknowledge v s).stage = s.stage := rfl
@[simp] theorem acknowledge_sticky (v : Word32) (s : State) : (acknowledge v s).sticky = clearSticky v s.sticky := rfl
@[simp] theorem acknowledge_cfg (v : Word32) (s : State) : (acknowledge v s).cfg = s.cfg := rfl
@[simp] theorem acknowledge_chunkN (v : Word32) (s : State) : (acknowledge v s).chunkN = s.chunkN := rfl
@[simp] theorem acknowledge_chunkRate (v : Word32) (s : State) : (acknowledge v s).chunkRate = s.chunkRate := rfl
@[simp] theorem acknowledge_chunkCh (v : Word32) (s : State) : (acknowledge v s).chunkCh = s.chunkCh := rfl
@[simp] theorem acknowledge_env (v : Word32) (s : State) : (acknowledge v s).env = s.env := rfl

/-! ### `writeRing` -/

@[simp] theorem writeRing_hist (b k : Nat) (v : IQByte) (s : State) : (writeRing b k v s).hist = s.hist := rfl
@[simp] theorem writeRing_fst (b k : Nat) (v : IQByte) (s : State) : (writeRing b k v s).fst = s.fst := rfl
@[simp] theorem writeRing_phase (b k : Nat) (v : IQByte) (s : State) : (writeRing b k v s).phase = s.phase := rfl
@[simp] theorem writeRing_pilot (b k : Nat) (v : IQByte) (s : State) : (writeRing b k v s).pilot = s.pilot := rfl
@[simp] theorem writeRing_buf (b k : Nat) (v : IQByte) (s : State) : (writeRing b k v s).buf = s.buf := rfl
@[simp] theorem writeRing_sig (b k : Nat) (v : IQByte) (s : State) : (writeRing b k v s).sig = s.sig := rfl
@[simp] theorem writeRing_iq (b k : Nat) (v : IQByte) (s : State) : (writeRing b k v s).iq = s.iq := rfl
@[simp] theorem writeRing_outb (b k : Nat) (v : IQByte) (s : State) : (writeRing b k v s).outb = s.outb := rfl
@[simp] theorem writeRing_head (b k : Nat) (v : IQByte) (s : State) : (writeRing b k v s).head = s.head := rfl
@[simp] theorem writeRing_tail (b k : Nat) (v : IQByte) (s : State) : (writeRing b k v s).tail = s.tail := rfl
@[simp] theorem writeRing_count (b k : Nat) (v : IQByte) (s : State) : (writeRing b k v s).count = s.count := rfl
@[simp] theorem writeRing_off (b k : Nat) (v : IQByte) (s : State) : (writeRing b k v s).off = s.off := rfl
@[simp] theorem writeRing_ring (b k : Nat) (v : IQByte) (s : State) : (writeRing b k v s).ring = Memory.write s.ring (ringIndex s b k) v := rfl
@[simp] theorem writeRing_inp (b k : Nat) (v : IQByte) (s : State) : (writeRing b k v s).inp = s.inp := rfl
@[simp] theorem writeRing_lcfg (b k : Nat) (v : IQByte) (s : State) : (writeRing b k v s).lcfg = s.lcfg := rfl
@[simp] theorem writeRing_ln (b k : Nat) (v : IQByte) (s : State) : (writeRing b k v s).ln = s.ln := rfl
@[simp] theorem writeRing_ls (b k : Nat) (v : IQByte) (s : State) : (writeRing b k v s).ls = s.ls := rfl
@[simp] theorem writeRing_lch (b k : Nat) (v : IQByte) (s : State) : (writeRing b k v s).lch = s.lch := rfl
@[simp] theorem writeRing_lm (b k : Nat) (v : IQByte) (s : State) : (writeRing b k v s).lm = s.lm := rfl
@[simp] theorem writeRing_pend (b k : Nat) (v : IQByte) (s : State) : (writeRing b k v s).pend = s.pend := rfl
@[simp] theorem writeRing_pidx (b k : Nat) (v : IQByte) (s : State) : (writeRing b k v s).pidx = s.pidx := rfl
@[simp] theorem writeRing_busy (b k : Nat) (v : IQByte) (s : State) : (writeRing b k v s).busy = s.busy := rfl
@[simp] theorem writeRing_stage (b k : Nat) (v : IQByte) (s : State) : (writeRing b k v s).stage = s.stage := rfl
@[simp] theorem writeRing_sticky (b k : Nat) (v : IQByte) (s : State) : (writeRing b k v s).sticky = s.sticky := rfl
@[simp] theorem writeRing_cfg (b k : Nat) (v : IQByte) (s : State) : (writeRing b k v s).cfg = s.cfg := rfl
@[simp] theorem writeRing_chunkN (b k : Nat) (v : IQByte) (s : State) : (writeRing b k v s).chunkN = s.chunkN := rfl
@[simp] theorem writeRing_chunkRate (b k : Nat) (v : IQByte) (s : State) : (writeRing b k v s).chunkRate = s.chunkRate := rfl
@[simp] theorem writeRing_chunkCh (b k : Nat) (v : IQByte) (s : State) : (writeRing b k v s).chunkCh = s.chunkCh := rfl
@[simp] theorem writeRing_env (b k : Nat) (v : IQByte) (s : State) : (writeRing b k v s).env = s.env := rfl

/-! ### `writeIn` -/

@[simp] theorem writeIn_hist (c : Chan) (i : Nat) (v : RealNum) (s : State) : (writeIn c i v s).hist = s.hist := rfl
@[simp] theorem writeIn_fst (c : Chan) (i : Nat) (v : RealNum) (s : State) : (writeIn c i v s).fst = s.fst := rfl
@[simp] theorem writeIn_phase (c : Chan) (i : Nat) (v : RealNum) (s : State) : (writeIn c i v s).phase = s.phase := rfl
@[simp] theorem writeIn_pilot (c : Chan) (i : Nat) (v : RealNum) (s : State) : (writeIn c i v s).pilot = s.pilot := rfl
@[simp] theorem writeIn_buf (c : Chan) (i : Nat) (v : RealNum) (s : State) : (writeIn c i v s).buf = s.buf := rfl
@[simp] theorem writeIn_sig (c : Chan) (i : Nat) (v : RealNum) (s : State) : (writeIn c i v s).sig = s.sig := rfl
@[simp] theorem writeIn_iq (c : Chan) (i : Nat) (v : RealNum) (s : State) : (writeIn c i v s).iq = s.iq := rfl
@[simp] theorem writeIn_outb (c : Chan) (i : Nat) (v : RealNum) (s : State) : (writeIn c i v s).outb = s.outb := rfl
@[simp] theorem writeIn_head (c : Chan) (i : Nat) (v : RealNum) (s : State) : (writeIn c i v s).head = s.head := rfl
@[simp] theorem writeIn_tail (c : Chan) (i : Nat) (v : RealNum) (s : State) : (writeIn c i v s).tail = s.tail := rfl
@[simp] theorem writeIn_count (c : Chan) (i : Nat) (v : RealNum) (s : State) : (writeIn c i v s).count = s.count := rfl
@[simp] theorem writeIn_off (c : Chan) (i : Nat) (v : RealNum) (s : State) : (writeIn c i v s).off = s.off := rfl
@[simp] theorem writeIn_ring (c : Chan) (i : Nat) (v : RealNum) (s : State) : (writeIn c i v s).ring = s.ring := rfl
@[simp] theorem writeIn_inp (c : Chan) (i : Nat) (v : RealNum) (s : State) : (writeIn c i v s).inp = s.inp.set c (Memory.write (s.inp.get c) i v) := rfl
@[simp] theorem writeIn_lcfg (c : Chan) (i : Nat) (v : RealNum) (s : State) : (writeIn c i v s).lcfg = s.lcfg := rfl
@[simp] theorem writeIn_ln (c : Chan) (i : Nat) (v : RealNum) (s : State) : (writeIn c i v s).ln = s.ln := rfl
@[simp] theorem writeIn_ls (c : Chan) (i : Nat) (v : RealNum) (s : State) : (writeIn c i v s).ls = s.ls := rfl
@[simp] theorem writeIn_lch (c : Chan) (i : Nat) (v : RealNum) (s : State) : (writeIn c i v s).lch = s.lch := rfl
@[simp] theorem writeIn_lm (c : Chan) (i : Nat) (v : RealNum) (s : State) : (writeIn c i v s).lm = s.lm := rfl
@[simp] theorem writeIn_pend (c : Chan) (i : Nat) (v : RealNum) (s : State) : (writeIn c i v s).pend = s.pend := rfl
@[simp] theorem writeIn_pidx (c : Chan) (i : Nat) (v : RealNum) (s : State) : (writeIn c i v s).pidx = s.pidx := rfl
@[simp] theorem writeIn_busy (c : Chan) (i : Nat) (v : RealNum) (s : State) : (writeIn c i v s).busy = s.busy := rfl
@[simp] theorem writeIn_stage (c : Chan) (i : Nat) (v : RealNum) (s : State) : (writeIn c i v s).stage = s.stage := rfl
@[simp] theorem writeIn_sticky (c : Chan) (i : Nat) (v : RealNum) (s : State) : (writeIn c i v s).sticky = s.sticky := rfl
@[simp] theorem writeIn_cfg (c : Chan) (i : Nat) (v : RealNum) (s : State) : (writeIn c i v s).cfg = s.cfg := rfl
@[simp] theorem writeIn_chunkN (c : Chan) (i : Nat) (v : RealNum) (s : State) : (writeIn c i v s).chunkN = s.chunkN := rfl
@[simp] theorem writeIn_chunkRate (c : Chan) (i : Nat) (v : RealNum) (s : State) : (writeIn c i v s).chunkRate = s.chunkRate := rfl
@[simp] theorem writeIn_chunkCh (c : Chan) (i : Nat) (v : RealNum) (s : State) : (writeIn c i v s).chunkCh = s.chunkCh := rfl
@[simp] theorem writeIn_env (c : Chan) (i : Nat) (v : RealNum) (s : State) : (writeIn c i v s).env = s.env := rfl

/-! ### `latchChunk` -/

@[simp] theorem latchChunk_hist (s : State) : (latchChunk s).hist = s.hist := rfl
@[simp] theorem latchChunk_fst (s : State) : (latchChunk s).fst = s.fst := rfl
@[simp] theorem latchChunk_phase (s : State) : (latchChunk s).phase = s.phase := rfl
@[simp] theorem latchChunk_pilot (s : State) : (latchChunk s).pilot = s.pilot := rfl
@[simp] theorem latchChunk_buf (s : State) : (latchChunk s).buf = s.buf := rfl
@[simp] theorem latchChunk_sig (s : State) : (latchChunk s).sig = s.sig := rfl
@[simp] theorem latchChunk_iq (s : State) : (latchChunk s).iq = s.iq := rfl
@[simp] theorem latchChunk_outb (s : State) : (latchChunk s).outb = s.outb := rfl
@[simp] theorem latchChunk_head (s : State) : (latchChunk s).head = s.head := rfl
@[simp] theorem latchChunk_tail (s : State) : (latchChunk s).tail = s.tail := rfl
@[simp] theorem latchChunk_count (s : State) : (latchChunk s).count = s.count := rfl
@[simp] theorem latchChunk_off (s : State) : (latchChunk s).off = s.off := rfl
@[simp] theorem latchChunk_ring (s : State) : (latchChunk s).ring = s.ring := rfl
@[simp] theorem latchChunk_inp (s : State) : (latchChunk s).inp = s.inp := rfl
@[simp] theorem latchChunk_lcfg (s : State) : (latchChunk s).lcfg = s.cfg := rfl
@[simp] theorem latchChunk_ln (s : State) : (latchChunk s).ln = s.chunkN := rfl
@[simp] theorem latchChunk_ls (s : State) : (latchChunk s).ls = s.chunkRate := rfl
@[simp] theorem latchChunk_lch (s : State) : (latchChunk s).lch = s.chunkCh := rfl
@[simp] theorem latchChunk_lm (s : State) : (latchChunk s).lm = outCount s.chunkN.toNat s.rate s.chunkRate.toNat := rfl
@[simp] theorem latchChunk_pend (s : State) : (latchChunk s).pend = s.pend := rfl
@[simp] theorem latchChunk_pidx (s : State) : (latchChunk s).pidx = s.pidx := rfl
@[simp] theorem latchChunk_busy (s : State) : (latchChunk s).busy = true := rfl
@[simp] theorem latchChunk_stage (s : State) : (latchChunk s).stage = some (.resamp .ch0) := rfl
@[simp] theorem latchChunk_sticky (s : State) : (latchChunk s).sticky = s.sticky := rfl
@[simp] theorem latchChunk_cfg (s : State) : (latchChunk s).cfg = s.cfg := rfl
@[simp] theorem latchChunk_chunkN (s : State) : (latchChunk s).chunkN = s.chunkN := rfl
@[simp] theorem latchChunk_chunkRate (s : State) : (latchChunk s).chunkRate = s.chunkRate := rfl
@[simp] theorem latchChunk_chunkCh (s : State) : (latchChunk s).chunkCh = s.chunkCh := rfl
@[simp] theorem latchChunk_env (s : State) : (latchChunk s).env = s.env := rfl

/-! ### `finishChunk` -/

@[simp] theorem finishChunk_hist (s : State) : (finishChunk s).hist = s.hist := rfl
@[simp] theorem finishChunk_fst (s : State) : (finishChunk s).fst = s.fst := rfl
@[simp] theorem finishChunk_phase (s : State) : (finishChunk s).phase = s.phase := rfl
@[simp] theorem finishChunk_pilot (s : State) : (finishChunk s).pilot = s.pilot := rfl
@[simp] theorem finishChunk_buf (s : State) : (finishChunk s).buf = ⟨[], []⟩ := rfl
@[simp] theorem finishChunk_sig (s : State) : (finishChunk s).sig = [] := rfl
@[simp] theorem finishChunk_iq (s : State) : (finishChunk s).iq = [] := rfl
@[simp] theorem finishChunk_outb (s : State) : (finishChunk s).outb = [] := rfl
@[simp] theorem finishChunk_head (s : State) : (finishChunk s).head = s.head := rfl
@[simp] theorem finishChunk_tail (s : State) : (finishChunk s).tail = s.tail := rfl
@[simp] theorem finishChunk_count (s : State) : (finishChunk s).count = s.count := rfl
@[simp] theorem finishChunk_off (s : State) : (finishChunk s).off = s.off := rfl
@[simp] theorem finishChunk_ring (s : State) : (finishChunk s).ring = s.ring := rfl
@[simp] theorem finishChunk_inp (s : State) : (finishChunk s).inp = s.inp := rfl
@[simp] theorem finishChunk_lcfg (s : State) : (finishChunk s).lcfg = s.lcfg := rfl
@[simp] theorem finishChunk_ln (s : State) : (finishChunk s).ln = s.ln := rfl
@[simp] theorem finishChunk_ls (s : State) : (finishChunk s).ls = s.ls := rfl
@[simp] theorem finishChunk_lch (s : State) : (finishChunk s).lch = s.lch := rfl
@[simp] theorem finishChunk_lm (s : State) : (finishChunk s).lm = s.lm := rfl
@[simp] theorem finishChunk_pend (s : State) : (finishChunk s).pend = s.pend := rfl
@[simp] theorem finishChunk_pidx (s : State) : (finishChunk s).pidx = s.pidx := rfl
@[simp] theorem finishChunk_busy (s : State) : (finishChunk s).busy = false := rfl
@[simp] theorem finishChunk_stage (s : State) : (finishChunk s).stage = none := rfl
@[simp] theorem finishChunk_sticky (s : State) : (finishChunk s).sticky = s.sticky := rfl
@[simp] theorem finishChunk_cfg (s : State) : (finishChunk s).cfg = s.cfg := rfl
@[simp] theorem finishChunk_chunkN (s : State) : (finishChunk s).chunkN = s.chunkN := rfl
@[simp] theorem finishChunk_chunkRate (s : State) : (finishChunk s).chunkRate = s.chunkRate := rfl
@[simp] theorem finishChunk_chunkCh (s : State) : (finishChunk s).chunkCh = s.chunkCh := rfl
@[simp] theorem finishChunk_env (s : State) : (finishChunk s).env = s.env := rfl

/-! ### `publish` -/

@[simp] theorem publish_hist (s : State) : (publish s).hist = s.hist := rfl
@[simp] theorem publish_fst (s : State) : (publish s).fst = s.fst := rfl
@[simp] theorem publish_phase (s : State) : (publish s).phase = s.phase := rfl
@[simp] theorem publish_pilot (s : State) : (publish s).pilot = s.pilot := rfl
@[simp] theorem publish_buf (s : State) : (publish s).buf = s.buf := rfl
@[simp] theorem publish_sig (s : State) : (publish s).sig = s.sig := rfl
@[simp] theorem publish_iq (s : State) : (publish s).iq = s.iq := rfl
@[simp] theorem publish_outb (s : State) : (publish s).outb = s.outb := rfl
@[simp] theorem publish_head (s : State) : (publish s).head = (s.head + 1) % s.env.par.ringC := rfl
@[simp] theorem publish_tail (s : State) : (publish s).tail = s.tail := rfl
@[simp] theorem publish_count (s : State) : (publish s).count = s.count + 1 := rfl
@[simp] theorem publish_off (s : State) : (publish s).off = 0 := rfl
@[simp] theorem publish_ring (s : State) : (publish s).ring = s.ring := rfl
@[simp] theorem publish_inp (s : State) : (publish s).inp = s.inp := rfl
@[simp] theorem publish_lcfg (s : State) : (publish s).lcfg = s.lcfg := rfl
@[simp] theorem publish_ln (s : State) : (publish s).ln = s.ln := rfl
@[simp] theorem publish_ls (s : State) : (publish s).ls = s.ls := rfl
@[simp] theorem publish_lch (s : State) : (publish s).lch = s.lch := rfl
@[simp] theorem publish_lm (s : State) : (publish s).lm = s.lm := rfl
@[simp] theorem publish_pend (s : State) : (publish s).pend = s.pend := rfl
@[simp] theorem publish_pidx (s : State) : (publish s).pidx = s.pidx := rfl
@[simp] theorem publish_busy (s : State) : (publish s).busy = s.busy := rfl
@[simp] theorem publish_stage (s : State) : (publish s).stage = s.stage := rfl
@[simp] theorem publish_sticky (s : State) : (publish s).sticky = s.sticky := rfl
@[simp] theorem publish_cfg (s : State) : (publish s).cfg = s.cfg := rfl
@[simp] theorem publish_chunkN (s : State) : (publish s).chunkN = s.chunkN := rfl
@[simp] theorem publish_chunkRate (s : State) : (publish s).chunkRate = s.chunkRate := rfl
@[simp] theorem publish_chunkCh (s : State) : (publish s).chunkCh = s.chunkCh := rfl
@[simp] theorem publish_env (s : State) : (publish s).env = s.env := rfl

/-! ### `claim` -/

@[simp] theorem claim_hist (s : State) : (claim s).hist = s.hist := rfl
@[simp] theorem claim_fst (s : State) : (claim s).fst = s.fst := rfl
@[simp] theorem claim_phase (s : State) : (claim s).phase = s.phase := rfl
@[simp] theorem claim_pilot (s : State) : (claim s).pilot = s.pilot := rfl
@[simp] theorem claim_buf (s : State) : (claim s).buf = s.buf := rfl
@[simp] theorem claim_sig (s : State) : (claim s).sig = s.sig := rfl
@[simp] theorem claim_iq (s : State) : (claim s).iq = s.iq := rfl
@[simp] theorem claim_outb (s : State) : (claim s).outb = s.outb := rfl
@[simp] theorem claim_head (s : State) : (claim s).head = s.head := rfl
@[simp] theorem claim_tail (s : State) : (claim s).tail = (s.tail + 1) % s.env.par.ringC := rfl
@[simp] theorem claim_count (s : State) : (claim s).count = s.count - 1 := rfl
@[simp] theorem claim_off (s : State) : (claim s).off = s.off := rfl
@[simp] theorem claim_ring (s : State) : (claim s).ring = s.ring := rfl
@[simp] theorem claim_inp (s : State) : (claim s).inp = s.inp := rfl
@[simp] theorem claim_lcfg (s : State) : (claim s).lcfg = s.lcfg := rfl
@[simp] theorem claim_ln (s : State) : (claim s).ln = s.ln := rfl
@[simp] theorem claim_ls (s : State) : (claim s).ls = s.ls := rfl
@[simp] theorem claim_lch (s : State) : (claim s).lch = s.lch := rfl
@[simp] theorem claim_lm (s : State) : (claim s).lm = s.lm := rfl
@[simp] theorem claim_pend (s : State) : (claim s).pend = s.pend := rfl
@[simp] theorem claim_pidx (s : State) : (claim s).pidx = s.pidx := rfl
@[simp] theorem claim_busy (s : State) : (claim s).busy = s.busy := rfl
@[simp] theorem claim_stage (s : State) : (claim s).stage = s.stage := rfl
@[simp] theorem claim_sticky (s : State) : (claim s).sticky = s.sticky := rfl
@[simp] theorem claim_cfg (s : State) : (claim s).cfg = s.cfg := rfl
@[simp] theorem claim_chunkN (s : State) : (claim s).chunkN = s.chunkN := rfl
@[simp] theorem claim_chunkRate (s : State) : (claim s).chunkRate = s.chunkRate := rfl
@[simp] theorem claim_chunkCh (s : State) : (claim s).chunkCh = s.chunkCh := rfl
@[simp] theorem claim_env (s : State) : (claim s).env = s.env := rfl

/-! ### `answer` -/

@[simp] theorem answer_hist (bs : List IQByte) (s : State) : (answer bs s).hist = s.hist := rfl
@[simp] theorem answer_fst (bs : List IQByte) (s : State) : (answer bs s).fst = s.fst := rfl
@[simp] theorem answer_phase (bs : List IQByte) (s : State) : (answer bs s).phase = s.phase := rfl
@[simp] theorem answer_pilot (bs : List IQByte) (s : State) : (answer bs s).pilot = s.pilot := rfl
@[simp] theorem answer_buf (bs : List IQByte) (s : State) : (answer bs s).buf = s.buf := rfl
@[simp] theorem answer_sig (bs : List IQByte) (s : State) : (answer bs s).sig = s.sig := rfl
@[simp] theorem answer_iq (bs : List IQByte) (s : State) : (answer bs s).iq = s.iq := rfl
@[simp] theorem answer_outb (bs : List IQByte) (s : State) : (answer bs s).outb = s.outb := rfl
@[simp] theorem answer_head (bs : List IQByte) (s : State) : (answer bs s).head = s.head := rfl
@[simp] theorem answer_tail (bs : List IQByte) (s : State) : (answer bs s).tail = s.tail := rfl
@[simp] theorem answer_count (bs : List IQByte) (s : State) : (answer bs s).count = s.count := rfl
@[simp] theorem answer_off (bs : List IQByte) (s : State) : (answer bs s).off = s.off := rfl
@[simp] theorem answer_ring (bs : List IQByte) (s : State) : (answer bs s).ring = s.ring := rfl
@[simp] theorem answer_inp (bs : List IQByte) (s : State) : (answer bs s).inp = s.inp := rfl
@[simp] theorem answer_lcfg (bs : List IQByte) (s : State) : (answer bs s).lcfg = s.lcfg := rfl
@[simp] theorem answer_ln (bs : List IQByte) (s : State) : (answer bs s).ln = s.ln := rfl
@[simp] theorem answer_ls (bs : List IQByte) (s : State) : (answer bs s).ls = s.ls := rfl
@[simp] theorem answer_lch (bs : List IQByte) (s : State) : (answer bs s).lch = s.lch := rfl
@[simp] theorem answer_lm (bs : List IQByte) (s : State) : (answer bs s).lm = s.lm := rfl
@[simp] theorem answer_pend (bs : List IQByte) (s : State) : (answer bs s).pend = s.pend := rfl
@[simp] theorem answer_pidx (bs : List IQByte) (s : State) : (answer bs s).pidx = s.pidx := rfl
@[simp] theorem answer_busy (bs : List IQByte) (s : State) : (answer bs s).busy = s.busy := rfl
@[simp] theorem answer_stage (bs : List IQByte) (s : State) : (answer bs s).stage = s.stage := rfl
@[simp] theorem answer_sticky (bs : List IQByte) (s : State) : (answer bs s).sticky = s.sticky := rfl
@[simp] theorem answer_cfg (bs : List IQByte) (s : State) : (answer bs s).cfg = s.cfg := rfl
@[simp] theorem answer_chunkN (bs : List IQByte) (s : State) : (answer bs s).chunkN = s.chunkN := rfl
@[simp] theorem answer_chunkRate (bs : List IQByte) (s : State) : (answer bs s).chunkRate = s.chunkRate := rfl
@[simp] theorem answer_chunkCh (bs : List IQByte) (s : State) : (answer bs s).chunkCh = s.chunkCh := rfl
@[simp] theorem answer_env (bs : List IQByte) (s : State) : (answer bs s).env = { s.env with txBytes := bs, txRc := 0 } := rfl

/-! ### `handOver` -/

@[simp] theorem handOver_hist (bs : List IQByte) (s : State) : (handOver bs s).hist = s.hist := rfl
@[simp] theorem handOver_fst (bs : List IQByte) (s : State) : (handOver bs s).fst = s.fst := rfl
@[simp] theorem handOver_phase (bs : List IQByte) (s : State) : (handOver bs s).phase = s.phase := rfl
@[simp] theorem handOver_pilot (bs : List IQByte) (s : State) : (handOver bs s).pilot = s.pilot := rfl
@[simp] theorem handOver_buf (bs : List IQByte) (s : State) : (handOver bs s).buf = s.buf := rfl
@[simp] theorem handOver_sig (bs : List IQByte) (s : State) : (handOver bs s).sig = s.sig := rfl
@[simp] theorem handOver_iq (bs : List IQByte) (s : State) : (handOver bs s).iq = s.iq := rfl
@[simp] theorem handOver_outb (bs : List IQByte) (s : State) : (handOver bs s).outb = bs := rfl
@[simp] theorem handOver_head (bs : List IQByte) (s : State) : (handOver bs s).head = s.head := rfl
@[simp] theorem handOver_tail (bs : List IQByte) (s : State) : (handOver bs s).tail = s.tail := rfl
@[simp] theorem handOver_count (bs : List IQByte) (s : State) : (handOver bs s).count = s.count := rfl
@[simp] theorem handOver_off (bs : List IQByte) (s : State) : (handOver bs s).off = s.off := rfl
@[simp] theorem handOver_ring (bs : List IQByte) (s : State) : (handOver bs s).ring = s.ring := rfl
@[simp] theorem handOver_inp (bs : List IQByte) (s : State) : (handOver bs s).inp = s.inp := rfl
@[simp] theorem handOver_lcfg (bs : List IQByte) (s : State) : (handOver bs s).lcfg = s.lcfg := rfl
@[simp] theorem handOver_ln (bs : List IQByte) (s : State) : (handOver bs s).ln = s.ln := rfl
@[simp] theorem handOver_ls (bs : List IQByte) (s : State) : (handOver bs s).ls = s.ls := rfl
@[simp] theorem handOver_lch (bs : List IQByte) (s : State) : (handOver bs s).lch = s.lch := rfl
@[simp] theorem handOver_lm (bs : List IQByte) (s : State) : (handOver bs s).lm = s.lm := rfl
@[simp] theorem handOver_pend (bs : List IQByte) (s : State) : (handOver bs s).pend = bs := rfl
@[simp] theorem handOver_pidx (bs : List IQByte) (s : State) : (handOver bs s).pidx = 0 := rfl
@[simp] theorem handOver_busy (bs : List IQByte) (s : State) : (handOver bs s).busy = s.busy := rfl
@[simp] theorem handOver_stage (bs : List IQByte) (s : State) : (handOver bs s).stage = s.stage := rfl
@[simp] theorem handOver_sticky (bs : List IQByte) (s : State) : (handOver bs s).sticky = s.sticky := rfl
@[simp] theorem handOver_cfg (bs : List IQByte) (s : State) : (handOver bs s).cfg = s.cfg := rfl
@[simp] theorem handOver_chunkN (bs : List IQByte) (s : State) : (handOver bs s).chunkN = s.chunkN := rfl
@[simp] theorem handOver_chunkRate (bs : List IQByte) (s : State) : (handOver bs s).chunkRate = s.chunkRate := rfl
@[simp] theorem handOver_chunkCh (bs : List IQByte) (s : State) : (handOver bs s).chunkCh = s.chunkCh := rfl
@[simp] theorem handOver_env (bs : List IQByte) (s : State) : (handOver bs s).env = s.env := rfl

/-! ### `popTurn` -/

@[simp] theorem popTurn_hist (s : State) : (popTurn s).hist = s.hist := rfl
@[simp] theorem popTurn_fst (s : State) : (popTurn s).fst = s.fst := rfl
@[simp] theorem popTurn_phase (s : State) : (popTurn s).phase = s.phase := rfl
@[simp] theorem popTurn_pilot (s : State) : (popTurn s).pilot = s.pilot := rfl
@[simp] theorem popTurn_buf (s : State) : (popTurn s).buf = s.buf := rfl
@[simp] theorem popTurn_sig (s : State) : (popTurn s).sig = s.sig := rfl
@[simp] theorem popTurn_iq (s : State) : (popTurn s).iq = s.iq := rfl
@[simp] theorem popTurn_outb (s : State) : (popTurn s).outb = s.outb := rfl
@[simp] theorem popTurn_head (s : State) : (popTurn s).head = s.head := rfl
@[simp] theorem popTurn_tail (s : State) : (popTurn s).tail = s.tail := rfl
@[simp] theorem popTurn_count (s : State) : (popTurn s).count = s.count := rfl
@[simp] theorem popTurn_off (s : State) : (popTurn s).off = s.off := rfl
@[simp] theorem popTurn_ring (s : State) : (popTurn s).ring = s.ring := rfl
@[simp] theorem popTurn_inp (s : State) : (popTurn s).inp = s.inp := rfl
@[simp] theorem popTurn_lcfg (s : State) : (popTurn s).lcfg = s.lcfg := rfl
@[simp] theorem popTurn_ln (s : State) : (popTurn s).ln = s.ln := rfl
@[simp] theorem popTurn_ls (s : State) : (popTurn s).ls = s.ls := rfl
@[simp] theorem popTurn_lch (s : State) : (popTurn s).lch = s.lch := rfl
@[simp] theorem popTurn_lm (s : State) : (popTurn s).lm = s.lm := rfl
@[simp] theorem popTurn_pend (s : State) : (popTurn s).pend = s.pend := rfl
@[simp] theorem popTurn_pidx (s : State) : (popTurn s).pidx = s.pidx := rfl
@[simp] theorem popTurn_busy (s : State) : (popTurn s).busy = s.busy := rfl
@[simp] theorem popTurn_stage (s : State) : (popTurn s).stage = s.stage := rfl
@[simp] theorem popTurn_sticky (s : State) : (popTurn s).sticky = s.sticky := rfl
@[simp] theorem popTurn_cfg (s : State) : (popTurn s).cfg = s.cfg := rfl
@[simp] theorem popTurn_chunkN (s : State) : (popTurn s).chunkN = s.chunkN := rfl
@[simp] theorem popTurn_chunkRate (s : State) : (popTurn s).chunkRate = s.chunkRate := rfl
@[simp] theorem popTurn_chunkCh (s : State) : (popTurn s).chunkCh = s.chunkCh := rfl
@[simp] theorem popTurn_env (s : State) : (popTurn s).env = { s.env with sched := s.env.sched.tail } := rfl

/-! ### `popHost` -/

@[simp] theorem popHost_hist (s : State) : (popHost s).hist = s.hist := rfl
@[simp] theorem popHost_fst (s : State) : (popHost s).fst = s.fst := rfl
@[simp] theorem popHost_phase (s : State) : (popHost s).phase = s.phase := rfl
@[simp] theorem popHost_pilot (s : State) : (popHost s).pilot = s.pilot := rfl
@[simp] theorem popHost_buf (s : State) : (popHost s).buf = s.buf := rfl
@[simp] theorem popHost_sig (s : State) : (popHost s).sig = s.sig := rfl
@[simp] theorem popHost_iq (s : State) : (popHost s).iq = s.iq := rfl
@[simp] theorem popHost_outb (s : State) : (popHost s).outb = s.outb := rfl
@[simp] theorem popHost_head (s : State) : (popHost s).head = s.head := rfl
@[simp] theorem popHost_tail (s : State) : (popHost s).tail = s.tail := rfl
@[simp] theorem popHost_count (s : State) : (popHost s).count = s.count := rfl
@[simp] theorem popHost_off (s : State) : (popHost s).off = s.off := rfl
@[simp] theorem popHost_ring (s : State) : (popHost s).ring = s.ring := rfl
@[simp] theorem popHost_inp (s : State) : (popHost s).inp = s.inp := rfl
@[simp] theorem popHost_lcfg (s : State) : (popHost s).lcfg = s.lcfg := rfl
@[simp] theorem popHost_ln (s : State) : (popHost s).ln = s.ln := rfl
@[simp] theorem popHost_ls (s : State) : (popHost s).ls = s.ls := rfl
@[simp] theorem popHost_lch (s : State) : (popHost s).lch = s.lch := rfl
@[simp] theorem popHost_lm (s : State) : (popHost s).lm = s.lm := rfl
@[simp] theorem popHost_pend (s : State) : (popHost s).pend = s.pend := rfl
@[simp] theorem popHost_pidx (s : State) : (popHost s).pidx = s.pidx := rfl
@[simp] theorem popHost_busy (s : State) : (popHost s).busy = s.busy := rfl
@[simp] theorem popHost_stage (s : State) : (popHost s).stage = s.stage := rfl
@[simp] theorem popHost_sticky (s : State) : (popHost s).sticky = s.sticky := rfl
@[simp] theorem popHost_cfg (s : State) : (popHost s).cfg = s.cfg := rfl
@[simp] theorem popHost_chunkN (s : State) : (popHost s).chunkN = s.chunkN := rfl
@[simp] theorem popHost_chunkRate (s : State) : (popHost s).chunkRate = s.chunkRate := rfl
@[simp] theorem popHost_chunkCh (s : State) : (popHost s).chunkCh = s.chunkCh := rfl
@[simp] theorem popHost_env (s : State) : (popHost s).env = { s.env with hostQ := s.env.hostQ.tail } := rfl

/-! ### `resetEvent` -/

/-- After a reset the environment is kept, but for the counter the free values are read at. -/
@[simp] theorem resetEvent_env (s : State) : (resetEvent s).env = { s.env with epoch := s.env.epoch + 1 } := rfl

end Machine

end Sys2Proof
end

