-- ==== Sys2Proof/Laws/Memory.lean ====
section
/-! SUPPORT. Laws/Memory.lean: reading after writing, and that every memory operation keeps the canonical form. -/

namespace Sys2Proof.Machine

theorem Memory.wf_cons {β : Type} (a : Nat) (v : β) (m : List (Nat × β)) :
    Memory.wf ((a, v) :: m) = true ↔ Memory.wf m = true ∧ ∀ x ∈ m, a < x.1 := by
  induction m generalizing a v with
  | nil => simp [Memory.wf]
  | cons y m ih =>
    obtain ⟨b, w⟩ := y
    simp only [Memory.wf, Bool.and_eq_true, decide_eq_true_eq]
    rw [ih b w]
    constructor
    · rintro ⟨hab, hm, hb⟩
      refine ⟨⟨hm, hb⟩, ?_⟩
      intro x hx
      rcases List.mem_cons.1 hx with rfl | hx
      · exact hab
      · exact hab.trans (hb x hx)
    · rintro ⟨⟨hm, hb⟩, ha⟩
      exact ⟨ha _ List.mem_cons_self, hm, hb⟩

/-- A read after a write to the same index gives the value written. -/
@[simp] theorem Memory.read_write_same {β : Type} (m : List (Nat × β)) (i : Nat) (w : β) :
    Memory.read (Memory.write m i w) i = some w := by
  induction m with
  | nil => simp [Memory.write, Memory.read]
  | cons y m ih =>
    obtain ⟨a, v⟩ := y
    unfold Memory.write
    split_ifs with h1 h2
    · simp [Memory.read]
    · simp [Memory.read]
    · simp [Memory.read, h2, ih]

/-- A write leaves every other index alone. -/
theorem Memory.read_write_other {β : Type} (m : List (Nat × β)) {i j : Nat} (h : j ≠ i) (w : β) :
    Memory.read (Memory.write m i w) j = Memory.read m j := by
  induction m with
  | nil => simp [Memory.write, Memory.read, h]
  | cons y m ih =>
    obtain ⟨a, v⟩ := y
    unfold Memory.write
    split_ifs with h1 h2
    · simp [Memory.read, h]
    · subst h2; simp [Memory.read, h]
    · simp only [Memory.read, ih]

/-- The indices of a memory after a write. -/
theorem Memory.mem_write {β : Type} {m : List (Nat × β)} {i : Nat} {w : β} {x : Nat × β}
    (h : x ∈ Memory.write m i w) : x = (i, w) ∨ x ∈ m := by
  induction m with
  | nil => simpa [Memory.write] using h
  | cons y m ih =>
    obtain ⟨a, v⟩ := y
    unfold Memory.write at h
    split_ifs at h with h1 h2
    · simpa using h
    · rcases List.mem_cons.1 h with h | h
      · exact .inl h
      · exact .inr (List.mem_cons_of_mem _ h)
    · rcases List.mem_cons.1 h with h | h
      · exact .inr (h ▸ List.mem_cons_self)
      · exact (ih h).imp_right (List.mem_cons_of_mem _)

/-- A write keeps the canonical form. -/
theorem Memory.wf_write {β : Type} {m : List (Nat × β)} (h : Memory.wf m = true) (i : Nat) (w : β) :
    Memory.wf (Memory.write m i w) = true := by
  induction m with
  | nil => rfl
  | cons y m ih =>
    obtain ⟨a, v⟩ := y
    have hw := (Memory.wf_cons a v m).1 h
    unfold Memory.write
    split_ifs with h1 h2
    · rw [Memory.wf_cons]
      refine ⟨h, fun x hx => ?_⟩
      rcases List.mem_cons.1 hx with rfl | hx
      · exact h1
      · exact h1.trans (hw.2 x hx)
    · subst h2; rw [Memory.wf_cons]; exact hw
    · rw [Memory.wf_cons]
      refine ⟨ih hw.1, fun x hx => ?_⟩
      rcases Memory.mem_write hx with rfl | hx
      · exact lt_of_le_of_ne (not_lt.1 h1) (Ne.symm h2)
      · exact hw.2 x hx

/-- A write below the bound keeps every index below it. -/
theorem Memory.below_write {β : Type} {m : List (Nat × β)} {bound : Nat} (h : Memory.below m bound) {i : Nat}
    (hi : i < bound) (w : β) : Memory.below (Memory.write m i w) bound := by
  intro x hx
  rcases Memory.mem_write hx with rfl | hx
  · exact hi
  · exact h x hx

/-- The memory of the state after reset is in canonical form. -/
theorem reset_memSound : State.reset.memSound :=
  ⟨rfl, rfl, rfl, fun _ h => absurd h List.not_mem_nil, fun _ h => absurd h List.not_mem_nil, fun _ h => absurd h List.not_mem_nil⟩

/-- ENQ's write keeps the canonical form of `RING`. -/
theorem writeRing_wf {s : State} (h : Memory.wf s.ring = true) (b k : Nat) (v : IQByte) :
    Memory.wf (writeRing b k v s).ring = true := Memory.wf_write h _ _

/-- A load keeps the canonical form of `IN`. -/
theorem writeIn_wf {s : State} (c : Chan) (h : ∀ d, Memory.wf (s.inp.get d) = true) (i : Nat) (v : RealNum) (d : Chan) :
    Memory.wf ((writeIn c i v s).inp.get d) = true := by
  by_cases e : d = c
  · subst e; simpa using Memory.wf_write (h d) i v
  · simpa [Pair.get_set_other _ e] using h d

/-- A byte just written reads as written. -/
@[simp] theorem readRing_writeRing_same (s : State) (b k : Nat) (v : IQByte) :
    readRing (writeRing b k v s) b k = v := by
  simp [readRing, ringIndex]

/-- A write to one byte of the ring leaves every other byte alone. -/
theorem readRing_writeRing_other (s : State) {b k b' k' : Nat} (v : IQByte)
    (h : ringIndex s b' k' ≠ ringIndex s b k) : readRing (writeRing b k v s) b' k' = readRing s b' k' := by
  have := Memory.read_write_other s.ring h v
  simp only [readRing, ringIndex, writeRing_ring, writeRing_env] at this ⊢
  rw [this]

/-- A sample just loaded reads as loaded. -/
@[simp] theorem readIn_writeIn_same (s : State) (c : Chan) (i : Nat) (v : RealNum) :
    readIn (writeIn c i v s) c i = v := by
  simp [readIn]

/-- A load leaves every other sample alone. -/
theorem readIn_writeIn_other (s : State) {c d : Chan} {i j : Nat} (v : RealNum) (h : d ≠ c ∨ j ≠ i) :
    readIn (writeIn c i v s) d j = readIn s d j := by
  by_cases e : d = c
  · subst e
    have hj : j ≠ i := h.resolve_left (by simp)
    simp [readIn, Memory.read_write_other _ hj]
  · simp [readIn, Pair.get_set_other _ e]

end Sys2Proof.Machine
end

