-- ==== Sys2Proof/Laws/Ops.lean ====
section
/-! SUPPORT. Laws/Ops.lean: for each shared operation and each move, once, everything it can do. Later proofs cite these
and do not unfold the operations. -/

namespace Sys2Proof.Machine

/-! ### The hold -/

@[simp] theorem whenIdle_busy {s : State} (h : s.busy = true) (t : State) : whenIdle s t = s := by simp [whenIdle, h]

@[simp] theorem whenIdle_idle {s : State} (h : s.busy = false) (t : State) : whenIdle s t = t := by simp [whenIdle, h]

theorem whenIdle_cases (s t : State) : (s.busy = true ∧ whenIdle s t = s) ∨ (s.busy = false ∧ whenIdle s t = t) := by
  cases h : s.busy <;> simp [whenIdle, h]

/-! ### CHUNK -/

/-- CHUNK's checks all pass exactly under these conditions. -/
theorem chunkFault_eq_none {s : State} : chunkFault s = none ↔
    (s.chunkCh = 1#2 ∨ s.chunkCh = 2#2) ∧ s.chunkRate ≠ 0#32 ∧ 4 ≤ s.chunkN.toNat ∧
    s.chunkN.toNat ≤ s.env.par.nMax ∧ outCount s.chunkN.toNat s.rate s.chunkRate.toNat ≠ 0 := by
  unfold chunkFault
  split_ifs with h1 h2 h3 h4 h5 <;> simp_all
  tauto

/-- What a CHUNK that is not held does: it records a fault, or it writes the latch, its checks having passed. -/
theorem acceptChunk_cases (s : State) :
    (∃ f, chunkFault s = some f ∧ acceptChunk s = raiseFault f s) ∨
    (chunkFault s = none ∧ acceptChunk s = latchChunk s) := by
  unfold acceptChunk
  cases chunkFault s with
  | none => exact .inr ⟨rfl, rfl⟩
  | some f => exact .inl ⟨f, rfl, rfl⟩

/-- No output sample: the rate lies so far above the target that not even one half of a sample results. -/
theorem outCount_eq_zero {n t r : Nat} (hr : 0 < r) : outCount n t r = 0 ↔ 2 * n * t < r := by
  unfold outCount
  rw [Nat.div_eq_zero_iff]
  omega

/-! ### The slots -/

/-- A format-S operation is PRODUCER's and is presented at its own slot. -/
theorem decodeSel_slot {k : Slot} {w : Sel} {i : Instr} (h : decodeSel k w = .ok i) :
    i.agent = .producer ∧ encode i = .s k w := by
  unfold decodeSel at h
  split at h
  · cases k <;> simp only [Slot.rows, firstHit] at h <;>
      (repeat' split at h) <;> first | (cases h; exact ⟨rfl, rfl⟩) | cases h
  · cases h

/-- What a selection word selects in a slot is well formed. -/
theorem decodeSel_wellFormed : ∀ {k : Slot} {w : Sel} {i : Instr}, decodeSel k w = .ok i → i.wellFormed = true := by
  have key : ∀ w : Sel, ∀ k ∈ [Slot.resamp .ch0, .resamp .ch1, .pre .ch0, .pre .ch1, .mix, .mod, .quant, .enq],
      (match decodeSel k w with | .ok i => i.wellFormed | .error _ => true) = true := by decide +kernel
  intro k w i h
  have := key w k (by rcases k with c | c | _ | _ | _ | _ <;> (try cases c) <;> simp)
  rw [h] at this
  exact this

/-- With legal fields, and on a channel the chunk has, every slot selects a variant. -/
theorem decodeSel_ok {k : Slot} {w : Sel} (hm : w.mode ≠ 3#2) (ht : w.tau ≠ 3#2) (hc : k.chanExists w = true) :
    ∃ i, decodeSel k w = .ok i := by
  have key : ∀ w : Sel, ∀ k ∈ [Slot.resamp .ch0, .resamp .ch1, .pre .ch0, .pre .ch1, .mix, .mod, .quant, .enq],
      w.mode ≠ 3#2 → w.tau ≠ 3#2 → k.chanExists w = true →
      (match decodeSel k w with | .ok _ => true | .error _ => false) = true := by decide +kernel
  have := key w k (by rcases k with c | c | _ | _ | _ | _ <;> (try cases c) <;> simp) hm ht hc
  cases h : decodeSel k w with
  | ok i => exact ⟨i, rfl⟩
  | error e => rw [h] at this; cases this

/-- A command word decodes to one of the three commands, or is reserved. -/
theorem decodeCommand_cases (w : Word32) :
    (w = 0#32 ∧ decodeCommand w = .ok .nop) ∨ (w = 1#32 ∧ decodeCommand w = .ok .chunk) ∨
    (w = 2#32 ∧ decodeCommand w = .ok .srst) ∨
    (w ≠ 0#32 ∧ w ≠ 1#32 ∧ w ≠ 2#32 ∧ decodeCommand w = .error .reservedCommand) := by
  unfold decodeCommand
  split_ifs with h0 h1 h2
  · exact .inl ⟨h0, rfl⟩
  · exact .inr (.inl ⟨h1, rfl⟩)
  · exact .inr (.inr (.inl ⟨h2, rfl⟩))
  · exact .inr (.inr (.inr ⟨h0, h1, h2, rfl⟩))

/-- The fields of the selection word are those of the latch. -/
theorem sel_fields (s : State) : s.sel.mode = cfgMode s.lcfg ∧ s.sel.tau = cfgTau s.lcfg ∧ s.sel.ch2 = s.stereoChunk := by
  unfold State.sel
  generalize s.lcfg = l
  cases s.stereoChunk
  · refine ⟨?_, ?_, ?_⟩
    · simp only [Sel.mode, cfgMode]
      ext i hi
      interval_cases i <;> simp
    · simp only [Sel.tau, cfgTau]
      ext i hi
      interval_cases i <;> simp
    · simp [Sel.ch2]
  · refine ⟨?_, ?_, ?_⟩
    · simp only [Sel.mode, cfgMode]
      ext i hi
      interval_cases i <;> simp
    · simp only [Sel.tau, cfgTau]
      ext i hi
      interval_cases i <;> simp
    · simp [Sel.ch2]

/-! ### The meanings: what a next state of each can be -/

theorem execResamp_next {c : Chan} {s t : State} (h : execResamp c s = .next t) :
    4 ≤ s.ln.toNat ∧ s.ln.toNat ≤ s.env.par.nMax ∧ 1 ≤ s.lm ∧ t = advance (.resamp c) (resampleChannel c s) := by
  unfold execResamp at h
  split_ifs at h with h1 h2 h3
  cases h
  exact ⟨by omega, by omega, by omega, rfl⟩

theorem execResamp_ok {c : Chan} {s : State} (h1 : 4 ≤ s.ln.toNat) (h2 : s.ln.toNat ≤ s.env.par.nMax) (h3 : 1 ≤ s.lm) :
    execResamp c s = .next (advance (.resamp c) (resampleChannel c s)) := by
  unfold execResamp
  rw [if_neg (by omega), if_neg (by omega), if_neg (by omega)]

theorem execQuant_next {s t : State} (h : execQuant s = .next t) :
    ∃ bs, quantBytes s.format s.iq = some bs ∧ t = advance .quant (handOver bs s) := by
  unfold execQuant at h
  split at h
  · rename_i bs hb; cases h; exact ⟨bs, hb, rfl⟩
  · cases h

theorem execQuant_ok {s : State} {bs : List IQByte} (h : quantBytes s.format s.iq = some bs) :
    execQuant s = .next (advance .quant (handOver bs s)) := by
  unfold execQuant; rw [h]

/-- DEQ returns a next state exactly when the length is that of a block. -/
theorem execDeq_next {len : Word32} {s t : State} (h : execDeq len s = .next t) :
    len.toNat = s.env.par.ringB ∧ ((0 < s.count ∧ t = dequeueBlock s) ∨ (s.count = 0 ∧ t = underrun s)) := by
  unfold execDeq at h
  split_ifs at h with h1 h2
  · cases h; exact ⟨h1, .inl ⟨h2, rfl⟩⟩
  · cases h; exact ⟨h1, .inr ⟨by omega, rfl⟩⟩

/-- One ENQ step: it holds, or it completes a chunk with nothing pending, or it stores the next pending byte. -/
theorem enqStep_cases (s : State) :
    (s.pend.length ≤ s.pidx ∧ enqStep s = finishChunk s) ∨
    (s.env.par.ringC ≤ s.count ∧ s.pidx < s.pend.length ∧ enqStep s = s) ∨
    (∃ b, s.pend[s.pidx]? = some b ∧ s.count < s.env.par.ringC ∧ enqStep s = completeIfDone (enqueueByte b s)) := by
  unfold enqStep
  cases h : s.pend[s.pidx]? with
  | none => exact .inl ⟨by simpa using h, rfl⟩
  | some b =>
    have hl : s.pidx < s.pend.length := by
      by_contra hc
      rw [List.getElem?_eq_none (by omega)] at h
      cases h
    by_cases hc : s.count < s.env.par.ringC
    · exact .inr (.inr ⟨b, rfl, hc, by simp [hc]⟩)
    · exact .inr (.inl ⟨by omega, hl, by simp [hc]⟩)

/-! ### The order of moves -/

/-- What a step can do: the operation that is presented runs, a presented word that is no operation is rejected, or no
word is presented. -/
theorem step_cases (s : State) :
    (∃ w i, fetch s = some w ∧ decode w = .ok i ∧ step s = exec i (fetched s)) ∨
    (∃ w e, fetch s = some w ∧ decode w = .error e ∧ step s = rejectWord e (fetched s)) ∨
    (fetch s = none ∧ step s = otherMove s) := by
  unfold step move
  cases hf : fetch s with
  | none => exact .inr (.inr ⟨rfl, rfl⟩)
  | some w =>
    simp only [runWord]
    cases hd : decode w with
    | ok i => exact .inl ⟨w, i, rfl, hd, rfl⟩
    | error e => exact .inr (.inl ⟨w, e, rfl, hd, rfl⟩)

/-- Where the presented word comes from, and the state it runs in. -/
theorem fetch_cases {s : State} {w : OpWord} (h : fetch s = some w) :
    (∃ ts q off bytes v, s.env.sched = .host :: ts ∧ s.env.hostQ = .wr off bytes v :: q ∧
      isCommand off bytes = true ∧ s.busy = false ∧ w = .k v ∧ fetched s = popHost (popTurn s)) ∨
    (∃ ts k, s.env.sched = .producer :: ts ∧ s.stage = some k ∧ w = .s k s.sel ∧ fetched s = popTurn s) ∨
    (∃ ts len, s.env.sched = .consumer len :: ts ∧ w = .t len ∧ fetched s = popTurn s) := by
  unfold fetch at h
  unfold fetched
  split at h
  · rename_i ts hs
    split at h
    · rename_i off bytes v q hq
      split_ifs at h with hc
      cases h
      exact .inl ⟨ts, q, off, bytes, v, hs, hq, hc.1, hc.2, rfl, rfl⟩
    all_goals cases h
  · rename_i ts hs
    split at h
    · rename_i k hk
      cases h
      exact .inr (.inl ⟨ts, k, hs, hk, rfl, rfl⟩)
    · cases h
  · rename_i len ts hs
    cases h
    exact .inr (.inr ⟨ts, len, hs, rfl, rfl⟩)
  · cases h
  · cases h

/-- Only a reserved command word is rejected with a next state, which differs in the sticky bits alone. -/
theorem rejectWord_next {e : Reject} {s t : State} (h : rejectWord e s = .next t) :
    e = .reservedCommand ∧ t = raiseFault .fCmd s := by
  cases e <;> simp only [rejectWord, Host.Outcome.next.injEq, reduceCtorEq] at h
  exact ⟨rfl, h.symm⟩

/-- A word write in the window of `IN`, at the `k`-th word, in a build: the load of the sample that the word is. -/
theorem regWrite_window {s : State} (h : s.env.par.num = .build) (v : Word32) (k : Nat) :
    regWrite (inBase + 4 * k) 4 v s =
      sampleLoad (k / s.env.par.nMax) (k % s.env.par.nMax) (wordSample v) s := by
  have hw : wordAccess (inBase + 4 * k) 4 = true := by simp [wordAccess, inBase]
  have hk : (inBase + 4 * k - inBase) / 4 = k := by rw [Nat.add_sub_cancel_left]; omega
  unfold regWrite
  rw [hw, if_neg (by simp), if_pos (Nat.le_add_right _ _)]
  unfold windowWrite
  rw [hk, h]

/-- What a register write can do. -/
theorem regWrite_next {off bytes : Nat} {v : Word32} {s t : State} (h : regWrite off bytes v s = .next t) :
    t = s ∨ t = acknowledge v s ∨ t = { s with cfg := legalCfg v } ∨
    (s.busy = false ∧ (t = { s with chunkN := v } ∨ t = { s with chunkRate := v } ∨
      t = { s with chunkCh := v.extractLsb' 0 2 })) ∨
    ∃ c i w, sampleLoad c i w s = .next t := by
  unfold regWrite windowWrite unlessBusy at h
  by_cases hw : wordAccess off bytes = false
  · rw [if_pos hw] at h; cases h
  rw [if_neg hw] at h
  by_cases hi : inBase ≤ off
  · rw [if_pos hi] at h
    split at h
    · exact .inr (.inr (.inr (.inr ⟨_, _, _, h⟩)))
    · cases h
  rw [if_neg hi] at h
  split_ifs at h <;> cases h
  all_goals simp_all

/-- A register read changes nothing but the answer. -/
theorem regRead_next {off bytes : Nat} {s t : State} (h : regRead off bytes s = .next t) :
    t = { s with env := { s.env with rdata := regValue s off } } := by
  unfold regRead at h
  split_ifs at h
  cases h
  rfl

/-- A sample load writes one sample that exists, while no chunk is in progress. -/
theorem sampleLoad_next {c i : Nat} {v : LoadValue} {s t : State} (h : sampleLoad c i v s = .next t) :
    ∃ k x, chanOf c = some k ∧ v = .finite x ∧ i < s.env.par.nMax ∧ s.busy = false ∧ t = writeIn k i x s := by
  unfold sampleLoad at h
  cases hc : chanOf c with
  | none => rw [hc] at h; cases h
  | some k =>
    rw [hc] at h
    cases v with
    | notFinite => cases h
    | finite x =>
      simp only [unlessBusy] at h
      split_ifs at h with h1 h2
      cases h
      exact ⟨k, x, rfl, rfl, by omega, by simpa using h2, rfl⟩

/-- What HOST's move without a command can do. -/
theorem hostAccess_next {s t : State} (h : hostAccess s = .next t) :
    t = s ∨ (∃ off bytes v, regWrite off bytes v (popHost s) = .next t) ∨
    (∃ off bytes, regRead off bytes (popHost s) = .next t) ∨ ∃ c i v, sampleLoad c i v (popHost s) = .next t := by
  unfold hostAccess at h
  split at h
  · cases h; exact .inl rfl
  · split_ifs at h
    · cases h; exact .inl rfl
    · exact .inr (.inl ⟨_, _, _, h⟩)
  · exact .inr (.inr (.inl ⟨_, _, h⟩))
  · exact .inr (.inr (.inr ⟨_, _, _, h⟩))

/-- What a move without an operation word can do. -/
theorem otherMove_next {s t : State} (h : otherMove s = .next t) :
    t = s ∨ (∃ ts, s.env.sched = .host :: ts ∧ hostAccess (popTurn s) = .next t) ∨
    t = popTurn s ∨ t = resetEvent (popTurn s) := by
  unfold otherMove at h
  split at h
  · rename_i ts hs; exact .inr (.inl ⟨ts, hs, h⟩)
  · cases h; exact .inr (.inr (.inl rfl))
  · cases h; exact .inr (.inr (.inl rfl))
  · cases h; exact .inr (.inr (.inr rfl))
  · cases h; exact .inl rfl

/-! ### The buffers -/

@[simp] theorem resample_length (f : NumFormat) (carry : RealNum) (x : Nat → RealNum) (n m : Nat) :
    (resample f carry x n m).length = m := by simp [resample]

theorem resample_getElem? (f : NumFormat) (carry : RealNum) (x : Nat → RealNum) {n m j : Nat} (h : j < m) :
    (resample f carry x n m)[j]? = some (resampleAt f carry x n m j) := by
  simp [resample, h]

@[simp] theorem preFilter_length (f : NumFormat) (k : Coef) (st : FilterState) (xs : List RealNum) :
    (preFilter f k st xs).2.length = xs.length := by
  induction xs generalizing st with
  | nil => rfl
  | cons x xs ih => simp [preFilter, ih]

@[simp] theorem mpx_length (f : NumFormat) (t : Nat) (p : Rat) (l r : List RealNum) :
    (mpx f t p l r).2.length = min l.length r.length := by
  induction l generalizing p r with
  | nil => simp [mpx]
  | cons x l ih => cases r <;> simp [mpx, ih]

@[simp] theorem amPairs_length (f : NumFormat) (g : Rat) (xs : List RealNum) :
    (amPairs f g xs).length = 2 * xs.length := by
  induction xs with
  | nil => rfl
  | cons x xs ih => simp [amPairs, ih]; omega

@[simp] theorem fmPairs_length (f : NumFormat) (scale : RealNum) (g : Rat) (p : RealNum) (xs : List RealNum) :
    (fmPairs f scale g p xs).2.length = 2 * xs.length := by
  induction xs generalizing p with
  | nil => rfl
  | cons x xs ih => simp [fmPairs, ih]; omega

/-- QUANT's bytes: one for each value, each the byte of its own value. -/
theorem quantBytes_eq_some {f : NumFormat} {vs : List RealNum} {bs : List IQByte} :
    quantBytes f vs = some bs ↔ List.Forall₂ (fun v b => quantByte f v = some b) vs bs := by
  induction vs generalizing bs with
  | nil => cases bs <;> simp [quantBytes]
  | cons v vs ih =>
    simp only [quantBytes]
    cases hv : quantByte f v with
    | none =>
      simp only [reduceCtorEq, false_iff]
      intro h
      cases h with
      | cons hb _ => rw [hv] at hb; cases hb
    | some b =>
      cases hs : quantBytes f vs with
      | none =>
        simp only [reduceCtorEq, false_iff]
        intro h
        cases h with
        | cons _ ht => rw [ih.2 ht] at hs; cases hs
      | some bs' =>
        constructor
        · intro h
          cases h
          exact .cons hv (ih.1 hs)
        · intro h
          cases h with
          | cons hb ht =>
            rw [hv] at hb
            cases hb
            have := ih.2 ht
            rw [hs] at this
            cases this
            rfl

theorem quantBytes_length {f : NumFormat} {vs : List RealNum} {bs : List IQByte} (h : quantBytes f vs = some bs) :
    bs.length = vs.length := (quantBytes_eq_some.1 h).length_eq.symm

/-- QUANT answers where every value has a byte. -/
theorem quantBytes_isSome {f : NumFormat} {vs : List RealNum} (h : ∀ v ∈ vs, ∃ b, quantByte f v = some b) :
    ∃ bs, quantBytes f vs = some bs := by
  induction vs with
  | nil => exact ⟨[], rfl⟩
  | cons v vs ih =>
    obtain ⟨b, hb⟩ := h v List.mem_cons_self
    obtain ⟨bs, hbs⟩ := ih fun u hu => h u (List.mem_cons_of_mem _ hu)
    exact ⟨b :: bs, by simp [quantBytes, hb, hbs]⟩

end Sys2Proof.Machine
end

