-- ==== Sys2Proof/Laws/Real.lean ====
section
/-! SUPPORT. Laws/Real.lean: an enclosure contains the number it encloses, and every operation of Machine/Numbers.lean
denotes the real number that 00_scope.md rules R8 to R10 name. -/

namespace Sys2Proof

open Finset

/-! ### Floors and the grid -/

/-- Core's floor of a rational number is the floor of the order. -/
theorem rat_floor_eq (q : Rat) : q.floor = ⌊q⌋ := rfl

/-- The floor of a rational number is the floor of the real number it is. -/
theorem real_floor_cast (q : Rat) : ⌊(q : ℝ)⌋ = q.floor := by
  rw [rat_floor_eq]; exact Rat.floor_cast q

theorem encScale_pos : (0 : Rat) < encScale := by norm_num [encScale]

theorem roundDown_le (q : Rat) : roundDown q ≤ q := by
  unfold roundDown
  rw [div_le_iff₀ encScale_pos, rat_floor_eq]
  exact Int.floor_le _

theorem lt_roundDown_add (q : Rat) : q < roundDown q + 1 / encScale := by
  unfold roundDown
  rw [← add_div, lt_div_iff₀ encScale_pos, rat_floor_eq]
  exact Int.lt_floor_add_one _

theorem le_roundUp (q : Rat) : q ≤ roundUp q := by
  have := roundDown_le (-q); unfold roundUp; linarith

/-! ### Containment -/

/-- The interval contains the real number. -/
def Enc.has (e : Enc) (v : ℝ) : Prop := (e.lo : ℝ) ≤ v ∧ v ≤ (e.hi : ℝ)

theorem Enc.has_point (q : Rat) : (Enc.point q).has (q : ℝ) := ⟨le_rfl, le_rfl⟩

theorem Enc.has_widen {e : Enc} {v : ℝ} (h : e.has v) : e.widen.has v :=
  ⟨le_trans (by exact_mod_cast roundDown_le e.lo) h.1, le_trans h.2 (by exact_mod_cast le_roundUp e.hi)⟩

theorem Enc.has_add {x y : Enc} {u v : ℝ} (hx : x.has u) (hy : y.has v) : (x.add y).has (u + v) := by
  constructor <;> simp only [Enc.add, Rat.cast_add] <;> linarith [hx.1, hx.2, hy.1, hy.2]

/-- A product lies between the products of the ends. -/
theorem mul_between {a b c d u v : ℝ} (h1 : a ≤ u) (h2 : u ≤ b) (h3 : c ≤ v) (h4 : v ≤ d) :
    min (min (a * c) (a * d)) (min (b * c) (b * d)) ≤ u * v ∧
      u * v ≤ max (max (a * c) (a * d)) (max (b * c) (b * d)) := by
  constructor
  · rcases le_total 0 v with hv | hv
    · rcases le_total 0 a with ha | ha
      · exact (min_le_of_left_le (min_le_left _ _)).trans (by nlinarith)
      · exact (min_le_of_left_le (min_le_right _ _)).trans (by nlinarith)
    · rcases le_total 0 b with hb | hb
      · exact (min_le_of_right_le (min_le_left _ _)).trans (by nlinarith)
      · exact (min_le_of_right_le (min_le_right _ _)).trans (by nlinarith)
  · rcases le_total 0 v with hv | hv
    · rcases le_total 0 b with hb | hb
      · exact le_trans (by nlinarith) (le_max_of_le_right (le_max_right _ _))
      · exact le_trans (by nlinarith) (le_max_of_le_right (le_max_left _ _))
    · rcases le_total 0 a with ha | ha
      · exact le_trans (by nlinarith) (le_max_of_le_left (le_max_right _ _))
      · exact le_trans (by nlinarith) (le_max_of_le_left (le_max_left _ _))

theorem Enc.has_mul {x y : Enc} {u v : ℝ} (hx : x.has u) (hy : y.has v) : (x.mul y).has (u * v) := by
  have h := mul_between hx.1 hx.2 hy.1 hy.2
  constructor
  · simpa [Enc.mul, Rat.cast_min] using h.1
  · simpa [Enc.mul, Rat.cast_max] using h.2

theorem Enc.has_inv {x w : Enc} {u : ℝ} (h : x.inv = some w) (hx : x.has u) : w.has u⁻¹ := by
  unfold Enc.inv at h
  split at h
  · next hs =>
    cases h
    rcases hs with hs | hs
    · have h0 : (0 : ℝ) < x.lo := by exact_mod_cast hs
      have hu : 0 < u := h0.trans_le hx.1
      constructor
      · simpa using inv_anti₀ hu hx.2
      · simpa using inv_anti₀ h0 hx.1
    · have h0 : (x.hi : ℝ) < 0 := by exact_mod_cast hs
      have hu : u < 0 := hx.2.trans_lt h0
      constructor
      · simpa using (inv_le_inv_of_neg h0 hu).2 hx.2
      · simpa using (inv_le_inv_of_neg hu (hx.1.trans_lt hu)).2 hx.1
  · cases h

/-! ### Clipping -/

theorem clipReal_mono {u v : ℝ} (h : u ≤ v) : clipReal u ≤ clipReal v := by
  unfold clipReal; split_ifs <;> linarith

theorem clipRat_cast (q : Rat) : ((clipRat q : Rat) : ℝ) = clipReal (q : ℝ) := by
  unfold clipRat clipReal
  have h1 : ((q : ℝ) < -1) ↔ q < -1 := by exact_mod_cast Iff.rfl
  have h2 : (1 < (q : ℝ)) ↔ 1 < q := by exact_mod_cast Iff.rfl
  simp only [h1, h2]
  split_ifs <;> simp

theorem clipReal_mem (v : ℝ) : -1 ≤ clipReal v ∧ clipReal v ≤ 1 := by
  unfold clipReal; split_ifs <;> constructor <;> linarith

theorem clipReal_of_mem {v : ℝ} (h1 : -1 ≤ v) (h2 : v ≤ 1) : clipReal v = v := by
  unfold clipReal; split_ifs <;> linarith

theorem Enc.has_clip {x : Enc} {u : ℝ} (hx : x.has u) : x.clip.has (clipReal u) := by
  constructor
  · simpa [Enc.clip, clipRat_cast] using clipReal_mono hx.1
  · simpa [Enc.clip, clipRat_cast] using clipReal_mono hx.2

/-! ### Pi -/

theorem piLo_lt : ((piLo : Rat) : ℝ) < Real.pi := by
  have h := Real.pi_gt_d20
  norm_num [piLo] at h ⊢; linarith

theorem lt_piHi : Real.pi < ((piHi : Rat) : ℝ) := by
  have h := Real.pi_lt_d20
  norm_num [piHi] at h ⊢; linarith

theorem Enc.has_lin (a b : Rat) : (Enc.lin a b).has ((a : ℝ) + (b : ℝ) * Real.pi) := by
  unfold Enc.lin
  split_ifs with h0 h1
  · subst h0; simpa using Enc.has_point a
  · refine Enc.has_widen ⟨?_, ?_⟩ <;> push_cast
    · have : (0 : ℝ) < b := by exact_mod_cast h1
      nlinarith [piLo_lt]
    · have : (0 : ℝ) < b := by exact_mod_cast h1
      nlinarith [lt_piHi]
  · have : (b : ℝ) < 0 := by
      have : b < 0 := lt_of_le_of_ne (not_lt.1 h1) h0
      exact_mod_cast this
    refine Enc.has_widen ⟨?_, ?_⟩ <;> push_cast <;> nlinarith [lt_piHi, piLo_lt]

/-! ### The sine's power series -/

/-- The first `n` terms of the sine's power series. -/
noncomputable def sinSum (x : ℝ) (n : ℕ) : ℝ := ∑ i ∈ range n, (-1) ^ i * (x ^ (2 * i + 1) / (2 * i + 1).factorial)

/-- The first `n` terms of the cosine's power series. -/
noncomputable def cosSum (x : ℝ) (n : ℕ) : ℝ := ∑ i ∈ range n, (-1) ^ i * (x ^ (2 * i) / (2 * i).factorial)

theorem hasDerivAt_sinSum (x : ℝ) (n : ℕ) : HasDerivAt (fun y => sinSum y n) (cosSum x n) x := by
  unfold sinSum cosSum
  apply HasDerivAt.fun_sum
  intro i _
  refine HasDerivAt.const_mul _ ?_
  have h := (hasDerivAt_pow (2 * i + 1) x).div_const ((2 * i + 1).factorial : ℝ)
  convert h using 1
  rw [Nat.factorial_succ]; push_cast
  have : ((2 * i).factorial : ℝ) ≠ 0 := by positivity
  have : (2 * (i : ℝ) + 1) ≠ 0 := by positivity
  field_simp

theorem hasDerivAt_cosSum (x : ℝ) (n : ℕ) : HasDerivAt (fun y => cosSum y (n + 1)) (-(sinSum x n)) x := by
  have e : (fun y => cosSum y (n + 1)) =
      fun y => (∑ i ∈ range n, (-1 : ℝ) ^ (i + 1) * (y ^ (2 * i + 2) / (2 * i + 2).factorial)) + 1 := by
    funext y
    unfold cosSum
    rw [sum_range_succ']
    simp [mul_add]
  rw [e]
  unfold sinSum
  rw [← sum_neg_distrib]
  apply HasDerivAt.add_const
  apply HasDerivAt.fun_sum
  intro i _
  refine (((hasDerivAt_pow (2 * i + 2) x).div_const ((2 * i + 2).factorial : ℝ)).const_mul ((-1 : ℝ) ^ (i + 1))).congr_deriv ?_
  rw [Nat.factorial_succ]; push_cast
  have : ((2 * i + 1).factorial : ℝ) ≠ 0 := by positivity
  have : (2 * (i : ℝ) + 2) ≠ 0 := by positivity
  rw [show (2 * (i : ℝ) + 1 + 1) = 2 * i + 2 by ring, pow_succ]
  field_simp

/-- A function that vanishes at 0 and has a non-negative derivative is non-negative to the right of 0. -/
theorem nonneg_of_deriv {g g' : ℝ → ℝ} (hd : ∀ x, HasDerivAt g (g' x) x) (h0 : g 0 = 0)
    (h : ∀ x, 0 ≤ x → 0 ≤ g' x) {x : ℝ} (hx : 0 ≤ x) : 0 ≤ g x := by
  have hm : MonotoneOn g (Set.Ici 0) := by
    apply monotoneOn_of_deriv_nonneg (convex_Ici 0)
    · exact fun y _ => (hd y).continuousAt.continuousWithinAt
    · exact fun y _ => (hd y).differentiableAt.differentiableWithinAt
    · intro y hy
      rw [(hd y).deriv]
      exact h y (by simpa using (interior_subset hy))
  rw [← h0]
  exact hm (Set.mem_Ici.2 le_rfl) (Set.mem_Ici.2 hx) hx

theorem series_sign (n : ℕ) : ∀ x : ℝ, 0 ≤ x →
    0 ≤ (-1) ^ (n + 1) * (Real.cos x - cosSum x (n + 1)) ∧ 0 ≤ (-1) ^ (n + 1) * (Real.sin x - sinSum x (n + 1)) := by
  have step : ∀ m : ℕ, (∀ x : ℝ, 0 ≤ x → 0 ≤ (-1) ^ m * (Real.cos x - cosSum x m)) →
      ∀ x : ℝ, 0 ≤ x → 0 ≤ (-1) ^ m * (Real.sin x - sinSum x m) := by
    intro m hc x hx
    refine nonneg_of_deriv (g := fun y => (-1) ^ m * (Real.sin y - sinSum y m)) (fun y => ?_) ?_ hc hx
    · exact ((Real.hasDerivAt_sin y).sub (hasDerivAt_sinSum y m)).const_mul _
    · simp [sinSum]
  induction n with
  | zero =>
    have hc : ∀ x : ℝ, 0 ≤ x → 0 ≤ (-1) ^ (0 + 1) * (Real.cos x - cosSum x (0 + 1)) := by
      intro x _; simp [cosSum, Real.cos_le_one]
    exact fun x hx => ⟨hc x hx, step _ hc x hx⟩
  | succ n ih =>
    have hc : ∀ x : ℝ, 0 ≤ x → 0 ≤ (-1) ^ (n + 1 + 1) * (Real.cos x - cosSum x (n + 1 + 1)) := by
      intro x hx
      refine nonneg_of_deriv (g := fun y => (-1) ^ (n + 1 + 1) * (Real.cos y - cosSum y (n + 1 + 1)))
        (g' := fun y => (-1) ^ (n + 1) * (Real.sin y - sinSum y (n + 1))) (fun y => ?_) ?_ (fun y hy => (ih y hy).2) hx
      · refine (((Real.hasDerivAt_cos y).sub (hasDerivAt_cosSum y (n + 1))).const_mul ((-1 : ℝ) ^ (n + 1 + 1))).congr_deriv ?_
        rw [pow_succ (-1 : ℝ) (n + 1)]; ring
      · simp [cosSum, sum_range_succ', Real.cos_zero]
    exact fun x hx => ⟨hc x hx, step _ hc x hx⟩

theorem abs_sin_sub_le_of_nonneg {x : ℝ} (hx : 0 ≤ x) (n : ℕ) :
    |Real.sin x - sinSum x (n + 1)| ≤ x ^ (2 * (n + 1) + 1) / (2 * (n + 1) + 1).factorial := by
  have h1 := (series_sign n x hx).2
  have h2 := (series_sign (n + 1) x hx).2
  have e : sinSum x (n + 1 + 1) = sinSum x (n + 1) + (-1) ^ (n + 1) * (x ^ (2 * (n + 1) + 1) / (2 * (n + 1) + 1).factorial) := by
    unfold sinSum; rw [sum_range_succ]
  rw [e] at h2
  rcases neg_one_pow_eq_or ℝ (n + 1) with h | h <;> rw [pow_succ (-1 : ℝ) (n + 1), h] at h2 <;> rw [h] at h1 <;>
    rw [abs_le] <;> constructor <;> linarith [show (0 : ℝ) ≤ x ^ (2 * (n + 1) + 1) / (2 * (n + 1) + 1).factorial by positivity]

theorem sinSum_neg (x : ℝ) (n : ℕ) : sinSum (-x) n = -sinSum x n := by
  unfold sinSum
  rw [← sum_neg_distrib]
  refine sum_congr rfl fun i _ => ?_
  rw [Odd.neg_pow ⟨i, rfl⟩]; ring

theorem abs_sin_sub_sinSum_le (x : ℝ) (n : ℕ) :
    |Real.sin x - sinSum x (n + 1)| ≤ |x| ^ (2 * (n + 1) + 1) / (2 * (n + 1) + 1).factorial := by
  rcases le_total 0 x with h | h
  · rw [abs_of_nonneg h]; exact abs_sin_sub_le_of_nonneg h n
  · have := abs_sin_sub_le_of_nonneg (neg_nonneg.2 h) n
    rw [sinSum_neg, Real.sin_neg] at this
    rw [abs_of_nonpos h]
    rwa [show -Real.sin x - -sinSum x (n + 1) = -(Real.sin x - sinSum x (n + 1)) by ring, abs_neg] at this

theorem fact_eq (n : ℕ) : fact n = n.factorial := by
  induction n with
  | zero => rfl
  | succ n ih => simp [fact, ih, Nat.factorial_succ]

theorem sinSeries_cast (x : Rat) (n : ℕ) : ((sinSeries x n : Rat) : ℝ) = sinSum (x : ℝ) n := by
  induction n with
  | zero => simp [sinSeries, sinSum]
  | succ n ih =>
    unfold sinSum at *
    rw [sum_range_succ, sinSeries]
    push_cast
    rw [ih, fact_eq]
    congr 1
    congr 1
    rcases Nat.even_or_odd n with h | h
    · rw [if_pos (Nat.even_iff.1 h), h.neg_one_pow]; simp
    · rw [if_neg (by have := Nat.odd_iff.1 h; omega), h.neg_one_pow]; simp

/-- Twenty terms of the series are near enough. -/
theorem sin_near_series {r : Rat} (h1 : -4 ≤ r) (h2 : r ≤ 4) :
    |Real.sin (r : ℝ) - ((sinSeries r 20 : Rat) : ℝ)| ≤ (seriesError : Rat) := by
  rw [sinSeries_cast]
  refine (abs_sin_sub_sinSum_le (r : ℝ) 19).trans ?_
  have hr : |(r : ℝ)| ≤ 4 := abs_le.2 ⟨by exact_mod_cast h1, by exact_mod_cast h2⟩
  have : |(r : ℝ)| ^ (2 * (19 + 1) + 1) ≤ 4 ^ (2 * (19 + 1) + 1) := by gcongr
  refine (div_le_div_of_nonneg_right this (by positivity)).trans ?_
  norm_num [seriesError, Nat.factorial]

theorem Enc.has_sin {e : Enc} {v : ℝ} (h : e.has v) : e.sin.has (Real.sin v) := by
  unfold Enc.sin
  extract_lets c k r s d
  split_ifs with hr
  · have hs := sin_near_series hr.1 hr.2
    -- the reduced argument
    have hc : |v - (c : ℝ)| ≤ ((e.hi - e.lo) / 2 : Rat) := by
      have h1 := h.1; have h2 := h.2
      simp only [c]; push_cast
      rw [abs_le]; constructor <;> linarith
    have hrd : |((c - 2 * k * piMid : Rat) : ℝ) - (r : ℝ)| ≤ (1 / encScale : Rat) := by
      have h1 := roundDown_le (c - 2 * k * piMid)
      have h2 := lt_roundDown_add (c - 2 * k * piMid)
      rw [← Rat.cast_sub, ← Rat.cast_abs]
      have h1' : r ≤ c - 2 * k * piMid := h1
      have h2' : c - 2 * k * piMid < r + 1 / encScale := h2
      have : |c - 2 * k * piMid - r| ≤ 1 / encScale := by
        rw [abs_le]; constructor
        · have := encScale_pos
          have : (0 : Rat) < 1 / encScale := by positivity
          linarith
        · linarith
      exact_mod_cast this
    have hpi : |Real.pi - (piMid : ℝ)| ≤ ((piHi - piLo : Rat) : ℝ) := by
      have h1 := piLo_lt; have h2 := lt_piHi
      simp only [piMid]; push_cast
      rw [abs_le]; constructor <;> linarith
    have hk : |2 * (k : ℝ) * (piMid : ℝ) - 2 * (k : ℝ) * Real.pi| ≤ ((2 * k.natAbs * (piHi - piLo) : Rat) : ℝ) := by
      rw [← mul_sub, abs_mul, abs_mul, abs_two, abs_sub_comm (piMid : ℝ)]
      push_cast
      have : |(k : ℝ)| = (k.natAbs : ℝ) := by rw [Nat.cast_natAbs]; simp
      rw [this]
      gcongr
      simpa using hpi
    have hsin : Real.sin v = Real.sin (v - 2 * (k : ℝ) * Real.pi) := by
      rw [show v - 2 * (k : ℝ) * Real.pi = v - k * (2 * Real.pi) by ring, Real.sin_sub_int_mul_two_pi]
    have hlip : |Real.sin v - Real.sin (r : ℝ)| ≤ |v - 2 * (k : ℝ) * Real.pi - r| := by
      rw [hsin]
      exact Real.abs_sin_sub_sin_le _ _
    have htot : |Real.sin v - (s : ℝ)| ≤ (d : ℝ) := by
      have t1 : |Real.sin v - (s : ℝ)| ≤ |Real.sin v - Real.sin (r : ℝ)| + |Real.sin (r : ℝ) - s| := abs_sub_le _ _ _
      have t2 : |v - 2 * (k : ℝ) * Real.pi - r| ≤ |v - c| + |2 * (k : ℝ) * (piMid : ℝ) - 2 * (k : ℝ) * Real.pi|
          + |((c - 2 * k * piMid : Rat) : ℝ) - (r : ℝ)| := by
        have : v - 2 * (k : ℝ) * Real.pi - r = (v - c) + (2 * (k : ℝ) * (piMid : ℝ) - 2 * (k : ℝ) * Real.pi)
          + (((c - 2 * k * piMid : Rat) : ℝ) - (r : ℝ)) := by push_cast; ring
        rw [this]
        exact (abs_add_le _ _).trans (by gcongr; exact abs_add_le _ _)
      have : (d : ℝ) = ((e.hi - e.lo) / 2 : Rat) + ((2 * k.natAbs * (piHi - piLo) : Rat) : ℝ) + (1 / encScale : Rat) + (seriesError : Rat) := by
        simp only [d]; push_cast; ring
      rw [this]; linarith
    have hm := clipReal_of_mem (Real.neg_one_le_sin v) (Real.sin_le_one v)
    rw [← hm]
    apply Enc.has_clip
    rw [abs_le] at htot
    constructor <;> push_cast <;> linarith
  · exact ⟨by simpa using Real.neg_one_le_sin v, by simpa using Real.sin_le_one v⟩

/-! ### Wrapping -/

theorem wrapReal_mem (p : ℝ) : -Real.pi < wrapReal p ∧ wrapReal p ≤ Real.pi := by
  have hpi := Real.pi_pos
  have h1 := Int.floor_le ((Real.pi - p) / (2 * Real.pi))
  have h2 := Int.lt_floor_add_one ((Real.pi - p) / (2 * Real.pi))
  rw [le_div_iff₀ (by positivity)] at h1
  rw [div_lt_iff₀ (by positivity)] at h2
  unfold wrapReal
  constructor <;> linarith

/-- The number in `(-pi, pi]` that differs from `p` by a multiple of `2 * pi` is unique. -/
theorem wrapReal_unique {p q : ℝ} (k : ℤ) (h : q - p = 2 * Real.pi * k) (h1 : -Real.pi < q) (h2 : q ≤ Real.pi) :
    q = wrapReal p := by
  have hpi := Real.pi_pos
  have : ⌊(Real.pi - p) / (2 * Real.pi)⌋ = k := by
    rw [Int.floor_eq_iff, le_div_iff₀ (by positivity), div_lt_iff₀ (by positivity)]
    constructor <;> linarith
  unfold wrapReal
  rw [this]; linarith

theorem wrapReal_of_mem {p : ℝ} (h1 : -Real.pi < p) (h2 : p ≤ Real.pi) : wrapReal p = p :=
  (wrapReal_unique 0 (by simp) h1 h2).symm

theorem sin_wrapReal (p : ℝ) : Real.sin (wrapReal p) = Real.sin p := by
  unfold wrapReal
  rw [show p + 2 * Real.pi * (⌊(Real.pi - p) / (2 * Real.pi)⌋ : ℝ)
    = p + (⌊(Real.pi - p) / (2 * Real.pi)⌋ : ℝ) * (2 * Real.pi) by ring, Real.sin_add_int_mul_two_pi]

theorem cos_wrapReal (p : ℝ) : Real.cos (wrapReal p) = Real.cos p := by
  unfold wrapReal
  rw [show p + 2 * Real.pi * (⌊(Real.pi - p) / (2 * Real.pi)⌋ : ℝ)
    = p + (⌊(Real.pi - p) / (2 * Real.pi)⌋ : ℝ) * (2 * Real.pi) by ring, Real.cos_add_int_mul_two_pi]

/-! ### An enclosure contains its number -/

theorem RealNum.enc_has (x : RealNum) : ∀ e, x.enc = some e → e.has x.toReal := by
  induction x with
  | lin a b => intro e h; cases h; exact Enc.has_lin a b
  | named k => intro e h; cases h
  | sum x y ihx ihy =>
    intro e h
    simp only [RealNum.enc] at h
    split at h
    · next u v hu hv => cases h; exact Enc.has_widen (Enc.has_add (ihx _ hu) (ihy _ hv))
    · cases h
  | prod x y ihx ihy =>
    intro e h
    simp only [RealNum.enc] at h
    split at h
    · next u v hu hv => cases h; exact Enc.has_widen (Enc.has_mul (ihx _ hu) (ihy _ hv))
    · cases h
  | quot x y ihx ihy =>
    intro e h
    simp only [RealNum.enc] at h
    split at h
    · next u v hu hv =>
      split at h
      · next w hw =>
        cases h
        rw [RealNum.toReal, div_eq_mul_inv]
        exact Enc.has_widen (Enc.has_mul (ihx _ hu) (Enc.has_inv hw (ihy _ hv)))
      · cases h
    · cases h
  | sine x ih =>
    intro e h
    simp only [RealNum.enc] at h
    split at h
    · next u hu =>
      cases h
      have := Enc.has_clip (Enc.has_widen (Enc.has_sin (ih _ hu)))
      rwa [clipReal_of_mem (Real.neg_one_le_sin _) (Real.sin_le_one _)] at this
    · cases h
      exact ⟨by simpa [RealNum.toReal] using Real.neg_one_le_sin _, by simpa [RealNum.toReal] using Real.sin_le_one _⟩
  | clamp x ih =>
    intro e h
    simp only [RealNum.enc] at h
    split at h
    · next u hu => cases h; exact Enc.has_clip (ih _ hu)
    · cases h
      exact ⟨by simpa [RealNum.toReal] using (clipReal_mem _).1, by simpa [RealNum.toReal] using (clipReal_mem _).2⟩
  | wrapped x _ =>
    intro e h
    cases h
    have := wrapReal_mem x.toReal
    constructor
    · simp only [RealNum.toReal]; push_cast; linarith [lt_piHi]
    · simp only [RealNum.toReal]; linarith [lt_piHi]

/-! ### What the operations denote -/

@[simp] theorem RealNum.toReal_ofRat (q : Rat) : (RealNum.ofRat q).toReal = (q : ℝ) := by
  simp [RealNum.ofRat, RealNum.toReal]

@[simp] theorem RealNum.toReal_zero : RealNum.zero.toReal = 0 := by simp [RealNum.zero, RealNum.toReal]

theorem RealNum.toReal_split (t : RealNum) :
    ((t.split.1.1 : ℝ) + (t.split.1.2 : ℝ) * Real.pi) * t.split.2.toReal = t.toReal := by
  unfold RealNum.split
  split <;> simp [RealNum.toReal]

@[simp] theorem RealNum.toReal_term (a b : Rat) (u : RealNum) :
    (RealNum.term a b u).toReal = ((a : ℝ) + (b : ℝ) * Real.pi) * u.toReal := by
  unfold RealNum.term
  split_ifs with h1 h2
  · simp [h1.1, h1.2]
  · simp [h2.1, h2.2]
  · rfl

@[simp] theorem RealNum.toReal_cons (t xs : RealNum) : (RealNum.cons t xs).toReal = t.toReal + xs.toReal := by
  unfold RealNum.cons
  split_ifs with h1 h2
  · simp [h1]
  · simp [h2]
  · rfl

@[simp] theorem RealNum.toReal_addTerm (a b : Rat) (u x : RealNum) :
    (RealNum.addTerm a b u x).toReal = ((a : ℝ) + (b : ℝ) * Real.pi) * u.toReal + x.toReal := by
  have other : ∀ y : RealNum,
      (if y.split.2 = u then RealNum.term (a + y.split.1.1) (b + y.split.1.2) u
        else RealNum.cons (RealNum.term a b u) y).toReal = ((a : ℝ) + (b : ℝ) * Real.pi) * u.toReal + y.toReal := by
    intro y
    have hs := y.toReal_split
    split_ifs with h
    · rw [h] at hs
      rw [RealNum.toReal_term, ← hs]
      push_cast
      ring
    · simp
  induction x with
  | sum t xs _ ih =>
    have hs := t.toReal_split
    simp only [RealNum.addTerm]
    split_ifs with h
    · rw [h] at hs
      rw [RealNum.toReal_cons, RealNum.toReal_term]
      simp only [RealNum.toReal]
      rw [← hs]
      push_cast
      ring
    · rw [RealNum.toReal_cons, ih]
      simp only [RealNum.toReal]
      ring
  | lin c d => simp [RealNum.addTerm]
  | named k => exact other _
  | prod x y => exact other _
  | quot x y => exact other _
  | sine x => exact other _
  | clamp x => exact other _
  | wrapped x => exact other _

@[simp] theorem RealNum.toReal_addLin (a b : Rat) (x : RealNum) :
    (RealNum.addLin a b x).toReal = ((a : ℝ) + (b : ℝ) * Real.pi) + x.toReal := by
  induction x with
  | sum t xs _ ih => simp only [RealNum.addLin, RealNum.toReal_cons, ih, RealNum.toReal]; ring
  | lin c d => simp only [RealNum.addLin, RealNum.toReal]; push_cast; ring
  | _ => simp only [RealNum.addLin, RealNum.toReal_cons, RealNum.toReal]; ring

theorem RealNum.toReal_addTerms (x y : RealNum) : (RealNum.addTerms x y).toReal = x.toReal + y.toReal := by
  have other : ∀ z : RealNum, (RealNum.addTerm z.split.1.1 z.split.1.2 z.split.2 x).toReal = x.toReal + z.toReal := by
    intro z
    rw [RealNum.toReal_addTerm, RealNum.toReal_split, add_comm]
  induction y with
  | sum t ys _ ih =>
    simp only [RealNum.addTerms, RealNum.toReal_addTerm, RealNum.toReal_split, ih, RealNum.toReal]; ring
  | lin c d => simp only [RealNum.addTerms, RealNum.toReal_addLin, RealNum.toReal]; ring
  | named k => exact other _
  | prod x y => exact other _
  | quot x y => exact other _
  | sine x => exact other _
  | clamp x => exact other _
  | wrapped x => exact other _

@[simp] theorem RealNum.toReal_add (x y : RealNum) : (x.add y).toReal = x.toReal + y.toReal := by
  unfold RealNum.add
  split_ifs with h1 h2
  · simp [h1]
  · simp [h2]
  · exact RealNum.toReal_addTerms x y

@[simp] theorem RealNum.toReal_scaleTerm (a b : Rat) (t : RealNum) :
    (RealNum.scaleTerm a b t).toReal = ((a : ℝ) + (b : ℝ) * Real.pi) * t.toReal := by
  have hs := t.toReal_split
  unfold RealNum.scaleTerm
  split_ifs with h1 h2
  · rw [RealNum.toReal_term, ← hs]; push_cast; simp only [h1]; push_cast; ring
  · rw [RealNum.toReal_term, ← hs]; push_cast; simp only [h2]; push_cast; ring
  · simp [RealNum.toReal]

@[simp] theorem RealNum.toReal_scale (a b : Rat) (x : RealNum) :
    (RealNum.scale a b x).toReal = ((a : ℝ) + (b : ℝ) * Real.pi) * x.toReal := by
  induction x with
  | sum t xs _ ih => simp only [RealNum.scale, RealNum.toReal_add, RealNum.toReal_scaleTerm, ih, RealNum.toReal]; ring
  | lin c d =>
    unfold RealNum.scale
    split_ifs with h1 h2
    · simp only [RealNum.toReal, h1]; push_cast; ring
    · simp only [RealNum.toReal, h2]; push_cast; ring
    · rfl
  | _ => exact RealNum.toReal_scaleTerm _ _ _

@[simp] theorem RealNum.toReal_sub (x y : RealNum) : (x.sub y).toReal = x.toReal - y.toReal := by
  simp [RealNum.sub]; ring

@[simp] theorem RealNum.toReal_mul (x y : RealNum) : (x.mul y).toReal = x.toReal * y.toReal := by
  unfold RealNum.mul
  split_ifs with h1 h2 h3
  · rcases h1 with h | h <;> simp [h]
  · simp [h2, RealNum.toReal]
  · simp [h3, RealNum.toReal]
  · split
    · simp [RealNum.toReal]
    · simp [RealNum.toReal]; ring
    · rfl

@[simp] theorem RealNum.toReal_div (x y : RealNum) : (x.div y).toReal = x.toReal / y.toReal := by
  unfold RealNum.div
  split
  · split_ifs with h4 h5
    · simp [RealNum.toReal, h4.1]; ring
    · have : (Real.pi : ℝ) ≠ 0 := Real.pi_ne_zero
      simp [RealNum.toReal, h5.1, h5.2.1]
      field_simp
    · rfl
  · split_ifs with h4
    · simp [RealNum.toReal, h4.1]; ring
    · rfl
  · rfl

/-- Taking the wraps off an angle changes it by a multiple of `2 * pi`. -/
theorem RealNum.toReal_unwrap (x : RealNum) : ∃ k : ℤ, x.unwrap.toReal = x.toReal + k * (2 * Real.pi) := by
  induction x with
  | wrapped x ih =>
    obtain ⟨k, hk⟩ := ih
    refine ⟨k - ⌊(Real.pi - x.toReal) / (2 * Real.pi)⌋, ?_⟩
    simp only [RealNum.unwrap, hk, RealNum.toReal, wrapReal]
    push_cast
    ring
  | sum t xs ih1 ih2 =>
    obtain ⟨k, hk⟩ := ih1
    obtain ⟨l, hl⟩ := ih2
    refine ⟨k + l, ?_⟩
    simp only [RealNum.unwrap, RealNum.toReal_add, hk, hl, RealNum.toReal]
    push_cast
    ring
  | _ => exact ⟨0, by simp [RealNum.unwrap]⟩

@[simp] theorem RealNum.sin_unwrap (x : RealNum) : Real.sin x.unwrap.toReal = Real.sin x.toReal := by
  obtain ⟨k, hk⟩ := x.toReal_unwrap
  rw [hk, Real.sin_add_int_mul_two_pi]

/-- Numbers that differ by a multiple of `2 * pi` wrap to the same number. -/
theorem wrapReal_add_int (p : ℝ) (k : ℤ) : wrapReal (p + k * (2 * Real.pi)) = wrapReal p := by
  have h := wrapReal_mem p
  refine (wrapReal_unique (⌊(Real.pi - p) / (2 * Real.pi)⌋ - k) ?_ h.1 h.2).symm
  unfold wrapReal
  push_cast
  ring

@[simp] theorem RealNum.wrapReal_unwrap (x : RealNum) : wrapReal x.unwrap.toReal = wrapReal x.toReal := by
  obtain ⟨k, hk⟩ := x.toReal_unwrap
  rw [hk, wrapReal_add_int]

theorem sin_halfTurns (b : Rat) : Real.sin ((halfTurns b : ℝ) * Real.pi) = Real.sin ((b : ℝ) * Real.pi) := by
  unfold halfTurns
  push_cast
  rw [show ((b : ℝ) + 2 * ((((1 - b) / 2).floor : ℤ) : ℝ)) * Real.pi
    = (b : ℝ) * Real.pi + ((((1 - b) / 2).floor : ℤ) : ℝ) * (2 * Real.pi) by ring, Real.sin_add_int_mul_two_pi]

theorem toReal_sinQuarter (r : Rat) : (sinQuarter r).toReal = Real.sin ((r : ℝ) * Real.pi) := by
  have key : ∀ u : Rat, (if u = 0 then RealNum.zero else if u = 1 / 2 then .lin 1 0 else
      if u = 1 / 6 then .lin (1 / 2) 0 else .sine (.lin 0 u)).toReal = Real.sin ((u : ℝ) * Real.pi) := by
    intro u
    split_ifs with h1 h2 h3
    · simp [h1]
    · rw [h2]; simp [RealNum.toReal]
      rw [show (2⁻¹ : ℝ) * Real.pi = Real.pi / 2 by ring, Real.sin_pi_div_two]
    · rw [h3]; simp [RealNum.toReal]
      rw [show (6⁻¹ : ℝ) * Real.pi = Real.pi / 6 by ring, Real.sin_pi_div_six]; norm_num
    · simp [RealNum.toReal]
  unfold sinQuarter
  rw [key]
  split_ifs with h
  · push_cast
    rw [show (1 - (r : ℝ)) * Real.pi = Real.pi - (r : ℝ) * Real.pi by ring, Real.sin_pi_sub]
  · rfl

theorem toReal_sinHalfTurns (r : Rat) : (sinHalfTurns r).toReal = Real.sin ((r : ℝ) * Real.pi) := by
  unfold sinHalfTurns
  split_ifs with h
  · rw [RealNum.toReal_scale, toReal_sinQuarter]; push_cast
    rw [show -(r : ℝ) * Real.pi = -((r : ℝ) * Real.pi) by ring, Real.sin_neg]; ring
  · exact toReal_sinQuarter r

@[simp] theorem RealNum.toReal_sin (x : RealNum) : x.sin.toReal = Real.sin x.toReal := by
  rw [← RealNum.sin_unwrap]
  unfold RealNum.sin
  split
  · rename_i a b hx
    rw [hx]
    split_ifs with h
    · simp [toReal_sinHalfTurns, sin_halfTurns, h, RealNum.toReal]
    · rfl
  · rfl

theorem toReal_quarter : (RealNum.lin 0 (1 / 2)).toReal = Real.pi / 2 := by
  simp [RealNum.toReal]; ring

@[simp] theorem RealNum.toReal_cos (x : RealNum) : x.cos.toReal = Real.cos x.toReal := by
  simp only [RealNum.cos, toReal_sin, toReal_add, toReal_quarter, Real.sin_add_pi_div_two]

@[simp] theorem RealNum.toReal_clip (x : RealNum) : x.clip.toReal = clipReal x.toReal := by
  unfold RealNum.clip
  split
  · next e he =>
    have h := x.enc_has e he
    split_ifs with h1 h2 h3
    · have : (e.hi : ℝ) < -1 := by exact_mod_cast h1
      have hx : x.toReal < -1 := h.2.trans_lt this
      simp [RealNum.toReal, clipReal, hx]
    · have : (1 : ℝ) < e.lo := by exact_mod_cast h2
      have hx : 1 < x.toReal := this.trans_le h.1
      simp [RealNum.toReal, clipReal, hx]
      intro; linarith
    · have t1 : (-1 : ℝ) ≤ e.lo := by exact_mod_cast h3.1
      have t2 : (e.hi : ℝ) ≤ 1 := by exact_mod_cast h3.2
      exact (clipReal_of_mem (t1.trans h.1) (h.2.trans t2)).symm
    · rfl
  · rfl

@[simp] theorem RealNum.toReal_wrap (x : RealNum) : x.wrap.toReal = wrapReal x.toReal := by
  rw [← RealNum.wrapReal_unwrap]
  unfold RealNum.wrap
  generalize x.unwrap = y
  dsimp only
  split
  · next e he =>
    have h := RealNum.enc_has _ e he
    split_ifs with h1
    · have hq : (RealNum.div (RealNum.sub (.lin 0 1) y) (.lin 0 2)).toReal = (Real.pi - y.toReal) / (2 * Real.pi) := by
        simp [RealNum.toReal]
      rw [hq] at h
      have hf : ⌊(Real.pi - y.toReal) / (2 * Real.pi)⌋ = e.lo.floor := by
        apply le_antisymm
        · rw [h1, ← real_floor_cast]; exact Int.floor_le_floor h.2
        · rw [← real_floor_cast]; exact Int.floor_le_floor h.1
      simp only [toReal_add, wrapReal, hf]
      simp [RealNum.toReal]; ring
    · rfl
  · rfl

/-! ### Truncation -/

theorem truncRat_cast (q : Rat) : truncReal (q : ℝ) = truncRat q := by
  unfold truncReal truncRat
  have h : (0 ≤ (q : ℝ)) ↔ 0 ≤ q := by exact_mod_cast Iff.rfl
  simp only [h]
  split_ifs
  · exact real_floor_cast q
  · rw [← real_floor_cast]; simp

theorem truncReal_mono {u v : ℝ} (h : u ≤ v) : truncReal u ≤ truncReal v := by
  unfold truncReal
  split_ifs with h1 h2 h2
  · exact Int.floor_le_floor h
  · linarith
  · have : 0 ≤ ⌊v⌋ := Int.floor_nonneg.2 h2
    have : 0 ≤ ⌊-u⌋ := Int.floor_nonneg.2 (by linarith)
    omega
  · have : ⌊-v⌋ ≤ ⌊-u⌋ := Int.floor_le_floor (by linarith)
    omega

/-- The byte is that of the real number's truncation, whether the enclosure decides it or not. -/
@[simp] theorem RealNum.toByte_truncByte (x : RealNum) : x.truncByte.toByte = int8 (truncReal x.toReal) := by
  unfold RealNum.truncByte
  split
  · next e he =>
    split_ifs with h
    · have hh := x.enc_has e he
      have h1 := truncReal_mono hh.1
      have h2 := truncReal_mono hh.2
      rw [truncRat_cast] at h1 h2
      rw [IQByte.toByte, show truncReal x.toReal = truncRat e.lo by omega]
    · rfl
  · rfl

/-- Every rational number's truncation is decided. -/
theorem RealNum.truncByte_ofRat (q : Rat) : (RealNum.ofRat q).truncByte = .known (int8 (truncRat q)) := by
  simp [RealNum.truncByte, RealNum.ofRat, RealNum.enc, Enc.lin, Enc.point]

/-! ### The wrap of a build -/

theorem numPi_pos : 0 < Config.numPi := by unfold Config.numPi; positivity

theorem buildReduce_mem (x : RealNum) : inBuildPi (buildReduce x) := by
  unfold buildReduce
  split_ifs with h
  · exact h
  · exact ⟨by linarith [numPi_pos], le_rfl⟩

/-- A build's wrap stays in `(-PI, PI]`. -/
theorem buildWrap_mem (x : RealNum) : inBuildPi (buildWrap x) := by
  unfold buildWrap
  split
  · split_ifs with h
    · exact h.2
    · exact buildReduce_mem _
  · exact buildReduce_mem _

/-- A build's wrap is the identity on `(-PI, PI]`. -/
theorem buildWrap_of_mem {p : Rat} (h : inBuildPi p) : buildWrap (.ofRat p) = p := by
  simp only [buildWrap, RealNum.ofRat]
  rw [if_pos ⟨trivial, h⟩]

end Sys2Proof
end

