-- ==== Sys2Proof/Laws/Numbers.lean ====
section
/-! SUPPORT. Laws/Numbers.lean: which values lie in `[-1, 1]`, that the quantiser answers on those, and what the numbers
of each stage denote over exact arithmetic. -/

namespace Sys2Proof

/-! ### In `[-1, 1]` -/

theorem clipRat_mem (q : Rat) : -1 ≤ clipRat q ∧ clipRat q ≤ 1 := by
  unfold clipRat; split_ifs <;> constructor <;> linarith

theorem clipRat_of_mem {q : Rat} (h1 : -1 ≤ q) (h2 : q ≤ 1) : clipRat q = q := by
  unfold clipRat; rw [if_neg (by linarith), if_neg (by linarith)]

theorem RealNum.inUnit_iff {x : RealNum} : x.inUnit = true ↔ ∃ e, x.enc = some e ∧ -1 ≤ e.lo ∧ e.hi ≤ 1 := by
  unfold RealNum.inUnit
  cases x.enc <;> simp

theorem RealNum.enc_rat (q : Rat) : (RealNum.lin q 0).enc = some ⟨q, q⟩ := by
  simp [RealNum.enc, Enc.lin, Enc.point]

theorem RealNum.inUnit_rat {q : Rat} : (RealNum.lin q 0).inUnit = true ↔ -1 ≤ q ∧ q ≤ 1 := by
  simp [RealNum.inUnit_iff, RealNum.enc_rat]

theorem RealNum.inUnit_zero : RealNum.zero.inUnit = true := RealNum.inUnit_rat.2 (by norm_num)

/-- A value the enclosure shows to lie in `[-1, 1]` lies there. -/
theorem RealNum.inUnit_toReal {x : RealNum} (h : x.inUnit = true) : -1 ≤ x.toReal ∧ x.toReal ≤ 1 := by
  obtain ⟨e, he, h1, h2⟩ := RealNum.inUnit_iff.1 h
  have := RealNum.enc_has x e he
  have h1' : ((-1 : Rat) : ℝ) ≤ (e.lo : ℝ) := by exact_mod_cast h1
  have h2' : (e.hi : ℝ) ≤ ((1 : Rat) : ℝ) := by exact_mod_cast h2
  push_cast at h1' h2'
  exact ⟨h1'.trans this.1, this.2.trans h2'⟩

theorem RealNum.inUnit_sine (x : RealNum) : (RealNum.sine x).inUnit = true := by
  rw [RealNum.inUnit_iff]
  simp only [RealNum.enc]
  cases x.enc with
  | none => exact ⟨_, rfl, le_rfl, le_rfl⟩
  | some u => exact ⟨_, rfl, (clipRat_mem _).1, (clipRat_mem _).2⟩

/-- An integer is on the grid of the enclosures. -/
theorem roundDown_int (k : ℤ) : roundDown (k : Rat) = k := by
  unfold roundDown encScale
  rw [rat_floor_eq, show ((k : Rat) * 1208925819614629174706176) = ((k * 1208925819614629174706176 : ℤ) : Rat) by push_cast; ring,
    Int.floor_intCast]
  push_cast
  field_simp

theorem roundDown_mono {a b : Rat} (h : a ≤ b) : roundDown a ≤ roundDown b := by
  unfold roundDown
  have h0 := encScale_pos
  rw [rat_floor_eq, rat_floor_eq]
  have : ⌊a * encScale⌋ ≤ ⌊b * encScale⌋ := Int.floor_le_floor (by nlinarith)
  have : ((⌊a * encScale⌋ : ℤ) : Rat) ≤ ((⌊b * encScale⌋ : ℤ) : Rat) := by exact_mod_cast this
  gcongr

/-- Rounding outward to the grid keeps an interval between two integers between them. -/
theorem widen_between {e : Enc} {a b : ℤ} (h1 : (a : Rat) ≤ e.lo) (h2 : e.hi ≤ b) :
    (a : Rat) ≤ e.widen.lo ∧ e.widen.hi ≤ b := by
  constructor
  · have := roundDown_mono h1
    rwa [roundDown_int] at this
  · have h : (((-b : ℤ)) : Rat) ≤ -e.hi := by push_cast; linarith
    have := roundDown_mono h
    rw [roundDown_int] at this
    push_cast at this
    simp only [Enc.widen, roundUp]
    linarith

/-- The opposite of a value in `[-1, 1]` lies there. -/
theorem RealNum.inUnit_neg_sine (x : RealNum) : (RealNum.scale (-1) 0 (.sine x)).inUnit = true := by
  obtain ⟨e, he, h1, h2⟩ := RealNum.inUnit_iff.1 (RealNum.inUnit_sine x)
  have hh := RealNum.enc_has _ e he
  have hle : e.lo ≤ e.hi := by exact_mod_cast hh.1.trans hh.2
  have := widen_between (e := (Enc.point (-1)).mul e) (a := -1) (b := 1)
    (by simp only [Enc.mul, Enc.point, le_min_iff]; push_cast; refine ⟨⟨?_, ?_⟩, ?_, ?_⟩ <;> linarith)
    (by simp only [Enc.mul, Enc.point, max_le_iff]; push_cast; refine ⟨⟨?_, ?_⟩, ?_, ?_⟩ <;> linarith)
  push_cast at this
  rw [RealNum.inUnit_iff]
  refine ⟨((Enc.point (-1)).mul e).widen, ?_, this⟩
  have hs : RealNum.scale (-1) 0 (.sine x) = .prod (.lin (-1) 0) (.sine x) := by
    simp [RealNum.scale, RealNum.scaleTerm, RealNum.split, RealNum.term]
    norm_num
  rw [hs]
  simp only [RealNum.enc] at he ⊢
  rw [he]
  simp [Enc.lin]

theorem inUnit_sinQuarter (r : Rat) :
    (sinQuarter r).inUnit = true ∧ (RealNum.scale (-1) 0 (sinQuarter r)).inUnit = true := by
  unfold sinQuarter
  dsimp only
  generalize (if 1 / 2 < r then 1 - r else r) = u
  split_ifs
  · exact ⟨by decide +kernel, by decide +kernel⟩
  · exact ⟨by decide +kernel, by decide +kernel⟩
  · exact ⟨by decide +kernel, by decide +kernel⟩
  · exact ⟨RealNum.inUnit_sine _, RealNum.inUnit_neg_sine _⟩

theorem inUnit_sinHalfTurns (r : Rat) : (sinHalfTurns r).inUnit = true := by
  unfold sinHalfTurns
  split_ifs
  · exact (inUnit_sinQuarter _).2
  · exact (inUnit_sinQuarter _).1

/-- Every sine lies in `[-1, 1]` by its enclosure. -/
theorem RealNum.inUnit_sin (x : RealNum) : x.sin.inUnit = true := by
  unfold RealNum.sin
  split
  · split_ifs
    · exact inUnit_sinHalfTurns _
    · exact RealNum.inUnit_sine _
  · exact RealNum.inUnit_sine _

/-- Every cosine lies in `[-1, 1]` by its enclosure. -/
theorem RealNum.inUnit_cos (x : RealNum) : x.cos.inUnit = true := RealNum.inUnit_sin _

/-- Every clipped value lies in `[-1, 1]` by its enclosure. -/
theorem RealNum.inUnit_clip (x : RealNum) : x.clip.inUnit = true := by
  have hc : (RealNum.clamp x).inUnit = true := by
    rw [RealNum.inUnit_iff]
    simp only [RealNum.enc]
    cases x.enc with
    | none => exact ⟨_, rfl, le_rfl, le_rfl⟩
    | some u => exact ⟨_, rfl, (clipRat_mem _).1, (clipRat_mem _).2⟩
  unfold RealNum.clip
  cases he : x.enc with
  | none => exact hc
  | some e =>
    simp only
    split_ifs with h1 h2 h3
    · exact RealNum.inUnit_rat.2 (by norm_num)
    · exact RealNum.inUnit_rat.2 (by norm_num)
    · exact RealNum.inUnit_iff.2 ⟨e, he, h3⟩
    · exact hc

/-- The sine and the cosine of every number format lie in `[-1, 1]` (00_scope.md rule R9). -/
theorem NumFormat.inUnit_of (n : NumSel) (x : RealNum) :
    ((NumFormat.of n).sin x).inUnit = true ∧ ((NumFormat.of n).cos x).inUnit = true := by
  cases n with
  | reference => exact ⟨RealNum.inUnit_sin x, RealNum.inUnit_cos x⟩
  | build => exact ⟨RealNum.inUnit_rat.2 (clipRat_mem _), RealNum.inUnit_rat.2 (clipRat_mem _)⟩

namespace Machine

theorem amPairs_inUnit (f : NumFormat) (g : Rat) (xs : List RealNum) : ∀ v ∈ amPairs f g xs, v.inUnit = true := by
  induction xs with
  | nil => simp [amPairs]
  | cons x xs ih =>
    simp only [amPairs, List.mem_cons, forall_eq_or_imp]
    exact ⟨RealNum.inUnit_clip _, RealNum.inUnit_zero, ih⟩

theorem fmPairs_inUnit (n : NumSel) (scale : RealNum) (g : Rat) (p : RealNum) (xs : List RealNum) :
    ∀ v ∈ (fmPairs (NumFormat.of n) scale g p xs).2, v.inUnit = true := by
  induction xs generalizing p with
  | nil => simp [fmPairs]
  | cons x xs ih =>
    simp only [fmPairs, List.mem_cons, forall_eq_or_imp]
    exact ⟨(NumFormat.inUnit_of n _).1, (NumFormat.inUnit_of n _).2, ih _⟩

/-! ### The quantiser -/

/-- The integer of a value in `[-1, 1]` lies in `-127 .. 127`. -/
theorem truncReal_127 {v : ℝ} (h1 : -1 ≤ v) (h2 : v ≤ 1) : -127 ≤ truncReal (v * 127) ∧ truncReal (v * 127) ≤ 127 := by
  have e1 : truncReal (-127) = -127 := by
    have := truncRat_cast (-127); push_cast at this; rw [this]; decide +kernel
  have e2 : truncReal 127 = 127 := by
    have := truncRat_cast 127; push_cast at this; rw [this]; decide +kernel
  constructor
  · rw [← e1]; exact truncReal_mono (by linarith)
  · rw [← e2]; exact truncReal_mono (by linarith)

/-- The signed value of the byte of a small integer is that integer. -/
theorem int8_toInt {q : ℤ} (h1 : -128 ≤ q) (h2 : q ≤ 127) : (int8 q).toInt = q := by
  unfold int8
  rw [BitVec.toInt_ofInt, Int.bmod_eq_of_le] <;> norm_num <;> omega

/-- On a value in `[-1, 1]` the quantiser answers. -/
theorem quantByte_of_inUnit {f : NumFormat} {v : RealNum} (h : v.inUnit = true) :
    quantByte f v = some (quantValue f v) := by
  unfold quantByte
  rw [if_pos h]

/-- Over exact arithmetic the quantiser's byte is that of `trunc(v * 127)`. -/
theorem toByte_quantValue (v : RealNum) : (quantValue .reference v).toByte = int8 (truncReal (v.toReal * 127)) := by
  simp [quantValue, NumFormat.reference]

theorem buildTrunc_bounds (x : RealNum) : -127 ≤ buildTrunc x ∧ buildTrunc x ≤ 127 := by
  unfold buildTrunc
  split_ifs with h
  · exact h
  · omega

/-- In every number format the quantiser's byte of a value in `[-1, 1]` is an integer in `-127 .. 127`. -/
theorem quantValue_bounds (n : NumSel) {v : RealNum} (h : v.inUnit = true) :
    -127 ≤ (quantValue (.of n) v).toByte.toInt ∧ (quantValue (.of n) v).toByte.toInt ≤ 127 := by
  cases n with
  | reference =>
    have hv := RealNum.inUnit_toReal h
    have hb := truncReal_127 hv.1 hv.2
    show -127 ≤ (quantValue .reference v).toByte.toInt ∧ (quantValue .reference v).toByte.toInt ≤ 127
    rw [toByte_quantValue, int8_toInt (by omega) (by omega)]
    exact hb
  | build =>
    have key : ∀ x, -127 ≤ (int8 (buildTrunc x)).toInt ∧ (int8 (buildTrunc x)).toInt ≤ 127 := by
      intro x
      have hb := buildTrunc_bounds x
      rw [int8_toInt (by omega) (by omega)]
      exact hb
    exact key _

/-! ### What the stages' numbers denote over exact arithmetic -/

theorem toReal_resampleAt_last (f : NumFormat) (carry : RealNum) (x : Nat → RealNum) (n m : Nat) (h : 0 < m) :
    resampleAt f carry x n m (m - 1) = x (n - 1) := by
  unfold resampleAt; rw [if_pos (by omega)]

theorem toReal_resampleAt (carry : RealNum) (x : Nat → RealNum) {n m j : Nat} (h : j + 1 < m) :
    (resampleAt .reference carry x n m j).toReal =
      (let q := (j + 1) * n
       let a := if q / m = 0 then carry.toReal else (x (q / m - 1)).toReal
       a + ((q % m : Nat) : ℝ) / m * ((x (q / m)).toReal - a)) := by
  unfold resampleAt
  rw [if_neg (by omega)]
  simp only [NumFormat.reference, RealNum.toReal_add, RealNum.toReal_mul, RealNum.toReal_sub, RealNum.toReal_ofRat]
  push_cast
  by_cases hq : (j + 1) * n / m = 0 <;> simp [hq]

theorem toReal_average (l r : RealNum) : (average .reference l r).toReal = (l.toReal + r.toReal) / 2 := by
  simp [average, NumFormat.reference]

theorem toReal_amSample (g : Rat) (x : RealNum) :
    (amSample .reference g x).toReal = clipReal (x.toReal * g + 1 / 2) := by
  simp [amSample, NumFormat.reference]

theorem toReal_phaseScale (dev t : Nat) :
    (phaseScale .reference dev t).toReal = 2 * Real.pi * dev / t := by
  simp [phaseScale, NumFormat.reference, RealNum.toReal]

theorem toReal_fmPhase (scale : RealNum) (g : Rat) (p x : RealNum) :
    (fmPhase .reference scale g p x).toReal = wrapReal (p.toReal + scale.toReal * clipReal (x.toReal * g)) := by
  simp [fmPhase, NumFormat.reference]

theorem toReal_pilotTone (t : Nat) (p : Rat) :
    (pilotTone .reference (pilotTime .reference t p)).toReal = Real.sin (2 * Real.pi * 19000 * ((p : ℝ) / t)) := by
  simp [pilotTone, pilotTime, NumFormat.reference, RealNum.toReal]

theorem toReal_subcarrier (t : Nat) (p : Rat) :
    (subcarrier .reference (pilotTime .reference t p)).toReal = Real.sin (4 * Real.pi * 19000 * ((p : ℝ) / t)) := by
  simp [subcarrier, pilotTime, NumFormat.reference, RealNum.toReal]

theorem toReal_mpxSample (t : Nat) (p : Rat) (l r : RealNum) :
    (mpxSample .reference t p l r).toReal =
      9 / 10 * ((l.toReal + r.toReal) / 2 + (l.toReal - r.toReal) / 2 *
        Real.sin (4 * Real.pi * 19000 * ((p : ℝ) / t))) +
      1 / 10 * Real.sin (2 * Real.pi * 19000 * ((p : ℝ) / t)) := by
  have h1 := toReal_subcarrier t p
  have h2 := toReal_pilotTone t p
  unfold mpxSample
  simp only [NumFormat.reference] at h1 h2 ⊢
  simp [h1, h2]

end Machine

end Sys2Proof
end

