-- ==== Sys2Proof/Laws/PerInstr.lean ====
section
/-! SUPPORT. Laws/PerInstr.lean: statements about every operation as syntax, one lemma for each constructor. -/

namespace Sys2Proof.Laws.AgentOfEncoding

/-- The word of an operation is presented at a port of the agent that the operation belongs to: the column "agent" of
spec/opcode_table.json (60_exceptions.md rule R271). -/
def Statement : Instr → Prop := fun i => (encode i).port.agent = i.agent

theorem nop : Statement .nop := rfl
theorem chunk : Statement .chunk := rfl
theorem srst : Statement .srst := rfl
theorem deq (len : Word32) : Statement (.deq len) := rfl
theorem resamp (sel : Sel) (c : Chan) : Statement (.resamp sel c) := rfl
theorem pre50 (sel : Sel) (c : Chan) : Statement (.pre50 sel c) := rfl
theorem pre75 (sel : Sel) (c : Chan) : Statement (.pre75 sel c) := rfl
theorem preByp (sel : Sel) (c : Chan) : Statement (.preByp sel c) := rfl
theorem mixMono (sel : Sel) : Statement (.mixMono sel) := rfl
theorem mixAvg (sel : Sel) : Statement (.mixAvg sel) := rfl
theorem mixMpx (sel : Sel) : Statement (.mixMpx sel) := rfl
theorem modWfm (sel : Sel) : Statement (.modWfm sel) := rfl
theorem modNfm (sel : Sel) : Statement (.modNfm sel) := rfl
theorem modAm (sel : Sel) : Statement (.modAm sel) := rfl
theorem quant (sel : Sel) : Statement (.quant sel) := rfl
theorem enq (sel : Sel) : Statement (.enq sel) := rfl

end Sys2Proof.Laws.AgentOfEncoding
end

