-- ==== Sys2Proof/Laws/Step.lean ====
section
/-! SUPPORT. Laws/Step.lean: what a step can do, once: the case analysis behind every invariant. -/

namespace Sys2Proof.Machine

/-- What every update of a step keeps, every step keeps: one premise for each update a step can make. -/
theorem step_induction (P : State → Prop) {s t : State} (hstep : step s = .next t) (h0 : P s)
    (hpop : ∀ s, P s → P (popTurn s)) (hpopH : ∀ s, P s → P (popHost s))
    (hreset : ∀ s, P s → P (resetEvent s))
    (hfault : ∀ s f, P s → P (raiseFault f s))
    (hlatch : ∀ s, s.busy = false → chunkFault s = none → P s → P (latchChunk s))
    (hack : ∀ s v, P s → P (acknowledge v s))
    (hcfg : ∀ s v, P s → P { s with cfg := legalCfg v })
    (hcn : ∀ s v, s.busy = false → P s → P { s with chunkN := v })
    (hcr : ∀ s v, s.busy = false → P s → P { s with chunkRate := v })
    (hcc : ∀ s v, s.busy = false → P s → P { s with chunkCh := v })
    (hrd : ∀ s v, P s → P { s with env := { s.env with rdata := v } })
    (hin : ∀ s c i v, s.busy = false → i < s.env.par.nMax → P s → P (writeIn c i v s))
    (hdeq : ∀ s, 0 < s.count → P s → P (dequeueBlock s))
    (hund : ∀ s, s.count = 0 → P s → P (underrun s))
    (hprod : ∀ s t k i, s.stage = some k → decodeSel k s.sel = .ok i → exec i s = .next t → P s → P t) : P t := by
  rcases step_cases s with ⟨w, i, hf, hd, e⟩ | ⟨w, er, hf, hd, e⟩ | ⟨hf, e⟩
  · rw [e] at hstep
    rcases fetch_cases hf with ⟨ts, q, off, bytes, v, hs, hq, hc, hb, rfl, e2⟩ |
      ⟨ts, k, hs, hk, rfl, e2⟩ | ⟨ts, len, hs, rfl, e2⟩
    · rw [e2] at hstep
      have hP : P (popHost (popTurn s)) := hpopH _ (hpop _ h0)
      have hb' : (popHost (popTurn s)).busy = false := hb
      simp only [decode] at hd
      rcases decodeCommand_cases v with ⟨_, g⟩ | ⟨_, g⟩ | ⟨_, g⟩ | ⟨_, _, _, g⟩ <;> rw [g] at hd <;> cases hd
      · simp only [exec, execNop, whenIdle_idle hb'] at hstep; cases hstep; exact hP
      · simp only [exec, execChunk, whenIdle_idle hb'] at hstep; cases hstep
        rcases acceptChunk_cases (popHost (popTurn s)) with ⟨f, _, g⟩ | ⟨g1, g⟩ <;> rw [g]
        · exact hfault _ _ hP
        · exact hlatch _ hb' g1 hP
      · simp only [exec, execSrst, whenIdle_idle hb'] at hstep; cases hstep; exact hreset _ hP
    · rw [e2] at hstep
      exact hprod (popTurn s) t k i hk hd hstep (hpop _ h0)
    · rw [e2] at hstep
      cases hd
      rcases execDeq_next hstep with ⟨_, ⟨h, rfl⟩ | ⟨h, rfl⟩⟩
      · exact hdeq _ h (hpop _ h0)
      · exact hund _ h (hpop _ h0)
  · rw [e] at hstep
    obtain ⟨_, rfl⟩ := rejectWord_next hstep
    apply hfault
    rcases fetch_cases hf with ⟨ts, q, off, bytes, v, hs, hq, hc, hb, rfl, e2⟩ |
      ⟨ts, k, hs, hk, rfl, e2⟩ | ⟨ts, len, hs, rfl, e2⟩ <;> rw [e2]
    · exact hpopH _ (hpop _ h0)
    · exact hpop _ h0
    · exact hpop _ h0
  · rw [e] at hstep
    rcases otherMove_next hstep with rfl | ⟨ts, hs, h⟩ | rfl | rfl
    · exact h0
    · have hP := hpopH _ (hpop _ h0)
      rcases hostAccess_next h with rfl | ⟨o, b, v, h⟩ | ⟨o, b, h⟩ | ⟨c, i, v, h⟩
      · exact hpop _ h0
      · rcases regWrite_next h with rfl | rfl | rfl | ⟨hb, rfl | rfl | rfl⟩ | ⟨c, i, w, h⟩
        · exact hP
        · exact hack _ _ hP
        · exact hcfg _ _ hP
        · exact hcn _ _ hb hP
        · exact hcr _ _ hb hP
        · exact hcc _ _ hb hP
        · obtain ⟨k, x, _, _, hi, hb, rfl⟩ := sampleLoad_next h
          exact hin _ _ _ _ hb hi hP
      · rw [regRead_next h]; exact hrd _ _ hP
      · obtain ⟨k, x, _, _, hi, hb, rfl⟩ := sampleLoad_next h
        exact hin _ _ _ _ hb hi hP
    · exact hpop _ h0
    · exact hreset _ (hpop _ h0)

/-- What the operation that the chunk's slot selects can do, for each slot. -/
theorem producer_cases {k : Slot} {i : Instr} {s t : State} (hd : decodeSel k s.sel = .ok i)
    (h : exec i s = .next t) :
  (∃ c, k = .resamp c ∧ i = .resamp s.sel c ∧ 4 ≤ s.ln.toNat ∧ s.ln.toNat ≤ s.env.par.nMax ∧ 1 ≤ s.lm ∧
    t = advance (.resamp c) (resampleChannel c s)) ∨
  (∃ c, k = .pre c ∧ ((∃ p, t = advance (.pre c) (filterChannel p c s)) ∨ t = advance (.pre c) s)) ∨
  (k = .mix ∧ s.lch ≠ 2#2 ∧ t = advance .mix { s with sig := s.buf.ch0 }) ∨
  (k = .mix ∧ s.lch = 2#2 ∧
    t = advance .mix { s with sig := List.zipWith (average s.format) s.buf.ch0 s.buf.ch1 }) ∨
  (k = .mix ∧ s.lch = 2#2 ∧
    t = advance .mix { s with pilot := (mpx s.format s.rate s.pilot s.buf.ch0 s.buf.ch1).1,
                              sig := (mpx s.format s.rate s.pilot s.buf.ch0 s.buf.ch1).2 }) ∨
  (k = .mod ∧ ∃ dev, t = advance .mod (modulateFm dev s)) ∨
  (k = .mod ∧ t = advance .mod { s with iq := amPairs s.format (gainFactor s.lcfg) s.sig }) ∨
  (k = .quant ∧ ∃ bs, quantBytes s.format s.iq = some bs ∧ t = advance .quant (handOver bs s)) ∨
  (k = .enq ∧ t = enqStep s) := by
  have hwf := decodeSel_wellFormed hd
  have he := (decodeSel_slot hd).2
  have hch := (sel_fields s).2.2
  cases i <;> simp only [encode, OpWord.s.injEq, reduceCtorEq] at he <;> obtain ⟨rfl, rfl⟩ := he <;> simp only [exec] at h
  · have := execResamp_next h; exact .inl ⟨_, rfl, rfl, this⟩
  · cases h; exact .inr (.inl ⟨_, rfl, .inl ⟨_, rfl⟩⟩)
  · cases h; exact .inr (.inl ⟨_, rfl, .inl ⟨_, rfl⟩⟩)
  · cases h; exact .inr (.inl ⟨_, rfl, .inr rfl⟩)
  · cases h
    refine .inr (.inr (.inl ⟨rfl, ?_, rfl⟩))
    simp only [Instr.wellFormed, Sel.isMono, hch, State.stereoChunk] at hwf; simpa using hwf
  · cases h
    refine .inr (.inr (.inr (.inl ⟨rfl, ?_, rfl⟩)))
    simp only [Instr.wellFormed, Sel.isAvg, hch, State.stereoChunk] at hwf; simp at hwf; exact hwf.1
  · cases h
    refine .inr (.inr (.inr (.inr (.inl ⟨rfl, ?_, rfl⟩))))
    simp only [Instr.wellFormed, Sel.isMpx, hch, State.stereoChunk] at hwf; simp at hwf; exact hwf.1.1
  · cases h; exact .inr (.inr (.inr (.inr (.inr (.inl ⟨rfl, _, rfl⟩)))))
  · cases h; exact .inr (.inr (.inr (.inr (.inr (.inl ⟨rfl, _, rfl⟩)))))
  · cases h; exact .inr (.inr (.inr (.inr (.inr (.inr (.inl ⟨rfl, rfl⟩))))))
  · exact .inr (.inr (.inr (.inr (.inr (.inr (.inr (.inl ⟨rfl, execQuant_next h⟩)))))))
  · cases h; exact .inr (.inr (.inr (.inr (.inr (.inr (.inr (.inr ⟨rfl, rfl⟩)))))))

end Sys2Proof.Machine
end

