-- ==== Sys2Proof/Tests/Slice0.lean ====
section
/-! SUPPORT. Tests/Slice0.lean: the author's own tests. Expected results are the vectors of 95_test_vectors.md, named in
each test's comment, or words written out from the encodings of 30_encoding.md. The last part shows, for each statement
of Obligations.lean that has hypotheses, a state and operands that meet them. -/

namespace Sys2Proof.Tests

-- one theorem at a time: each one elaborated beside the others costs a thread with a stack of its own
set_option Elab.async false

open Sys2Proof Sys2Proof.Machine

/-! ### Ill-formed terms, one for each check -/

/-- Channel 1 of a chunk with `CH2 = 0`, for each operation that has a channel. -/
theorem test_wellFormed_needs_the_channel :
    (Instr.resamp 0b011010#6 .ch1).wellFormed = false ∧ (Instr.pre50 0b010000#6 .ch1).wellFormed = false ∧
    (Instr.pre75 0b010100#6 .ch1).wellFormed = false ∧ (Instr.preByp 0b011000#6 .ch1).wellFormed = false := by decide

/-- A pre-emphasis variant on a word of another setting: each "condition in words" refuses its two near misses. -/
theorem test_wellFormed_pre :
    (Instr.pre50 0b000100#6 .ch0).wellFormed = false ∧ (Instr.pre50 0b000010#6 .ch0).wellFormed = false ∧
    (Instr.pre75 0b000000#6 .ch0).wellFormed = false ∧ (Instr.pre75 0b000110#6 .ch0).wellFormed = false ∧
    (Instr.preByp 0b000000#6 .ch0).wellFormed = false ∧ (Instr.preByp 0b000101#6 .ch0).wellFormed = false := by decide

/-- A mixer variant on a word of another setting. -/
theorem test_wellFormed_mix :
    (Instr.mixMono 0b100000#6).wellFormed = false ∧ (Instr.mixAvg 0b110000#6).wellFormed = false ∧
    (Instr.mixAvg 0b000000#6).wellFormed = false ∧ (Instr.mixMpx 0b110001#6).wellFormed = false ∧
    (Instr.mixMpx 0b100000#6).wellFormed = false ∧ (Instr.mixMpx 0b010000#6).wellFormed = false := by decide

/-- A modulator variant on a word of another mode. -/
theorem test_wellFormed_mod :
    (Instr.modWfm 0b000001#6).wellFormed = false ∧ (Instr.modNfm 0b000010#6).wellFormed = false ∧
    (Instr.modAm 0b000000#6).wellFormed = false := by decide

/-! ### Decoding: words written out from 30_encoding.md -/

/-- Format K (rule R91): `op` in bits 3:0, bits 31:4 zero, as the bytes HOST stores, the lowest address first. -/
theorem test_decode_commands :
    decodeBytes .cmd [0x00#8, 0x00#8, 0x00#8, 0x00#8] = .ok .nop ∧
    decodeBytes .cmd [0x01#8, 0x00#8, 0x00#8, 0x00#8] = .ok .chunk ∧
    decodeBytes .cmd [0x02#8, 0x00#8, 0x00#8, 0x00#8] = .ok .srst := by decide

/-- Format T (rule R92): the 32-bit byte count, here 262144 and 16. -/
theorem test_decode_requests :
    decodeBytes .request [0x00#8, 0x00#8, 0x04#8, 0x00#8] = .ok (.deq 262144#32) ∧
    decodeBytes .request [0x10#8, 0x00#8, 0x00#8, 0x00#8] = .ok (.deq 16#32) := by decide

/-- Slots 1, 5 and 6 take every selection word (rule R96): `CH2 STEREO TAU MODE` = `1 1 01 01`. -/
theorem test_decode_slots_without_a_choice :
    decodeBytes (.slot (.resamp .ch1)) [0b00110101#8] = .ok (.resamp 0b110101#6 .ch1) ∧
    decodeBytes (.slot .quant) [0b00110101#8] = .ok (.quant 0b110101#6) ∧
    decodeBytes (.slot .enq) [0b00110101#8] = .ok (.enq 0b110101#6) := by decide

/-- Slot 2 (rule R96; V-CM-4): `xx000x`, `xx010x`, `xx10xx`, `xxxx10`. -/
theorem test_decode_pre :
    decodeBytes (.slot (.pre .ch0)) [0b00010000#8] = .ok (.pre50 0b010000#6 .ch0) ∧
    decodeBytes (.slot (.pre .ch1)) [0b00110101#8] = .ok (.pre75 0b110101#6 .ch1) ∧
    decodeBytes (.slot (.pre .ch0)) [0b00111000#8] = .ok (.preByp 0b111000#6 .ch0) ∧
    decodeBytes (.slot (.pre .ch0)) [0b00000110#8] = .ok (.preByp 0b000110#6 .ch0) := by decide

/-- Slot 3 (rule R96; V-CM-4): `0xxxxx`, `10xxxx`, `11xx01`, `11xx10`, `11xx00`. -/
theorem test_decode_mix :
    decodeBytes (.slot .mix) [0b00010000#8] = .ok (.mixMono 0b010000#6) ∧
    decodeBytes (.slot .mix) [0b00100000#8] = .ok (.mixAvg 0b100000#6) ∧
    decodeBytes (.slot .mix) [0b00110101#8] = .ok (.mixAvg 0b110101#6) ∧
    decodeBytes (.slot .mix) [0b00110010#8] = .ok (.mixAvg 0b110010#6) ∧
    decodeBytes (.slot .mix) [0b00111000#8] = .ok (.mixMpx 0b111000#6) := by decide

/-- Slot 4 (rule R96; V-CM-4): `xxxx00`, `xxxx01`, `xxxx10`. -/
theorem test_decode_mod :
    decodeBytes (.slot .mod) [0b00110000#8] = .ok (.modWfm 0b110000#6) ∧
    decodeBytes (.slot .mod) [0b00110101#8] = .ok (.modNfm 0b110101#6) ∧
    decodeBytes (.slot .mod) [0b00000110#8] = .ok (.modAm 0b000110#6) := by decide

/-- What is no operation is rejected by name (rules R97, R99). -/
theorem test_decode_rejects :
    decodeBytes .cmd [0x03#8, 0x00#8, 0x00#8, 0x00#8] = .error .reservedCommand ∧
    decodeBytes .cmd [0x01#8, 0x01#8, 0x00#8, 0x00#8] = .error .reservedCommand ∧
    decodeBytes (.slot .mod) [0b00000011#8] = .error .noVariant ∧
    decodeBytes (.slot (.pre .ch0)) [0b00001100#8] = .error .noVariant ∧
    decodeBytes (.slot (.resamp .ch1)) [0b00000000#8] = .error .noSuchChannel ∧
    decodeBytes (.slot .mix) [0b01000000#8] = .error .selectionTooWide ∧
    decodeBytes .cmd [0x01#8] = .error .wrongLength := by decide

/-- The encoder gives the words of the tables. -/
theorem test_encode :
    (encode .chunk).bytes = [0x01#8, 0x00#8, 0x00#8, 0x00#8] ∧
    (encode (.deq 262144#32)).bytes = [0x00#8, 0x00#8, 0x04#8, 0x00#8] ∧
    (encode (.mixMpx 0b111000#6)).bytes = [0b00111000#8] := by decide

/-! ### One step on a small state -/

/-- A rational number. -/
def q (r : Rat) : RealNum := .ofRat r

/-- A known byte. -/
def k (b : Byte) : IQByte := .known b

/-- A unit after reset with the target rate `t` and a ring of `c` blocks of `b` bytes, eight input samples deep, with the
illustrative coefficients of 95_test_vectors.md section 2.3. -/
def unit (t c b : Nat) : State :=
  State.resetIn
    { par := { targetRate := t, nMax := 8, ringC := c, ringB := b, pre50 := ⟨q (3 / 2), q (-1), q (-1 / 2)⟩,
               pre75 := ⟨q 2, q (-3 / 2), q (-1 / 2)⟩, num := .reference }
      hostQ := [], sched := [], rdata := 0, txBytes := [], txRc := 0, epoch := 0 }

/-- The state with `xs` loaded in channel 0 from index 0 on. -/
def withIn (xs : List Rat) (s : State) : State :=
  { s with inp := ⟨(List.range xs.length).map fun i => (i, q (xs.getD i 0)), s.inp.ch1⟩ }

/-- The state with the latch of a chunk of one channel in progress at slot `k`. -/
def inChunk (cfg : Word32) (n m : Nat) (k : Slot) (s : State) : State :=
  { s with lcfg := cfg, ln := BitVec.ofNat 32 n, lch := 1#2, lm := m, busy := true, stage := some k }

/-- What a next state shows; nothing where there is none. -/
def shows {α : Type} (f : State → α) : Host.Outcome State Fault Refusal → Option α
  | .next t => some (f t)
  | .fault _ => none
  | .refused _ => none

/-- Four input samples, `T = 8`, slot 1, `M = 6`. -/
def sResamp : State := inChunk 0x00003202#32 4 6 (.resamp .ch0) (withIn [1 / 4, 1 / 2, 3 / 4, 1] (unit 8 2 4))

/-- V-RS-2. -/
theorem test_resamp : shows (fun t => (t.buf.ch0, t.hist.ch0, t.stage)) (exec (.resamp 0b000010#6 .ch0) sResamp) =
    some ([q (1 / 6), q (1 / 3), q (1 / 2), q (2 / 3), q (5 / 6), q 1], ⟨q (1 / 4), q (1 / 2), q (3 / 4), q 1⟩,
      some (.pre .ch0)) := by decide +kernel

/-- V-RS-4, the downsampling by 8/3. -/
theorem test_resamp_down :
    shows (fun t => t.buf.ch0) (exec (.resamp 0b000010#6 .ch0)
      { withIn [1 / 8, 1 / 4, 3 / 8, 1 / 2, 5 / 8, 3 / 4, 7 / 8, 1] sResamp with ln := 8#32, lm := 3 }) =
    some [q (1 / 3), q (2 / 3), q 1] := by decide +kernel

/-- A state at slot 2 with `BUF[0] = [1/2, -1/2, 1/4, 0]` and `FST[0] = (1/4, -1/8)`. -/
def sPre : State :=
  { inChunk 0x00006400#32 4 4 (.pre .ch0) (unit 8 2 4) with
    buf := ⟨[q (1 / 2), q (-1 / 2), q (1 / 4), q 0], []⟩, fst := ⟨⟨q (1 / 4), q (-1 / 8)⟩, ⟨.zero, .zero⟩⟩ }

/-- V-PE-6. -/
theorem test_pre50 : shows (fun t => (t.buf.ch0, t.fst.ch0, t.stage)) (exec (.pre50 0b000000#6 .ch0) sPre) =
    some ([q (7 / 16), q (-33 / 32), q (23 / 64), q (-9 / 128)], ⟨q 0, q (-9 / 128)⟩, some .mix) := by decide +kernel

/-- V-PE-3. -/
theorem test_pre75 :
    shows (fun t => (t.buf.ch0, t.fst.ch0)) (exec (.pre75 0b000100#6 .ch0)
      { sPre with buf := ⟨[q 1, q 1, q 0, q 0], []⟩, fst := ⟨⟨.zero, .zero⟩, ⟨.zero, .zero⟩⟩ }) =
    some ([q 2, q (3 / 2), q (-3 / 4), q (-3 / 8)], ⟨q 0, q (-3 / 8)⟩) := by decide +kernel

/-- V-PE-5. -/
theorem test_preByp : shows (fun t => (t.buf, t.fst)) (exec (.preByp 0b001000#6 .ch0) sPre) = some (sPre.buf, sPre.fst) := by
  decide +kernel

/-- A state at slot 3 with the two buffers of V-MX-2. -/
def sMix : State :=
  { inChunk 0x00005A00#32 4 3 .mix (unit 152000 2 4) with
    lch := 2#2, buf := ⟨[q 1, q (1 / 2), q (-1)], [q 0, q (1 / 2), q 1]⟩, pilot := 7 }

/-- V-MX-1. -/
theorem test_mixMono : shows (fun t => (t.sig, t.pilot)) (exec (.mixMono 0b000000#6) sMix) = some (sMix.buf.ch0, 7) := by
  decide +kernel

/-- V-MX-2. -/
theorem test_mixAvg : shows (fun t => (t.sig, t.pilot)) (exec (.mixAvg 0b100000#6) sMix) =
    some ([q (1 / 2), q (1 / 2), q 0], 7) := by decide +kernel

/-- V-MX-3, rows 0 and 2: `SIG = 0.45` with `sub = pil = 0`, and `0.55` with `sub = 0`, `pil = 1`; the counter moves on. -/
theorem test_mixMpx :
    shows (fun t => (t.sig, t.pilot)) (exec (.mixMpx 0b111000#6) { sMix with pilot := 0, buf := ⟨[q 1], [q 0]⟩ }) =
      some ([q (9 / 20)], 1) ∧
    shows (fun t => (t.sig, t.pilot)) (exec (.mixMpx 0b111000#6) { sMix with pilot := 2, buf := ⟨[q 1], [q 0]⟩ }) =
      some ([q (11 / 20)], 3) := by decide +kernel

/-- V-MX-5 and V-MX-6: the counter wraps at `W = 32` and at `W = 192/19`. -/
theorem test_mixMpx_wraps :
    shows (fun t => t.pilot) (exec (.mixMpx 0b111000#6) { sMix with pilot := 31, buf := ⟨[q 1], [q (-1)]⟩ }) = some 0 ∧
    NumFormat.reference.pilotStep (pilotWrap 48000) 10 = 17 / 19 := by decide +kernel

/-- A state at slot 4 with gain 100. -/
def sMod (t : Nat) (sig : List RealNum) : State := { inChunk 0x00006400#32 4 4 .mod (unit t 2 4) with sig := sig }

/-- V-FM-2: `Δ = π/2`; the step that reaches `-π` wraps to `+π`. -/
theorem test_modWfm : shows (fun t => (t.iq, t.phase)) (exec (.modWfm 0b000000#6) (sMod 300000 [q (-1), q (-1), q (-1)])) =
    some ([q (-1), q 0, q 0, q (-1), q 1, q 0], .lin 0 (1 / 2)) := by decide +kernel

/-- Rule R200, "phase 0 gives `(0, 127)`": two samples whose irrational phase steps cancel. -/
theorem test_modWfm_cancels :
    shows (fun t => (t.phase, (t.iq.drop 2).map (quantByte .reference))) (exec (.modWfm 0b000000#6)
      (sMod 152000 [RealNum.sin (.lin 0 (1 / 4)), RealNum.sin (.lin 0 (-1 / 4))])) =
    some (.zero, [some (k 0#8), some (k 127#8)]) := by decide +kernel

/-- V-FM-4, the phase after two samples at `Δ = π/4`, and the second pair. -/
theorem test_modNfm : shows (fun t => (t.iq.drop 2, t.phase)) (exec (.modNfm 0b000001#6) (sMod 40000 [q 1, q 1])) =
    some ([q 1, q 0], .lin 0 (1 / 2)) := by decide +kernel

/-- V-AM-1, rows 3 and 4, and S4's row at gain 200. -/
theorem test_modAm :
    shows (fun t => (t.iq, t.phase)) (exec (.modAm 0b000010#6) (sMod 8 [q 0, q (-1 / 2)])) =
      some ([q (1 / 2), q 0, q 0, q 0], .zero) ∧
    shows (fun t => t.iq) (exec (.modAm 0b000010#6) { sMod 8 [q 1, q (-1)] with lcfg := 0x0000C802#32 }) =
      some [q 1, q 0, q (-1), q 0] := by decide +kernel

/-- The table of section 2.6, as two's-complement bytes. -/
theorem test_quant :
    shows (fun t => (t.pend, t.outb, t.pidx, t.stage)) (exec (.quant 0b000000#6)
      { inChunk 0 4 4 .quant (unit 8 2 4) with iq := [q 1, q (-1), q (-1 / 2), q (999 / 1000), q (-2 / 3)] }) =
    some ([k 0x7F#8, k 0x81#8, k 0xC1#8, k 0x7E#8, k 0xAC#8], [k 0x7F#8, k 0x81#8, k 0xC1#8, k 0x7E#8, k 0xAC#8], 0, some .enq) := by
  decide +kernel

/-- A value that no rational expresses: `sin(π/4) = 0.7071...` gives 89 (V-FM-3). -/
theorem test_quant_irrational :
    quantByte .reference (RealNum.sin (.lin 0 (1 / 4))) = some (k 89#8) := by decide +kernel

/-- A state at slot 6 of a ring of two blocks of four bytes. -/
def sEnq : State := { inChunk 0 4 4 .enq (unit 8 2 4) with pend := [k 1#8, k 2#8, k 3#8, k 4#8, k 5#8, k 6#8, k 7#8, k 8#8] }

/-- V-RB-1's last byte of the first block: it is stored and the block published. -/
theorem test_enq :
    shows (fun t => (t.ring, t.head, t.count, t.off, t.pidx, t.busy)) (exec (.enq 0b000000#6)
      { sEnq with pidx := 3, off := 3, ring := [(0, k 1#8), (1, k 2#8), (2, k 3#8)] }) =
    some ([(0, k 1#8), (1, k 2#8), (2, k 3#8), (3, k 4#8)], 1, 1, 0, 4, true) := by decide +kernel

/-- V-RB-1's last byte of all: the ring is full and the chunk complete. -/
theorem test_enq_completes :
    shows (fun t => (t.head, t.count, t.off, t.busy, t.stage)) (exec (.enq 0b000000#6)
      { sEnq with pidx := 7, off := 3, head := 1, count := 1 }) = some (0, 2, 0, false, none) := by decide +kernel

/-- V-RB-1: the first of two filled blocks. -/
theorem test_deq :
    shows (fun t => (t.env.txBytes, t.env.txRc, t.tail, t.count)) (exec (.deq 4#32)
      { unit 8 2 4 with
        ring := [(0, k 1#8), (1, k 2#8), (2, k 3#8), (3, k 4#8), (4, k 5#8), (5, k 6#8), (6, k 7#8), (7, k 8#8)], count := 2 }) =
    some ([k 1#8, k 2#8, k 3#8, k 4#8], 0, 1, 1) := by decide +kernel

/-- V-RB-2: a block of zeros, and `STATUS` reads `0x104`. -/
theorem test_deq_underrun :
    shows (fun t => (t.env.txBytes, t.env.txRc, t.tail, statusWord t)) (exec (.deq 4#32) (unit 8 2 4)) =
    some ([k 0#8, k 0#8, k 0#8, k 0#8], 0, 0, 0x00000104#32) := by decide +kernel

/-- NOP changes nothing. -/
theorem test_nop : shows (fun t => decide (t = unit 8 2 4)) (exec .nop (unit 8 2 4)) = some true := by decide +kernel

/-- P1's chunk: `M = 8`, `BUSY = 1`. -/
theorem test_chunk :
    shows (fun t => (t.lcfg, t.ln, t.ls, t.lch, t.lm, t.busy)) (exec .chunk
      { unit 8 2 4 with cfg := 0x00003202#32, chunkN := 4, chunkRate := 4, chunkCh := 1 }) =
    some (0x00003202#32, 4#32, 4#32, 1#2, 8, true) := by decide +kernel

/-- V-CM-5, the first fault and the fifth. -/
theorem test_chunk_faults :
    shows (fun t => (statusWord t, t.lm)) (exec .chunk { unit 1 2 4 with chunkCh := 3 }) = some (0x00010004#32, 0) ∧
    shows (fun t => (statusWord t, t.busy)) (exec .chunk { unit 1 2 4 with chunkCh := 1, chunkRate := 9, chunkN := 4 }) =
      some (0x00100004#32, false) := by decide +kernel

/-- P7: after SRST `STATUS` reads 4, `CFG` its default, and the datapath is zero. -/
theorem test_srst :
    shows (fun t => (statusWord t, t.cfg, t.chunkN, t.fst.ch0, t.phase, t.head)) (exec .srst
      { unit 8 2 4 with cfg := 0, chunkN := 4, fst := sPre.fst, phase := q 1, head := 1, tail := 1, sticky := 0x00000100#32 }) =
    some (0x00000004#32, 0x00005A10#32, 0#32, ⟨.zero, .zero⟩, .zero, 0) := by decide +kernel

/-! ### HOST's accesses and the order of moves -/

/-- V-CM-2. -/
theorem test_cfg_is_legalised :
    legalCfg 0xFFFFFFFF#32 = 0x0000FF10#32 ∧ legalCfg 0x0000640A#32 = 0x0000640A#32 ∧
    legalCfg 0x00000007#32 = 0x00000004#32 := by decide

/-- V-CM-6. -/
theorem test_status_write_clears :
    clearSticky 0x00100100#32 0x00300100#32 = 0x00200000#32 ∧ clearSticky 0x00000007#32 0x00300100#32 = 0x00300100#32 := by
  decide

/-- V-M-3, V-M-4, V-M-5, V-M-7 and V-M-9. -/
theorem test_outCount :
    outCount 5 1 2 = 3 ∧ outCount 7 3 2 = 11 ∧ outCount 1024 2000000 44100 = 46440 ∧ outCount 4 1 8 = 1 ∧
    outCount 4 1 9 = 0 := by decide

/-- V-CM-4, the first row: the selection word of a stereo chunk with the reset configuration. -/
theorem test_selection_word : ({ unit 8 2 4 with lcfg := 0x00005A10#32, lch := 2#2 } : State).sel = 0b110000#6 := by
  decide +kernel

/-- A `CMD` write that HOST makes is run, and has left HOST's list. -/
theorem test_step_runs_a_command :
    shows (fun t => (t.busy, t.env.hostQ, t.env.sched)) (step
      { unit 8 2 4 with
        chunkN := 4, chunkRate := 4, chunkCh := 1
        env := { (unit 8 2 4).env with hostQ := [.wr 0 4 1#32], sched := [.host, .producer] } }) =
    some (true, [], [.producer]) := by decide +kernel

/-- A word placed by `withFetchWord` is what the next step runs: a CHUNK, a QUANT slot's word, a request. -/
theorem test_withFetchWord :
    fetch ((unit 8 2 4).withFetchWord 32 1) = some (.k 1#32) ∧
    fetch ((unit 8 2 4).withFetchWord 8 0b00110000) = some (.s .mix 0b110000#6) ∧
    fetch ((unit 8 2 4).withFetchWord 8 0b00000100) = some (.s (.pre .ch0) 0b000100#6) ∧
    fetch ((unit 8 2 4).withFetchWord 8 0b00000001) = some (.s .mod 0b000001#6) ∧
    fetch ((unit 8 2 4).withFetchWord 8 0) = some (.s (.resamp .ch0) 0b000000#6) ∧
    fetch ((unit 8 2 4).withFetchWord 32 4) = some (.t 4#32) ∧
    decodeTableWord 32 1 = some .chunk ∧ decodeTableWord 8 0b00110000 = some (.mixMpx 0b110000#6) := by decide +kernel

/-! ### A state and operands that meet the hypotheses of each statement that has some

Each theorem names the statement; where the statement has several clauses there is one part for each clause, at a
boundary of its range. -/

/-- The state with a list of turns and a list of HOST's accesses. -/
def asked (ts : List Turn) (h : List HostOp) (s : State) : State :=
  { s with env := { s.env with sched := ts, hostQ := h } }

/-- A step that answers a next state, as a proposition. -/
def goesOn (o : Host.Outcome State Fault Refusal) : Prop := ∃ t, o = .next t

theorem goesOn_of {o : Host.Outcome State Fault Refusal} (h : shows (fun _ => true) o = some true) : goesOn o := by
  cases o with
  | next t => exact ⟨t, rfl⟩
  | fault f => cases h
  | refused r => cases h

theorem witness_DecodeInvertsEncode :
    (Instr.resamp 0b111010#6 .ch1).wellFormed = true ∧ (Instr.mixMpx 0b111000#6).wellFormed = true := by decide

theorem witness_EncodeInvertsDecode : decode (.s (.pre .ch1) 0b110000#6) = .ok (.pre50 0b110000#6 .ch1) := by decide

theorem witness_EverySelectionMatchesOneVariant : Sel.mode 0b111010#6 ≠ 3#2 ∧ Sel.tau 0b111010#6 ≠ 3#2 := by decide

/-- HOST's, PRODUCER's and CONSUMER's word, and a word that is no operation; HOST's accesses that are no command (a
write of `CMD` of another width among them); the moves with nothing to do. -/
theorem witness_StepRunsTheDecodedOperation :
    (let s := asked [.host] [.wr 0 4 1#32] (unit 8 2 4);
      s.env.sched = .host :: [] ∧ s.env.hostQ = .wr 0 4 1#32 :: [] ∧ s.busy = false ∧
      decode (.k 1#32) = .ok .chunk ∧ decode (.k 3#32) = .error .reservedCommand) ∧
    (let s := asked [.producer] [] sResamp;
      s.env.sched = .producer :: [] ∧ s.stage = some (.resamp .ch0) ∧
      decode (.s (.resamp .ch0) s.sel) = .ok (.resamp 0b000010#6 .ch0)) ∧
    ((asked [.consumer 4#32] [] sResamp).env.sched = .consumer 4#32 :: [] ∧ decode (.t 4#32) = .ok (.deq 4#32)) ∧
    ((asked [.host] [.wr 0 2 1#32] sResamp).env.hostQ = .wr 0 2 1#32 :: [] ∧ (0 ≠ 0 ∨ 2 ≠ 4) ∧ (8 ≠ 0 ∨ 4 ≠ 4)) ∧
    (asked [.host] [.rd 4 4] sResamp).env.hostQ = .rd 4 4 :: [] ∧
    (asked [.host] [.ld 0 0 .notFinite] sResamp).env.hostQ = .ld 0 0 .notFinite :: [] ∧
    (asked [.host] [] sResamp).env.hostQ = [] ∧ (asked [.producer] [] (unit 8 2 4)).stage = none ∧
    (asked [] [] sResamp).env.sched = [] := by
  decide +kernel

/-- The first reserved word and the last. -/
theorem witness_ReservedCommandOnlySetsFCmd :
    (3#32 ≠ 0x00000000#32 ∧ 3#32 ≠ 0x00000001#32 ∧ 3#32 ≠ 0x00000002#32) ∧
    (0xFFFFFFFF#32 ≠ 0x00000000#32 ∧ 0xFFFFFFFF#32 ≠ 0x00000001#32 ∧ 0xFFFFFFFF#32 ≠ 0x00000002#32) ∧
    (unit 8 2 4).busy = false := by decide +kernel

theorem witness_CommandsAreHeldWhileBusy :
    (asked [.host] [.wr 0 4 1#32] sResamp).busy = true ∧
    (asked [.host] [.wr 0 4 1#32] sResamp).env.hostQ = .wr 0 4 1#32 :: [] ∧
    (asked [.host] [.wr 0 4 1#32] sResamp).env.sched = .host :: [] := by decide +kernel

/-- An accepted chunk at both ends of the range of `CHUNK_N` of this unit, 4 and 8; and `M = 1` (V-M-7). -/
theorem witness_ChunkWritesTheLatch :
    ∀ n ∈ [4, 8],
      let s : State := { unit 1 2 4 with chunkN := BitVec.ofNat 32 n, chunkRate := 8, chunkCh := 2 }
      s.busy = false ∧ (s.chunkCh = 1#2 ∨ s.chunkCh = 2#2) ∧ s.chunkRate ≠ 0#32 ∧ 4 ≤ s.chunkN.toNat ∧
      s.chunkN.toNat ≤ s.env.par.nMax ∧
      (2 * s.chunkN.toNat * s.env.par.targetRate + s.chunkRate.toNat) / (2 * s.chunkRate.toNat) ≠ 0 := by
  decide +kernel

/-- One state for each of the five faults: channels 3, rate 0, three samples, nine samples, and V-M-9. -/
theorem witness_ChunkFaultsInOrderAndPrecisely :
    let s := unit 1 2 4
    let s1 : State := { s with chunkCh := 3 }
    let s2 : State := { s with chunkCh := 1 }
    let s3 : State := { s2 with chunkRate := 4, chunkN := 3 }
    let s4 : State := { s2 with chunkRate := 4, chunkN := 9 }
    let s5 : State := { s2 with chunkRate := 9, chunkN := 4 }
    (s1.busy = false ∧ s1.chunkCh ≠ 1#2 ∧ s1.chunkCh ≠ 2#2) ∧
    (s2.busy = false ∧ (s2.chunkCh = 1#2 ∨ s2.chunkCh = 2#2) ∧ s2.chunkRate = 0#32) ∧
    (s3.busy = false ∧ (s3.chunkCh = 1#2 ∨ s3.chunkCh = 2#2) ∧ s3.chunkRate ≠ 0#32 ∧ s3.chunkN.toNat < 4) ∧
    (s4.busy = false ∧ (s4.chunkCh = 1#2 ∨ s4.chunkCh = 2#2) ∧ s4.chunkRate ≠ 0#32 ∧ 4 ≤ s4.chunkN.toNat ∧
      s4.env.par.nMax < s4.chunkN.toNat) ∧
    (s5.busy = false ∧ (s5.chunkCh = 1#2 ∨ s5.chunkCh = 2#2) ∧ s5.chunkRate ≠ 0#32 ∧ 4 ≤ s5.chunkN.toNat ∧
      s5.chunkN.toNat ≤ s5.env.par.nMax ∧ 2 * s5.chunkN.toNat * s5.env.par.targetRate < s5.chunkRate.toNat) := by
  decide +kernel

/-- An idle unit for SRST; the platform's reset in the middle of a chunk. -/
theorem witness_SrstAndResetTakeTheResetState :
    (unit 8 2 4).busy = false ∧ (asked [.platformReset] [] sResamp).env.sched = .platformReset :: [] ∧
    1 ≤ (unit 8 2 4).env.par.ringC := by decide +kernel

theorem witness_DeqReturnsTheTailBlock :
    (4#32).toNat = (unit 8 2 4).env.par.ringB ∧ 0 < ({ unit 8 2 4 with count := 1 } : State).count := by decide +kernel

theorem witness_DeqOnAnEmptyRingReturnsZeros :
    (4#32).toNat = (unit 8 2 4).env.par.ringB ∧ (unit 8 2 4).count = 0 := by decide +kernel

/-- A request of a block's length and one of the length next to it. -/
theorem witness_DeqIsAlwaysEnabled :
    (asked [.consumer 4#32] [] sEnq).env.sched = .consumer 4#32 :: [] ∧ (4#32).toNat = sEnq.env.par.ringB ∧
    (asked [.consumer 5#32] [] sEnq).env.sched = .consumer 5#32 :: [] ∧ (5#32).toNat ≠ sEnq.env.par.ringB := by
  decide +kernel

/-- The last byte of a block and the byte before it; the chunk's last byte and the byte before it; another byte of the
ring. -/
theorem witness_EnqStoresOneByteAndPublishes :
    let s : State := { sEnq with pidx := 7, off := 3 }
    let t : State := { sEnq with pidx := 6, off := 2 }
    (s.pend[s.pidx]? = some (k 8#8) ∧ s.count < s.env.par.ringC ∧ s.off + 1 = s.env.par.ringB ∧
      s.pidx + 1 = s.pend.length ∧ ringIndex s 1 3 ≠ ringIndex s s.head s.off) ∧
    (t.pend[t.pidx]? = some (k 7#8) ∧ t.count < t.env.par.ringC ∧ t.off + 1 ≠ t.env.par.ringB ∧
      t.pidx + 1 < t.pend.length) := by decide +kernel

theorem witness_EnqHoldsWhileTheRingIsFull :
    let s : State := { sEnq with count := 2, pidx := 7 }
    s.count = s.env.par.ringC ∧ s.pidx < s.pend.length ∧ 1 ≤ s.env.par.ringC ∧ (4#32).toNat = s.env.par.ringB := by
  decide +kernel

/-- A ring with one filled block and three bytes of the next; an empty one. -/
theorem witness_RingIsFirstInFirstOut :
    let s : State := { sEnq with head := 1, count := 1, off := 3, pidx := 7 }
    (s.parSound ∧ s.ringSound) ∧ (s.pend[s.pidx]? = some (k 8#8) ∧ s.count < s.env.par.ringC) ∧
    ((4#32).toNat = s.env.par.ringB ∧ 0 < s.count) ∧ (sEnq.parSound ∧ sEnq.ringSound ∧ sEnq.count = 0) := by
  unfold State.parSound State.ringSound
  decide +kernel

/-- A sound state in the middle of a chunk, at slot 6 with the ring's last free byte before it. -/
def sSound : State :=
  asked [.producer, .consumer 4#32] []
    { inChunk 0x00006401#32 4 4 .enq (unit 8 2 4) with
      pend := [k 1#8, k 2#8, k 3#8, k 4#8, k 5#8, k 6#8, k 7#8, k 8#8], pidx := 7, head := 1, count := 1, off := 3
      ring := [(0, k 1#8), (1, k 2#8), (2, k 3#8), (3, k 4#8), (4, k 5#8), (5, k 6#8), (6, k 7#8)] }

theorem sSound_ring : sSound.parSound ∧ sSound.ringSound := by
  unfold State.parSound State.ringSound
  decide +kernel

theorem sSound_mem : sSound.memSound := by
  unfold State.memSound Memory.below
  decide +kernel

theorem sSound_reg : sSound.regSound := by
  unfold State.regSound
  decide +kernel

theorem sSound_seq : sSound.seqSound := by
  refine ⟨?_, ?_, ?_, ?_, ?_, ?_, ?_⟩
  · decide +kernel
  · decide +kernel
  · decide +kernel
  · decide +kernel
  · decide +kernel
  · decide +kernel
  · show sSound.pend.length = 2 * sSound.lm ∧ sSound.pidx < 2 * sSound.lm
    decide +kernel

theorem sSound_goesOn : goesOn (step sSound) := goesOn_of (by decide +kernel)

theorem witness_StepKeepsTheRingCursors : sSound.parSound ∧ sSound.ringSound ∧ goesOn (step sSound) :=
  ⟨sSound_ring.1, sSound_ring.2, sSound_goesOn⟩

theorem witness_StepKeepsTheMemoryForm :
    sSound.parSound ∧ sSound.ringSound ∧ sSound.memSound ∧ goesOn (step sSound) :=
  ⟨sSound_ring.1, sSound_ring.2, sSound_mem, sSound_goesOn⟩

theorem witness_StepKeepsTheRegistersLegal : sSound.regSound ∧ goesOn (step sSound) := ⟨sSound_reg, sSound_goesOn⟩

theorem witness_StepKeepsTheChunkSound : sSound.seqSound ∧ goesOn (step sSound) := ⟨sSound_seq, sSound_goesOn⟩

/-- A counter one below `W = 32`, at slot 3. -/
def sPilot : State := asked [.producer] [] { sMix with lcfg := 0x00006418#32, pilot := 31 }

theorem witness_StepKeepsThePilotBounded :
    sPilot.exactFormat ∧ sPilot.parSound ∧ sPilot.pilotSound ∧ goesOn (step sPilot) := by
  refine ⟨by decide +kernel, ?_, ?_, goesOn_of (by decide +kernel)⟩
  · unfold State.parSound; decide +kernel
  · unfold State.pilotSound; decide +kernel

/-- A phase at the closed end, `+π`, at slot 4. -/
def sPhase : State := asked [.producer] [] { sMod 300000 [q 1] with phase := .lin 0 1 }

theorem sPhase_sound : sPhase.phaseSound := by
  show -Real.pi < (RealNum.lin 0 1).toReal ∧ (RealNum.lin 0 1).toReal ≤ Real.pi
  have := Real.pi_pos
  simp only [RealNum.toReal]
  constructor <;> push_cast <;> linarith

/-- The phase 0 in a build. -/
theorem sBuild_sound : ({ sPhase with phase := .zero, env.par.num := .build } : State).phaseSound :=
  ⟨0, rfl, by linarith [numPi_pos], numPi_pos.le⟩

theorem witness_StepKeepsThePhaseInRange :
    sPhase.phaseSound ∧ goesOn (step sPhase) ∧ ({ sPhase with phase := .zero, env.par.num := .build } : State).phaseSound :=
  ⟨sPhase_sound, goesOn_of (by decide +kernel), sBuild_sound⟩

theorem sSound_sound : sSound.sound := ⟨sSound_ring.1, sSound_ring.2, sSound_mem, sSound_reg, sSound_seq⟩

theorem witness_NoStageOfASoundStateStops :
    sSound.sound ∧ sSound.env.sched = .producer :: [.consumer 4#32] := ⟨sSound_sound, by decide +kernel⟩

/-- A move of each kind that goes on: PRODUCER's, CONSUMER's, HOST's. -/
theorem witness_CursorsHaveTheirOwners :
    goesOn (step sSound) ∧ goesOn (step (asked [.consumer 4#32] [] sSound)) ∧
    goesOn (step (asked [.host] [.wr 8 4 0#32] sSound)) :=
  ⟨sSound_goesOn, goesOn_of (by decide +kernel), goesOn_of (by decide +kernel)⟩

theorem witness_OutputCountIsRoundedHalfUp : 0 < 1 := by decide

/-- The least chunk, `N = 4` and `M = 1`, and a chunk of `N_MAX` samples; an output before the first input sample
(`j = 0`, `M = 6`) and one after it. -/
theorem witness_ResampleInterpolatesLinearly :
    let s : State := { sResamp with lm := 1 }
    let t : State := { sResamp with ln := 8 }
    (s.exactFormat ∧ 4 ≤ s.ln.toNat ∧ s.ln.toNat ≤ s.env.par.nMax ∧ 1 ≤ s.lm) ∧
    (t.exactFormat ∧ 4 ≤ t.ln.toNat ∧ t.ln.toNat ≤ t.env.par.nMax ∧ 1 ≤ t.lm) ∧
    (0 + 1 < sResamp.lm ∧ (0 + 1) * sResamp.ln.toNat / sResamp.lm = 0) ∧
    (4 + 1 < sResamp.lm ∧ (4 + 1) * sResamp.ln.toNat / sResamp.lm ≠ 0) := by decide +kernel

theorem witness_ResampleLengthAndLastSampleAreExact :
    4 ≤ sResamp.ln.toNat ∧ sResamp.ln.toNat ≤ sResamp.env.par.nMax ∧ 1 ≤ sResamp.lm := by decide +kernel

/-- Three samples; nine; no output sample. -/
theorem witness_ResampleStopsOutsideItsPreconditions :
    ({ sResamp with ln := 3 } : State).ln.toNat < 4 ∧
    (4 ≤ ({ sResamp with ln := 9 } : State).ln.toNat ∧ sResamp.env.par.nMax < ({ sResamp with ln := 9 } : State).ln.toNat) ∧
    (4 ≤ sResamp.ln.toNat ∧ sResamp.ln.toNat ≤ sResamp.env.par.nMax ∧ ({ sResamp with lm := 0 } : State).lm = 0) := by
  decide +kernel

/-- V-RS-2's inputs. -/
theorem sResamp_inputs : inReal sResamp .ch0 0 = 1 / 4 ∧ inReal sResamp .ch0 1 = 1 / 2 ∧ inReal sResamp .ch0 2 = 3 / 4 ∧
    inReal sResamp .ch0 3 = 1 ∧ (sResamp.hist.get .ch0).h3.toReal = 0 := by
  have h0 : readIn sResamp .ch0 0 = .ofRat (1 / 4) := by decide +kernel
  have h1 : readIn sResamp .ch0 1 = .ofRat (1 / 2) := by decide +kernel
  have h2 : readIn sResamp .ch0 2 = .ofRat (3 / 4) := by decide +kernel
  have h3 : readIn sResamp .ch0 3 = .ofRat 1 := by decide +kernel
  have h4 : (sResamp.hist.get .ch0).h3 = .zero := by decide +kernel
  unfold inReal
  rw [h0, h1, h2, h3, h4]
  simp

theorem witness_ResampleStaysBetweenItsInputs :
    sResamp.exactFormat ∧ goesOn (exec (.resamp 0b000010#6 .ch0) sResamp) ∧
    (0 : ℝ) ≤ (sResamp.hist.get .ch0).h3.toReal ∧ (sResamp.hist.get .ch0).h3.toReal ≤ 1 ∧
    (∀ i, i < sResamp.ln.toNat → (0 : ℝ) ≤ inReal sResamp .ch0 i ∧ inReal sResamp .ch0 i ≤ 1) := by
  obtain ⟨h0, h1, h2, h3, h4⟩ := sResamp_inputs
  refine ⟨by decide +kernel, goesOn_of (by decide +kernel), by rw [h4], by rw [h4]; norm_num, fun i hi => ?_⟩
  have hi : i < 4 := hi
  interval_cases i
  · rw [h0]; norm_num
  · rw [h1]; norm_num
  · rw [h2]; norm_num
  · rw [h3]; norm_num

/-- Both clauses: V-RS-2's ramp rises strictly. -/
theorem witness_ResampleKeepsMonotone :
    sResamp.exactFormat ∧ goesOn (exec (.resamp 0b000010#6 .ch0) sResamp) ∧
    (sResamp.hist.get .ch0).h3.toReal < inReal sResamp .ch0 0 ∧
    (∀ i, i + 1 < sResamp.ln.toNat → inReal sResamp .ch0 i < inReal sResamp .ch0 (i + 1)) := by
  obtain ⟨h0, h1, h2, h3, h4⟩ := sResamp_inputs
  refine ⟨by decide +kernel, goesOn_of (by decide +kernel), by rw [h4, h0]; norm_num, fun i hi => ?_⟩
  have hi : i + 1 < 4 := hi
  have hi : i < 3 := by omega
  interval_cases i
  · rw [h0, h1]; norm_num
  · rw [h1, h2]; norm_num
  · rw [h2, h3]; norm_num

theorem witness_PreEmphasisFollowsTheRecursion : sPre.exactFormat := by decide +kernel

theorem witness_PreEmphasisOfZeroIsZero :
    let s : State := { sPre with fst := ⟨⟨.zero, .zero⟩, ⟨.zero, .zero⟩⟩, buf := ⟨[.zero, .zero], []⟩ }
    s.exactFormat ∧ s.fst.get .ch0 = ⟨.zero, .zero⟩ ∧ ∀ x ∈ s.buf.get .ch0, x = RealNum.zero := by decide +kernel

/-- `2 * (1, 2) - (0, 1)` with states `(1, 0)`, `(0, 1)`. -/
theorem witness_PreEmphasisIsLinear :
    let u : FilterState := ⟨q 1, q 0⟩
    let v : FilterState := ⟨q 0, q 1⟩
    let r : FilterState := ⟨q 2, q (-1)⟩
    let x := [q 1, q 2]
    let y := [q 0, q 1]
    let z := [q 2, q 3]
    x.length = z.length ∧ y.length = z.length ∧ r.xp.toReal = 2 * u.xp.toReal + (-1) * v.xp.toReal ∧
    r.yp.toReal = 2 * u.yp.toReal + (-1) * v.yp.toReal ∧
    ∀ n, realAt z n = 2 * realAt x n + (-1) * realAt y n := by
  refine ⟨rfl, rfl, by simp [q], by simp [q], fun n => ?_⟩
  rcases n with _ | _ | n
  · simp [realAt, q]
  · simp [realAt, q]; norm_num
  · simp [realAt]

theorem witness_MixAvgAverages : sMix.exactFormat ∧ sMix.buf.ch0.length = sMix.buf.ch1.length := by decide +kernel

theorem witness_MixMpxMultiplexes :
    sPilot.exactFormat ∧ sPilot.buf.ch0.length = sPilot.buf.ch1.length ∧ 2 < sPilot.buf.ch0.length := by decide +kernel

/-- `W = 192/19`, at the counter's greatest value `191/19`, and a candidate for the next value. -/
theorem witness_PilotCounterStep :
    (0 : Rat) < pilotWrap 48000 ∧ 1 ≤ pilotWrap 48000 ∧ (0 : Rat) ≤ 191 / 19 ∧ 191 / 19 < pilotWrap 48000 ∧
    (0 : Rat) ≤ 18 / 19 ∧ 18 / 19 < pilotWrap 48000 ∧
    ∃ k : ℤ, ((191 : Rat) / 19 + 1) - 18 / 19 = k * pilotWrap 48000 :=
  ⟨by decide +kernel, by decide +kernel, by decide +kernel, by decide +kernel, by decide +kernel, by decide +kernel,
    1, by norm_num [pilotWrap]⟩

theorem witness_PilotTonesArePhaseContinuous : 1 ≤ 48000 := by decide

theorem witness_FmAdvancesThePhase : sPhase.exactFormat ∧ 0 < sPhase.sig.length := by decide +kernel

theorem witness_StagesCompleteInEveryFormat :
    sPhase.exactFormat ∧ goesOn (exec (.modWfm 0b000000#6) sPhase) ∧ goesOn (exec (.modNfm 0b000001#6) sPhase) ∧
    0 < sPhase.sig.length :=
  ⟨by decide +kernel, goesOn_of (by decide +kernel), goesOn_of (by decide +kernel), by decide +kernel⟩

/-- A signal of zeros at the phase `+π`. -/
def sSilence : State := { sPhase with sig := [.zero, .zero] }

/-- Exact arithmetic is a number format of the second clause, and 0 lies in the interval of the third. -/
theorem witness_FmSilenceKeepsThePhase_formats :
    (NumFormat.reference.mul (.lin 0 (1 / 2)) .zero = .zero ∧ NumFormat.reference.add (.lin 0 1) .zero = .lin 0 1 ∧
      NumFormat.reference.wrap (.lin 0 1) = .lin 0 1 ∧
      ∀ x ∈ [RealNum.zero, .zero], NumFormat.reference.mul x (NumFormat.reference.ofRat (9 / 10)) = .zero) ∧
    inBuildPi 0 :=
  ⟨by decide +kernel, by linarith [numPi_pos], numPi_pos.le⟩

theorem witness_FmSilenceKeepsThePhase :
    sSilence.exactFormat ∧ sSilence.phaseSound ∧ goesOn (exec (.modWfm 0b000000#6) sSilence) ∧
    goesOn (exec (.modNfm 0b000001#6) sSilence) ∧
    ∀ x ∈ sSilence.sig, x.toReal * ((cfgGain sSilence.lcfg : ℝ) / 100) = 0 := by
  refine ⟨by decide +kernel, sPhase_sound, goesOn_of (by decide +kernel), goesOn_of (by decide +kernel), ?_⟩
  intro x hx
  have hx : x = RealNum.zero := by simpa [sSilence] using hx
  rw [hx]
  simp

theorem witness_AmScalesAndClips : (sMod 8 [q 0]).exactFormat ∧ 0 < (sMod 8 [q 0]).sig.length := by decide +kernel

theorem witness_AmQuadratureIsAStoredZero : 0 < (sMod 8 [q 0]).sig.length := by decide +kernel

/-- The ends of the range, a sine that no rational expresses, a pair on the unit circle. -/
theorem witness_QuantTruncatesTowardZero :
    let s : State := { inChunk 0 4 4 .quant (unit 8 2 4) with iq := [q 1, q (-1), RealNum.sin (.lin 0 (1 / 4)), q 0] }
    s.exactFormat ∧ (∀ v ∈ s.iq, v.inUnit = true) ∧ s.iq[0]? = some (.ofRat 1) ∧ s.iq[3]? = some (.ofRat 0) ∧
    shows (fun t => t.outb) (exec (.quant 0b000000#6) s) = some [k 127#8, k 129#8, k 89#8, k 0#8] := by decide +kernel

theorem witness_QuantTruncatesTowardZero_circle : (q 1).toReal ^ 2 + (q 0).toReal ^ 2 ≤ 1 := by simp [q]

theorem witness_ConfigurationActsThroughTheLatchOnly :
    (Instr.resamp 0b000010#6 .ch0).agent = .producer ∧ goesOn (exec (.resamp 0b000010#6 .ch0) sResamp) :=
  ⟨rfl, goesOn_of (by decide +kernel)⟩

theorem witness_StagesDoNotTouchTheRing :
    (Instr.resamp 0b000010#6 .ch0).agent = .producer ∧ slotOf (.resamp 0b000010#6 .ch0) ≠ some .enq ∧
    goesOn (exec (.resamp 0b000010#6 .ch0) sResamp) :=
  ⟨rfl, by decide, goesOn_of (by decide +kernel)⟩

theorem witness_ChannelsAreIndependent :
    Chan.ch1 ≠ .ch0 ∧ goesOn (exec (.resamp 0b000010#6 .ch0) sResamp) ∧ goesOn (exec (.pre50 0b000000#6 .ch0) sPre) ∧
    goesOn (exec (.pre75 0b000100#6 .ch0) sPre) ∧ goesOn (exec (.preByp 0b001000#6 .ch0) sPre) :=
  ⟨by decide, goesOn_of (by decide +kernel), goesOn_of (by decide +kernel), goesOn_of (by decide +kernel),
    goesOn_of (by decide +kernel)⟩

/-- One operation of each of slots 2 to 5, each of which leaves alone what another writes. -/
theorem witness_FrameOfTheStages :
    (∀ i ∈ [Instr.pre50 0b000000#6 .ch0, .mixMono 0b000000#6, .modAm 0b000010#6, .quant 0b000000#6],
      i.agent = .producer ∧ slotOf i ≠ some .enq) ∧
    goesOn (exec (.pre50 0b000000#6 .ch0) sPre) ∧ goesOn (exec (.mixMono 0b000000#6) sMix) ∧
    goesOn (exec (.modAm 0b000010#6) sPhase) ∧ goesOn (exec (.quant 0b000000#6) sPhase) :=
  ⟨by decide, goesOn_of (by decide +kernel), goesOn_of (by decide +kernel), goesOn_of (by decide +kernel),
    goesOn_of (by decide +kernel)⟩

/-- A build with eight samples a channel. -/
def sBuild : State := { unit 8 2 4 with env.par.num := .build }

/-- `BUSY` 0 and 1; the first and the last reserved offset; a misaligned access and a narrow one; the last sample of
channel 1 and the first word above the window of a build; the window's first word over exact arithmetic. -/
theorem witness_RegisterWritesStore :
    (sBuild.env.par.num = .build ∧ 7 < sBuild.env.par.nMax ∧ 1 ≤ sBuild.env.par.nMax ∧
      0x10000 + 8 * sBuild.env.par.nMax ≤ 0x10040 ∧ 0x10040 % 4 = 0) ∧
    ((unit 8 2 4).exactFormat ∧ 0x10000 ≤ 0x10000 ∧ 0x10000 % 4 = 0) ∧
    (unit 8 2 4).busy = false ∧ sResamp.busy = true ∧
    (0x18 ≤ 0x18 ∧ 0x18 < 0x10000 ∧ 0x18 % 4 = 0) ∧ (0x18 ≤ 0xFFFC ∧ 0xFFFC < 0x10000 ∧ 0xFFFC % 4 = 0) ∧
    (0x0E % 4 ≠ 0 ∨ 4 ≠ 4) ∧ (0x0C % 4 ≠ 0 ∨ 2 ≠ 4) := by decide +kernel

theorem witness_RegisterReadsAnswer :
    (0x10000 ≤ 0x10000 ∧ 0x10000 % 4 = 0) ∧
    (0x18 ≤ 0x18 ∧ 0x18 < 0x10000 ∧ 0x18 % 4 = 0) ∧ (0x18 ≤ 0xFFFC ∧ 0xFFFC < 0x10000 ∧ 0xFFFC % 4 = 0) ∧
    (0x0E % 4 ≠ 0 ∨ 4 ≠ 4) ∧ (0x0C % 4 ≠ 0 ∨ 2 ≠ 4) := by decide

theorem witness_StatusWordFields : 0 < 32 ∧ 8 < 32 ∧ 21 < 32 ∧ 31 < 32 := by decide

/-- The last sample there is, the first there is not, and channel 2. -/
theorem witness_SampleLoadsStore :
    (7 < (unit 8 2 4).env.par.nMax ∧ (unit 8 2 4).busy = false) ∧ (7 < sResamp.env.par.nMax ∧ sResamp.busy = true) ∧
    (1 < 2 ∨ (unit 8 2 4).env.par.nMax ≤ 0) ∧ (1 < 0 ∨ (unit 8 2 4).env.par.nMax ≤ 8) ∧
    ((.ch1 : Chan) ≠ .ch0 ∨ 7 ≠ 7) := by decide +kernel

/-- A chunk of four output samples, just accepted, whose eight bytes exactly fill what room the ring has. -/
def sRoom : State :=
  asked (List.replicate 13 .producer) []
    (inChunk 0x00006400#32 4 4 (.resamp .ch0) (withIn [1 / 4, 1 / 2, 3 / 4, 1] (unit 8 2 4)))

theorem witness_AChunkWithRoomCompletes :
    sRoom.sound ∧ sRoom.stage = some (.resamp .ch0) ∧
    2 * sRoom.lm + sRoom.off ≤ (sRoom.env.par.ringC - sRoom.count) * sRoom.env.par.ringB ∧
    sRoom.env.sched = List.replicate ((if sRoom.lch = 2#2 then 7 else 5) + 2 * sRoom.lm) .producer := by
  refine ⟨⟨?_, ?_, ?_, ?_, ?_⟩, by decide +kernel, by decide +kernel, by decide +kernel⟩
  · unfold State.parSound; decide +kernel
  · unfold State.ringSound; decide +kernel
  · unfold State.memSound Memory.below; decide +kernel
  · unfold State.regSound; decide +kernel
  · refine ⟨?_, ?_, ?_, ?_, ?_, ?_, trivial⟩ <;> decide +kernel

end Sys2Proof.Tests
end

section
/-! PROOFS. The state after reset (10_state.md rule R41). -/

namespace Sys2Proof.Machine

/-- After reset the ring is not full: it has at least one block (00_scope.md rule R5), and none is filled. -/
theorem full_resetIn {e : Env} (h : 1 ≤ e.par.ringC) : (State.resetIn e).full = false := by
  have hne : 0 ≠ e.par.ringC := by omega
  exact beq_false_of_ne hne

/-- After reset `STATUS` reads `EMPTY = 1` and 0 in every other bit (10_state.md rules R35, R41). -/
theorem statusWord_resetIn {e : Env} (h : 1 ≤ e.par.ringC) : statusWord (State.resetIn e) = 0x00000004#32 := by
  have hsticky : (State.resetIn e).sticky = 0#32 := rfl
  have hbusy : (State.resetIn e).busy = false := rfl
  have hempty : (State.resetIn e).empty = true := rfl
  rw [statusWord, hsticky, hbusy, full_resetIn h, hempty]
  decide

/-- The ring of the unit that `State.reset` describes has a block, by the form of the parameter (log entry 4). -/
theorem ringC_initial_pos : 1 ≤ Env.initial.par.ringC := Nat.le_add_left 1 Config.ringCPred

/-- Settles O13: each field is the literal that `State.resetIn` gives it, in each channel; `STATUS` is a view, whose
`FULL` is 0 because the ring has a block. -/
theorem resetValues : Obligations.ResetValues := by
  have hhist : ∀ c, State.reset.hist.get c = ⟨.zero, .zero, .zero, .zero⟩ := fun c => by cases c <;> rfl
  have hfst : ∀ c, State.reset.fst.get c = ⟨.zero, .zero⟩ := fun c => by cases c <;> rfl
  have hbuf : ∀ c, State.reset.buf.get c = [] := fun c => by cases c <;> rfl
  have hstatus : statusWord State.reset = 0x00000004#32 := statusWord_resetIn ringC_initial_pos
  exact ⟨hhist, hfst, rfl, rfl, rfl, rfl, rfl, rfl, hbuf, rfl, rfl, rfl, rfl, rfl, rfl, hstatus, rfl, rfl, rfl, rfl⟩

end Sys2Proof.Machine
end

section
/-! PROOFS. What a register write stores, and what a word write in the window of `IN` does (46_commands.md rule R240;
20_memory.md rule R69). -/

namespace Sys2Proof.Machine

/-! ### The form of an access, and the guard of `BUSY` -/

/-- An access is no aligned 32-bit word exactly when its offset is misaligned or its width is another. -/
theorem wordAccess_eq_false {off bytes : Nat} : wordAccess off bytes = false ↔ off % 4 ≠ 0 ∨ bytes ≠ 4 := by
  simp [wordAccess, or_comm, imp_iff_not_or]

theorem wordAccess_aligned {off : Nat} (h : off % 4 = 0) : wordAccess off 4 = true := by
  simp [wordAccess, h]

@[simp] theorem unlessBusy_idle {s : State} (h : s.busy = false) (t : State) : unlessBusy s t = .next t := by
  simp [unlessBusy, h]

@[simp] theorem unlessBusy_busy {s : State} (h : s.busy = true) (t : State) :
    unlessBusy s t = .refused .inputsFrozen := by
  simp [unlessBusy, h]

/-! ### A register write, offset by offset -/

theorem regWrite_of_not_word {off bytes : Nat} (h : off % 4 ≠ 0 ∨ bytes ≠ 4) (v : Word32) (s : State) :
    regWrite off bytes v s = .refused .badRegAccess :=
  if_pos (wordAccess_eq_false.mpr h)

theorem regWrite_status (v : Word32) (s : State) : regWrite offStatus 4 v s = .next (acknowledge v s) := rfl

theorem regWrite_cfg (v : Word32) (s : State) : regWrite offCfg 4 v s = .next { s with cfg := legalCfg v } := rfl

theorem regWrite_chunkN (v : Word32) (s : State) :
    regWrite offChunkN 4 v s = unlessBusy s { s with chunkN := v } := rfl

theorem regWrite_chunkRate (v : Word32) (s : State) :
    regWrite offChunkRate 4 v s = unlessBusy s { s with chunkRate := v } := rfl

theorem regWrite_chunkCh (v : Word32) (s : State) :
    regWrite offChunkCh 4 v s = unlessBusy s { s with chunkCh := v.extractLsb' 0 2 } := rfl

/-- Above the last register and below the window of `IN` a write is ignored (10_state.md rule R40). -/
theorem regWrite_reserved {off : Nat} (hlo : offChunkCh + 4 ≤ off) (hhi : off < inBase) (ha : off % 4 = 0) (v : Word32)
    (s : State) : regWrite off 4 v s = .next s := by
  simp only [offChunkCh, inBase] at hlo hhi
  have hnot : off ≠ offStatus ∧ off ≠ offCfg ∧ off ≠ offChunkN ∧ off ≠ offChunkRate ∧ off ≠ offChunkCh := by
    simp only [offStatus, offCfg, offChunkN, offChunkRate, offChunkCh]; omega
  have hbelow : ¬ inBase ≤ off := by simp only [inBase]; omega
  simp [regWrite, wordAccess_aligned ha, hbelow, hnot]

/-! ### The window of `IN` -/

theorem regWrite_above_inBase {off : Nat} (h : inBase ≤ off) (ha : off % 4 = 0) (v : Word32) (s : State) :
    regWrite off 4 v s = windowWrite off v s := by
  simp [regWrite, wordAccess_aligned ha, h]

/-- Exact real arithmetic has no word form: no word of the window is written (log entry 16). -/
theorem regWrite_window_exact {off : Nat} {s : State} (hx : s.exactFormat) (h : inBase ≤ off) (ha : off % 4 = 0)
    (v : Word32) : regWrite off 4 v s = .refused .sampleWindow := by
  rw [regWrite_above_inBase h ha, windowWrite, hx]

/-- The address of 20_memory.md rule R69: word `c * N_MAX + i` of the window is sample `(c, i)`. -/
theorem regWrite_window_sample {s : State} {i : Nat} (hb : s.env.par.num = .build) (hi : i < s.env.par.nMax) (c : Nat)
    (v : Word32) :
    regWrite (inBase + 4 * (c * s.env.par.nMax + i)) 4 v s = sampleLoad c i (wordSample v) s := by
  have hdiv : (c * s.env.par.nMax + i) / s.env.par.nMax = c := by
    rw [mul_comm, Nat.mul_add_div (Nat.zero_lt_of_lt hi), Nat.div_eq_of_lt hi, add_zero]
  have hmod : (c * s.env.par.nMax + i) % s.env.par.nMax = i := Nat.mul_add_mod_of_lt hi
  rw [regWrite_window hb, hdiv, hmod]

/-- There are two channels only (20_memory.md rule R61). -/
theorem sampleLoad_no_channel {c : Nat} (h : 2 ≤ c) (i : Nat) (v : LoadValue) (s : State) :
    sampleLoad c i v s = .refused .noSuchSample := by
  obtain ⟨k, rfl⟩ := Nat.exists_eq_add_of_le' h
  rfl

/-- A word past the samples of both channels is, by its address, a sample of a channel that does not exist. -/
theorem regWrite_above_window {s : State} {off : Nat} (hb : s.env.par.num = .build) (hn : 1 ≤ s.env.par.nMax)
    (h : inBase + 8 * s.env.par.nMax ≤ off) (ha : off % 4 = 0) (v : Word32) :
    regWrite off 4 v s = .refused .noSuchSample := by
  obtain ⟨k, rfl⟩ : ∃ k, off = inBase + 4 * k := ⟨(off - inBase) / 4, by simp only [inBase] at h ⊢; omega⟩
  have hchan : 2 ≤ k / s.env.par.nMax := (Nat.le_div_iff_mul_le hn).mpr (by omega)
  rw [regWrite_window hb, sampleLoad_no_channel hchan]

/-- Settles O55: each clause is the equation of `regWrite` at its class of offsets. -/
theorem registerWritesStore : Obligations.RegisterWritesStore := by
  intro s v
  refine ⟨regWrite_status v s, regWrite_cfg v s, fun hidle => ?idle, fun hbusy => ?busy,
    fun off hlo hhi ha => regWrite_reserved hlo hhi ha v s, fun off bytes h => regWrite_of_not_word h v s,
    fun c i hb hi => regWrite_window_sample hb hi c.index v, fun off hb hn h ha => regWrite_above_window hb hn h ha v,
    fun off hx h ha => regWrite_window_exact hx h ha v⟩
  case idle =>
    exact ⟨(regWrite_chunkN v s).trans (unlessBusy_idle hidle _),
      (regWrite_chunkRate v s).trans (unlessBusy_idle hidle _), (regWrite_chunkCh v s).trans (unlessBusy_idle hidle _)⟩
  case busy =>
    exact ⟨(regWrite_chunkN v s).trans (unlessBusy_busy hbusy _),
      (regWrite_chunkRate v s).trans (unlessBusy_busy hbusy _), (regWrite_chunkCh v s).trans (unlessBusy_busy hbusy _)⟩

end Sys2Proof.Machine
end

section
/-! PROOFS. What RESAMP computes over exact arithmetic, and what it leaves unchanged (40_resampler.md rules R120 to
R127). -/

namespace Sys2Proof.Machine

theorem format_of_exactFormat {s : State} (h : s.exactFormat) : s.format = .reference := by
  rw [State.format, h]
  rfl

@[simp] theorem resampleChannel_buf_get (c : Chan) (s : State) :
    (resampleChannel c s).buf.get c = resample s.format (s.hist.get c).h3 (readIn s c) s.ln.toNat s.lm :=
  Pair.get_set_same ..

@[simp] theorem resampleChannel_hist_get (c : Chan) (s : State) :
    (resampleChannel c s).hist.get c = lastFour (readIn s c) s.ln.toNat :=
  Pair.get_set_same ..

theorem realAt_resample (f : NumFormat) (carry : RealNum) (x : Nat → RealNum) {n m j : Nat} (h : j < m) :
    realAt (resample f carry x n m) j = (resampleAt f carry x n m j).toReal := by
  rw [realAt, List.getD_eq_getElem?_getD, resample_getElem? f carry x h, Option.getD_some]

/-- Settles O30: the buffer is `resample` of the carry and of the input, so its interior outputs are
`toReal_resampleAt` and its last is `toReal_resampleAt_last`; the history and the frame are those of
`resampleChannel`. -/
theorem resampleInterpolatesLinearly : Obligations.ResampleInterpolatesLinearly := by
  intro s w c hx hn hmax hm
  refine ⟨advance (.resamp c) (resampleChannel c s), execResamp_ok hn hmax hm, ?length, fun j hj => ?interior, ?last,
    resampleChannel_hist_get c s, ?frame⟩
  case length => rw [advance_buf, resampleChannel_buf_get, resample_length]
  case interior =>
    rw [advance_buf, resampleChannel_buf_get, realAt_resample _ _ _ (Nat.lt_of_succ_lt hj), format_of_exactFormat hx]
    exact toReal_resampleAt _ _ hj
  case last =>
    rw [advance_buf, resampleChannel_buf_get, realAt_resample _ _ _ (Nat.sub_lt hm Nat.one_pos),
      toReal_resampleAt_last _ _ _ _ _ hm, inReal]
  case frame => simp only [advance, resampleChannel, Pair.get_set_same]

end Sys2Proof.Machine
end

section
/-! PROOFS. Which row of a slot decides its variant (30_encoding.md rule R96). -/

namespace Sys2Proof

theorem SelRow.hits_iff {r : SelRow} {w : Sel} : r.hits w = true ↔ w &&& r.mask = r.pat := by
  simp [SelRow.hits]

/-- Two rows that one word hits agree on the bits that both fix. -/
theorem SelRow.agree_of_hits {r r' : SelRow} {w : Sel} (h : r.hits w = true) (h' : r'.hits w = true) :
    r'.pat &&& r.mask = r.pat &&& r'.mask := by
  rw [← SelRow.hits_iff.1 h, ← SelRow.hits_iff.1 h', BitVec.and_assoc, BitVec.and_assoc, BitVec.and_comm r.mask]

/-- Where the rows that a word hits name one operation, the first of them gives it. -/
theorem firstHit_eq_ok {w : Sel} {r : SelRow} {rs : List SelRow} (hr : r ∈ rs) (hit : r.hits w = true)
    (agree : ∀ r' ∈ rs, r'.hits w = true → r'.op w = r.op w) : firstHit w rs = .ok (r.op w) := by
  induction rs with
  | nil => cases hr
  | cons r₀ rs ih =>
    obtain ⟨agree₀, agree⟩ := List.forall_mem_cons.1 agree
    rw [firstHit]
    split_ifs with h₀
    · rw [agree₀ h₀]
    · have hne : r ≠ r₀ := fun e => h₀ (e ▸ hit)
      exact ih ((List.mem_cons.1 hr).resolve_left hne) agree

/-- A row that the word hits decides the variant, where each row of the slot names the same operation or differs from it
in a bit that both fix. -/
theorem decodeSel_of_row {k : Slot} {w : Sel} (r : SelRow) (hc : k.chanExists w = true) (hr : r ∈ k.rows)
    (hit : w &&& r.mask = r.pat)
    (hsep : ∀ r' ∈ k.rows, r'.op w = r.op w ∨ r'.pat &&& r.mask ≠ r.pat &&& r'.mask) :
    decodeSel k w = .ok (r.op w) := by
  have hit := SelRow.hits_iff.2 hit
  rw [decodeSel, if_pos hc]
  exact firstHit_eq_ok hr hit fun r' hr' hit' => (hsep r' hr').resolve_right (· (SelRow.agree_of_hits hit hit'))

theorem decode_pre50 {w : Sel} {c : Chan} (h : w &&& 0b001110#6 = 0b000000#6) (hc : w.hasChan c = true) :
    decode (.s (.pre c) w) = .ok (.pre50 w c) :=
  decodeSel_of_row ⟨0b001110#6, 0b000000#6, fun w => .pre50 w c⟩ hc (by simp [Slot.rows]) h (by simp [Slot.rows])

theorem decode_pre75 {w : Sel} {c : Chan} (h : w &&& 0b001110#6 = 0b000100#6) (hc : w.hasChan c = true) :
    decode (.s (.pre c) w) = .ok (.pre75 w c) :=
  decodeSel_of_row ⟨0b001110#6, 0b000100#6, fun w => .pre75 w c⟩ hc (by simp [Slot.rows]) h (by simp [Slot.rows])

theorem decode_preByp {w : Sel} {c : Chan}
    (h : w &&& 0b001100#6 = 0b001000#6 ∨ w &&& 0b000011#6 = 0b000010#6) (hc : w.hasChan c = true) :
    decode (.s (.pre c) w) = .ok (.preByp w c) := by
  rcases h with htau | hmode
  · exact decodeSel_of_row ⟨0b001100#6, 0b001000#6, fun w => .preByp w c⟩ hc (by simp [Slot.rows]) htau
      (by simp [Slot.rows])
  · exact decodeSel_of_row ⟨0b000011#6, 0b000010#6, fun w => .preByp w c⟩ hc (by simp [Slot.rows]) hmode
      (by simp [Slot.rows])

end Sys2Proof
end

section
/-! PROOFS. What PRE.50 and PRE.75 compute over exact arithmetic, what they leave unchanged, and that PRE.BYP changes
nothing (41_preemphasis.md rules R142 to R144). -/

namespace Sys2Proof.Machine

/-! ### The filter over a list

The sample or output before the first one stands at the head of the list: entry `n` of `st.xp :: xs` is `x[n-1]` and
entry `n` of `st.yp :: out` is `out[n-1]`. -/

theorem realAt_cons (a : RealNum) (l : List RealNum) (n : Nat) :
    realAt (a :: l) n = if n = 0 then a.toReal else realAt l (n - 1) := by
  cases n <;> rfl

/-- The recursion of 41_preemphasis.md rule R142 at each sample. -/
theorem realAt_preFilter_succ (k : Coef) (st : FilterState) (xs : List RealNum) {n : Nat} (h : n < xs.length) :
    realAt (st.yp :: (preFilter .reference k st xs).2) (n + 1) =
      k.b0.toReal * realAt (st.xp :: xs) (n + 1) + k.b1.toReal * realAt (st.xp :: xs) n -
        k.a1.toReal * realAt (st.yp :: (preFilter .reference k st xs).2) n := by
  induction xs generalizing st n with
  | nil => cases h
  | cons x xs ih =>
    cases n with
    | zero => simp [preFilter, realAt, NumFormat.reference]
    | succ n => exact ih ⟨x, _⟩ (Nat.lt_of_succ_lt_succ h)

/-- The state after a run is the last input and the last output, the state before it where there is none, as stored. -/
theorem preFilter_state (f : NumFormat) (k : Coef) (st : FilterState) (xs : List RealNum) :
    (preFilter f k st xs).1 =
      ⟨(st.xp :: xs).getD xs.length .zero, (st.yp :: (preFilter f k st xs).2).getD xs.length .zero⟩ := by
  induction xs generalizing st with
  | nil => rfl
  | cons x xs ih => exact ih ⟨x, _⟩

/-! ### The filter in place -/

@[simp] theorem filterChannel_buf_get (k : Coef) (c : Chan) (s : State) :
    (filterChannel k c s).buf.get c = (preFilter s.format k (s.fst.get c) (s.buf.get c)).2 :=
  Pair.get_set_same ..

@[simp] theorem filterChannel_fst_get (k : Coef) (c : Chan) (s : State) :
    (filterChannel k c s).fst.get c = (preFilter s.format k (s.fst.get c) (s.buf.get c)).1 :=
  Pair.get_set_same ..

/-- Settles O35: both operations run `filterChannel` with their own coefficients, whose outputs follow
`realAt_preFilter_succ` and whose state is `preFilter_state`. -/
theorem preEmphasisFollowsTheRecursion : Obligations.PreEmphasisFollowsTheRecursion := by
  unfold Obligations.PreEmphasisFollowsTheRecursion
  intro follows s w c hx
  have key : ∀ k, follows k c s (advance (.pre c) (filterChannel k c s)) := by
    intro k
    simp only [follows, ← realAt_cons, advance_buf, advance_fst, filterChannel_buf_get, filterChannel_fst_get,
      format_of_exactFormat hx]
    refine ⟨preFilter_length .., fun n hn => realAt_preFilter_succ k _ _ hn, ?lastInput, ?lastOutput, ?frame⟩
    case lastInput => rw [preFilter_state, realAt]
    case lastOutput => rw [preFilter_state, realAt]
    case frame => rw [advance, filterChannel, format_of_exactFormat hx]
  exact ⟨⟨decode_pre50, _, rfl, key _⟩, ⟨decode_pre75, _, rfl, key _⟩⟩

/-- Settles O39: PRE.BYP only moves the slot cursor. -/
theorem bypassIsExact : Obligations.BypassIsExact :=
  fun s _ c => ⟨decode_preByp, advance (.pre c) s, rfl, rfl⟩

end Sys2Proof.Machine
end

section
/-! PROOFS. What MIX.MONO, MIX.AVG and MIX.MPX compute, what they leave unchanged, and which selection words choose them
(42_stereo_mixer.md rules R156 to R159). -/

namespace Sys2Proof

/-! ### The rows of slot 5 -/

theorem decode_mixMono {w : Sel} (h : w &&& 0b100000#6 = 0b000000#6) : decode (.s .mix w) = .ok (.mixMono w) :=
  decodeSel_of_row ⟨0b100000#6, 0b000000#6, .mixMono⟩ rfl (by simp [Slot.rows]) h (by simp [Slot.rows])

theorem decode_mixAvg {w : Sel}
    (h : w &&& 0b110000#6 = 0b100000#6 ∨ w &&& 0b110011#6 = 0b110001#6 ∨ w &&& 0b110011#6 = 0b110010#6) :
    decode (.s .mix w) = .ok (.mixAvg w) := by
  rcases h with hstereo | hnarrow | ham
  · exact decodeSel_of_row ⟨0b110000#6, 0b100000#6, .mixAvg⟩ rfl (by simp [Slot.rows]) hstereo (by simp [Slot.rows])
  · exact decodeSel_of_row ⟨0b110011#6, 0b110001#6, .mixAvg⟩ rfl (by simp [Slot.rows]) hnarrow (by simp [Slot.rows])
  · exact decodeSel_of_row ⟨0b110011#6, 0b110010#6, .mixAvg⟩ rfl (by simp [Slot.rows]) ham (by simp [Slot.rows])

theorem decode_mixMpx {w : Sel} (h : w &&& 0b110011#6 = 0b110000#6) : decode (.s .mix w) = .ok (.mixMpx w) :=
  decodeSel_of_row ⟨0b110011#6, 0b110000#6, .mixMpx⟩ rfl (by simp [Slot.rows]) h (by simp [Slot.rows])

namespace Machine

/-! ### The mixed signal, sample by sample -/

@[simp] theorem realAt_nil (n : Nat) : realAt [] n = 0 := by
  simp [realAt]

/-- Beyond the two channels both sides are 0. -/
theorem realAt_zipWith_average {l r : List RealNum} (h : l.length = r.length) (n : Nat) :
    realAt (List.zipWith (average .reference) l r) n = (realAt l n + realAt r n) / 2 := by
  induction l generalizing r n with
  | nil =>
    rw [List.length_eq_zero_iff.1 h.symm]
    simp
  | cons x l ih =>
    obtain ⟨y, r, rfl⟩ := List.exists_cons_of_length_eq_add_one h.symm
    cases n with
    | zero => exact toReal_average x y
    | succ n => exact ih (Nat.succ.inj h) n

/-- The counter is stepped once for each sample, in every number format. -/
theorem mpx_pilot (f : NumFormat) (t : Nat) (p : Rat) {l r : List RealNum} (h : l.length = r.length) :
    (mpx f t p l r).1 = (f.pilotStep (pilotWrap t))^[l.length] p := by
  induction l generalizing p r with
  | nil => rfl
  | cons x l ih =>
    obtain ⟨y, r, rfl⟩ := List.exists_cons_of_length_eq_add_one h.symm
    exact ih _ (Nat.succ.inj h)

/-- Sample `n` uses the counter as the samples before it have stepped it, in every number format. -/
theorem mpx_getD (f : NumFormat) (t : Nat) (p : Rat) {l r : List RealNum} (h : l.length = r.length) {n : Nat}
    (hn : n < l.length) :
    (mpx f t p l r).2.getD n .zero =
      mpxSample f t ((f.pilotStep (pilotWrap t))^[n] p) (l.getD n .zero) (r.getD n .zero) := by
  induction l generalizing p r n with
  | nil => cases hn
  | cons x l ih =>
    obtain ⟨y, r, rfl⟩ := List.exists_cons_of_length_eq_add_one h.symm
    cases n with
    | zero => rfl
    | succ n => exact ih _ (Nat.succ.inj h) (Nat.lt_of_succ_lt_succ hn)

/-! ### The three operations -/

/-- Settles O40: MIX.MONO stores the channel's own list and moves the slot cursor. -/
theorem mixMonoCopies : Obligations.MixMonoCopies :=
  fun s _ => ⟨decode_mixMono, advance .mix { s with sig := s.buf.ch0 }, rfl, rfl⟩

/-- Settles O41: MIX.AVG stores the averages of the two channels' samples, `realAt_zipWith_average`. -/
theorem mixAvgAverages : Obligations.MixAvgAverages := by
  intro s w hx hlen
  refine ⟨decode_mixAvg, _, rfl, rfl, ?length, fun n => ?sample⟩
  case length => rw [advance_sig, List.length_zipWith, ← hlen, Nat.min_self]
  case sample => rw [advance_sig, format_of_exactFormat hx, realAt_zipWith_average hlen]

/-- Settles O42: MIX.MPX stores the samples of `mpx`, each of which uses the counter of its own sample (`mpx_getD`), and
the counter after the last (`mpx_pilot`). -/
theorem mixMpxMultiplexes : Obligations.MixMpxMultiplexes := by
  intro s w hx hlen p
  have hp : ∀ n, (NumFormat.reference.pilotStep (pilotWrap s.rate))^[n] s.pilot = p n := fun _ => rfl
  refine ⟨decode_mixMpx, _, rfl, rfl, ?length, ?counter, fun n hn => ?sample⟩
  case length => rw [advance_sig, mpx_length, ← hlen, Nat.min_self]
  case counter => rw [advance_pilot, mpx_pilot _ _ _ hlen, format_of_exactFormat hx, hp]
  case sample =>
    rw [advance_sig, realAt, mpx_getD _ _ _ hlen hn, format_of_exactFormat hx, hp, toReal_mpxSample, State.rate]
    norm_num [realAt]

end Machine

end Sys2Proof
end

section
/-! PROOFS. What MOD.WFM, MOD.NFM and MOD.AM compute over exact arithmetic, what they leave unchanged, and which
selection words choose them (43_modulator.md rules R176 to R180). -/

namespace Sys2Proof

/-! ### The rows of slot 6 -/

theorem decode_modWfm {w : Sel} (h : w &&& 0b000011#6 = 0b000000#6) : decode (.s .mod w) = .ok (.modWfm w) :=
  decodeSel_of_row ⟨0b000011#6, 0b000000#6, .modWfm⟩ rfl (by simp [Slot.rows]) h (by simp [Slot.rows])

theorem decode_modNfm {w : Sel} (h : w &&& 0b000011#6 = 0b000001#6) : decode (.s .mod w) = .ok (.modNfm w) :=
  decodeSel_of_row ⟨0b000011#6, 0b000001#6, .modNfm⟩ rfl (by simp [Slot.rows]) h (by simp [Slot.rows])

theorem decode_modAm {w : Sel} (h : w &&& 0b000011#6 = 0b000010#6) : decode (.s .mod w) = .ok (.modAm w) :=
  decodeSel_of_row ⟨0b000011#6, 0b000010#6, .modAm⟩ rfl (by simp [Slot.rows]) h (by simp [Slot.rows])

namespace Machine

/-! ### Entries and the gain as real numbers -/

theorem realAt_of_getElem? {l : List RealNum} {n : Nat} {x : RealNum} (h : l[n]? = some x) : realAt l n = x.toReal := by
  rw [realAt, List.getD_eq_getElem?_getD, h, Option.getD_some]

theorem realAt_of_lt {l : List RealNum} {n : Nat} (h : n < l.length) : realAt l n = l[n].toReal :=
  realAt_of_getElem? (List.getElem?_eq_getElem h)

theorem gainFactor_cast (w : Word32) : (gainFactor w : ℝ) = (cfgGain w : ℝ) / 100 := by
  simp [gainFactor]

/-! ### Amplitude modulation, pair by pair -/

/-- Pair `n` is the scaled sample and the stored 0, in every number format. -/
theorem amPairs_pair (f : NumFormat) (g : Rat) {xs : List RealNum} {n : Nat} (h : n < xs.length) :
    (amPairs f g xs)[2 * n]? = some (amSample f g xs[n]) ∧ (amPairs f g xs)[2 * n + 1]? = some .zero := by
  induction xs generalizing n with
  | nil => cases h
  | cons x xs ih =>
    cases n with
    | zero => exact ⟨rfl, rfl⟩
    | succ n => exact ih (Nat.lt_of_succ_lt_succ h)

/-- Settles O48: MOD.AM stores `amPairs` of the signal, whose pair `n` is `amPairs_pair`. -/
theorem amScalesAndClips : Obligations.AmScalesAndClips := by
  intro s w hx
  refine ⟨decode_modAm, _, rfl, rfl, amPairs_length .., fun n hn => ?pair⟩
  obtain ⟨hinPhase, hquadrature⟩ := amPairs_pair s.format (gainFactor s.lcfg) hn
  rw [advance_iq, realAt_of_getElem? hinPhase, realAt_of_getElem? hquadrature, format_of_exactFormat hx,
    toReal_amSample, gainFactor_cast, realAt_of_lt hn]
  norm_num

/-! ### Frequency modulation, pair by pair -/

/-- The phase after the first `n` samples (43_modulator.md rule R179). -/
def fmPhaseAt (f : NumFormat) (scale : RealNum) (g : Rat) (p : RealNum) (xs : List RealNum) (n : Nat) : RealNum :=
  (xs.take n).foldl (fmPhase f scale g) p

section

variable (f : NumFormat) (scale : RealNum) (g : Rat) (p : RealNum)

/-- Each sample advances the phase that the samples before it left. -/
theorem fmPhaseAt_succ {xs : List RealNum} {n : Nat} (h : n < xs.length) :
    fmPhaseAt f scale g p xs (n + 1) = fmPhase f scale g (fmPhaseAt f scale g p xs n) xs[n] := by
  rw [fmPhaseAt, List.take_succ_eq_append_getElem h, List.foldl_concat, fmPhaseAt]

/-- The phase left at the end is the one after the last sample. -/
theorem fmPairs_phase (xs : List RealNum) : (fmPairs f scale g p xs).1 = fmPhaseAt f scale g p xs xs.length := by
  induction xs generalizing p with
  | nil => rfl
  | cons x xs ih => exact ih (fmPhase f scale g p x)

/-- Pair `n` is the sine and the cosine of the phase after its own sample, in every number format. -/
theorem fmPairs_pair {xs : List RealNum} {n : Nat} (h : n < xs.length) :
    (fmPairs f scale g p xs).2[2 * n]? = some (f.sin (fmPhaseAt f scale g p xs (n + 1))) ∧
      (fmPairs f scale g p xs).2[2 * n + 1]? = some (f.cos (fmPhaseAt f scale g p xs (n + 1))) := by
  induction xs generalizing p n with
  | nil => cases h
  | cons x xs ih =>
    cases n with
    | zero => exact ⟨rfl, rfl⟩
    | succ n => exact ih (fmPhase f scale g p x) (Nat.lt_of_succ_lt_succ h)

end

/-- The recursion of 43_modulator.md rule R179 over exact arithmetic. -/
theorem toReal_fmPhaseAt_succ (dev t : Nat) (g : Rat) (p : RealNum) {xs : List RealNum} {n : Nat} (h : n < xs.length) :
    (fmPhaseAt .reference (phaseScale .reference dev t) g p xs (n + 1)).toReal =
      wrapReal ((fmPhaseAt .reference (phaseScale .reference dev t) g p xs n).toReal +
        2 * Real.pi * dev / t * clipReal (realAt xs n * g)) := by
  rw [fmPhaseAt_succ _ _ _ _ h, toReal_fmPhase, toReal_phaseScale, realAt_of_lt h]

/-- Settles O45: both operations run `modulateFm` with their own deviation. The sequence of phases is `fmPhaseAt`, of
which `toReal_fmPhaseAt_succ` is the recursion, `fmPairs_pair` the output and `fmPairs_phase` the last. -/
theorem fmAdvancesThePhase : Obligations.FmAdvancesThePhase := by
  unfold Obligations.FmAdvancesThePhase
  intro modulates s w hx
  have key : ∀ dev : Nat, modulates dev s (advance .mod (modulateFm dev s)) := by
    intro dev
    refine ⟨fun n => (fmPhaseAt s.format (phaseScale s.format dev s.rate) (gainFactor s.lcfg) s.phase s.sig n).toReal,
      rfl, ?last, fun n hn => ?pair, fmPairs_length .., rfl⟩
    case last => rw [advance_phase, modulateFm, fmPairs_phase]
    case pair =>
      obtain ⟨hsin, hcos⟩ := fmPairs_pair s.format (phaseScale s.format dev s.rate) (gainFactor s.lcfg) s.phase hn
      rw [advance_iq, modulateFm, realAt_of_getElem? hsin, realAt_of_getElem? hcos, format_of_exactFormat hx,
        ← gainFactor_cast]
      exact ⟨toReal_fmPhaseAt_succ _ _ _ _ hn, RealNum.toReal_sin _, RealNum.toReal_cos _⟩
  exact ⟨⟨decode_modWfm, _, rfl, mod_cast key deviationWide⟩,
    ⟨decode_modNfm, _, rfl, mod_cast key deviationNarrow⟩⟩

end Machine

end Sys2Proof
end

section
/-! PROOFS. What QUANT computes and what it leaves unchanged (44_quantizer.md rules R195 to R200). -/

namespace Sys2Proof

/-! ### Truncation toward zero -/

/-- Truncation does not enlarge a number: its square is at most the number's (44_quantizer.md rule R200). -/
theorem truncReal_sq_le (v : ℝ) : (truncReal v : ℝ) ^ 2 ≤ v ^ 2 := by
  have floor_sq_le : ∀ x : ℝ, 0 ≤ x → (⌊x⌋ : ℝ) ^ 2 ≤ x ^ 2 := fun x hx =>
    pow_le_pow_left₀ (mod_cast Int.floor_nonneg.2 hx) (Int.floor_le x) 2
  unfold truncReal
  split_ifs with hv
  · exact floor_sq_le v hv
  · have hneg := floor_sq_le (-v) (by linarith)
    rwa [neg_sq v, ← neg_sq, ← Int.cast_neg] at hneg

/-- The product of two rational numbers is computed. -/
theorem RealNum.mul_ofRat (p q : Rat) : (RealNum.ofRat p).mul (.ofRat q) = .ofRat (p * q) := by
  unfold RealNum.mul
  split_ifs with hzero hp hq
  · rcases hzero with h | h <;> cases h <;> simp [RealNum.ofRat, RealNum.zero]
  · cases hp; simp [RealNum.ofRat]
  · cases hq; simp [RealNum.ofRat]
  · simp [RealNum.ofRat, RealNum.scale]

namespace Machine

/-! ### One value -/

/-- A rational value's byte is stored as itself (log entry 3). -/
theorem quantValue_ofRat (q : Rat) : quantValue .reference (.ofRat q) = .known (int8 (truncRat (q * 127))) := by
  show ((RealNum.ofRat q).mul (.ofRat 127)).truncByte = _
  rw [RealNum.mul_ofRat, RealNum.truncByte_ofRat]

/-- Over exact arithmetic the byte of a value in `[-1, 1]` is `trunc(127 * v)` (44_quantizer.md rule R196). -/
theorem toInt_quantValue {v : RealNum} (h : v.inUnit = true) :
    (quantValue .reference v).toByte.toInt = truncReal (127 * v.toReal) := by
  obtain ⟨hlo, hhi⟩ := RealNum.inUnit_toReal h
  obtain ⟨hlo127, hhi127⟩ := truncReal_127 hlo hhi
  rw [toByte_quantValue, int8_toInt (by omega) (by omega), mul_comm]

/-- A pair inside the unit circle gives a pair inside the circle of radius 127 (44_quantizer.md rule R200). -/
theorem truncReal_127_circle {u v : ℝ} (h : u ^ 2 + v ^ 2 ≤ 1) :
    truncReal (127 * u) ^ 2 + truncReal (127 * v) ^ 2 ≤ 127 ^ 2 := by
  have hreal : (truncReal (127 * u) : ℝ) ^ 2 + (truncReal (127 * v) : ℝ) ^ 2 ≤ 127 ^ 2 :=
    calc (truncReal (127 * u) : ℝ) ^ 2 + (truncReal (127 * v) : ℝ) ^ 2
        ≤ (127 * u) ^ 2 + (127 * v) ^ 2 := add_le_add (truncReal_sq_le _) (truncReal_sq_le _)
      _ = 127 ^ 2 * (u ^ 2 + v ^ 2) := by ring
      _ ≤ 127 ^ 2 := mul_le_of_le_one_right (by norm_num) h
  exact_mod_cast hreal

/-! ### All values -/

/-- Where every value is in range, QUANT's bytes are those of the values, one by one and in order. -/
theorem quantBytes_of_inUnit (f : NumFormat) {vs : List RealNum} (h : ∀ v ∈ vs, v.inUnit = true) :
    quantBytes f vs = some (vs.map (quantValue f)) := by
  rw [quantBytes_eq_some, List.forall₂_map_right_iff, List.forall₂_same]
  exact fun v hv => quantByte_of_inUnit (h v hv)

theorem execQuant_of_inUnit {s : State} (h : ∀ v ∈ s.iq, v.inUnit = true) :
    execQuant s = .next (advance .quant (handOver (s.iq.map (quantValue s.format)) s)) :=
  execQuant_ok (quantBytes_of_inUnit s.format h)

/-- Settles O50: QUANT hands over the `quantValue` of each value. Its range is `quantValue_bounds` in every number
format; over exact arithmetic it is `toInt_quantValue`, so the circle is `truncReal_127_circle`. -/
theorem quantTruncatesTowardZero : Obligations.QuantTruncatesTowardZero := by
  intro s w hunit
  refine ⟨_, execQuant_of_inUnit hunit, rfl, List.length_map _, ?range, fun hx => ?exact⟩
  case range =>
    intro b hb
    obtain ⟨v, hv, rfl⟩ := List.mem_map.1 hb
    exact quantValue_bounds s.env.par.num (hunit v hv)
  case exact =>
    rw [advance_outb, handOver_outb, format_of_exactFormat hx]
    have byte_of : ∀ (n : Nat) (v : RealNum) (b : IQByte), s.iq[n]? = some v →
        (s.iq.map (quantValue .reference))[n]? = some b → v.inUnit = true ∧ b = quantValue .reference v := by
      intro n v b hv hb
      rw [List.getElem?_map, hv] at hb
      exact ⟨hunit v (List.mem_of_getElem? hv), (Option.some.inj hb).symm⟩
    refine ⟨fun n v b hv hb => ?value, fun n m u v a b hu hv ha hb hcircle => ?circle⟩
    case value =>
      obtain ⟨hin, rfl⟩ := byte_of n v b hv hb
      exact ⟨toInt_quantValue hin, fun q hq => ⟨_, hq ▸ quantValue_ofRat q⟩⟩
    case circle =>
      obtain ⟨huIn, rfl⟩ := byte_of n u a hu ha
      obtain ⟨hvIn, rfl⟩ := byte_of m v b hv hb
      rw [toInt_quantValue huIn, toInt_quantValue hvIn]
      exact truncReal_127_circle hcircle

end Machine

end Sys2Proof
end

section
/-! PROOFS. From a sound state no step stops with a fault, and PRODUCER's moves go on (60_exceptions.md rule R255;
44_quantizer.md rule R199). -/

namespace Sys2Proof.Machine

/-! ### The latch of a sound state selects a variant in every slot -/

theorem legalField_ne_three (f : BitVec 2) : legalField f ≠ 3#2 := by
  revert f
  decide

theorem cfgMode_legalCfg (v : Word32) : cfgMode (legalCfg v) = legalField (cfgMode v) := by
  ext i hi
  interval_cases i <;> simp [cfgMode, legalCfg]

theorem cfgTau_legalCfg (v : Word32) : cfgTau (legalCfg v) = legalField (cfgTau v) := by
  ext i hi
  interval_cases i <;> simp [cfgTau, legalCfg]

/-- The selection word of a sound state has no reserved field (30_encoding.md rule R99). -/
theorem sel_legal {s : State} (h : s.regSound) : s.sel.mode ≠ 3#2 ∧ s.sel.tau ≠ 3#2 := by
  obtain ⟨_, _, hlegal⟩ := h
  obtain ⟨hmode, htau, _⟩ := sel_fields s
  rw [hmode, htau, ← hlegal, cfgMode_legalCfg, cfgTau_legalCfg]
  exact ⟨legalField_ne_three _, legalField_ne_three _⟩

/-- A slot of channel 1 exists in a chunk of two channels (46_commands.md rule R235). -/
theorem chanExists_sel {s : State} {k : Slot} (h : k = .resamp .ch1 ∨ k = .pre .ch1 → s.lch = 2#2) :
    k.chanExists s.sel = true := by
  have hsecond : k = .resamp .ch1 ∨ k = .pre .ch1 → s.sel.ch2 = true := fun hk => by
    rw [(sel_fields s).2.2, State.stereoChunk, h hk, beq_self_eq_true]
  cases k with
  | resamp c => cases c with
    | ch0 => rfl
    | ch1 => exact hsecond (.inl rfl)
  | pre c => cases c with
    | ch0 => rfl
    | ch1 => exact hsecond (.inr rfl)
  | mix | mod | quant | enq => rfl

/-! ### The operation of the slot goes on -/

/-- The two operations that can stop go on, RESAMP where CHUNK's checks have passed and QUANT where its values are in
range; the others always do. -/
theorem exec_slot_next {k : Slot} {i : Instr} {s : State} (hd : decodeSel k s.sel = .ok i) (hn : 4 ≤ s.ln.toNat)
    (hmax : s.ln.toNat ≤ s.env.par.nMax) (hm : 1 ≤ s.lm) (hq : k = .quant → ∀ v ∈ s.iq, v.inUnit = true) :
    ∃ t, exec i s = .next t := by
  obtain ⟨hagent, hencode⟩ := decodeSel_slot hd
  cases i with
  | resamp w c => exact ⟨_, execResamp_ok hn hmax hm⟩
  | quant w =>
    obtain ⟨hk, _⟩ := OpWord.s.inj hencode
    exact ⟨_, execQuant_of_inUnit (hq hk.symm)⟩
  | nop | chunk | srst | deq => cases hagent
  | pre50 | pre75 | preByp | mixMono | mixAvg | mixMpx | modWfm | modNfm | modAm | enq => exact ⟨_, rfl⟩

/-- In a sound state the slot at which the chunk stands selects an operation, and the operation goes on. -/
theorem sound_slot_next {s : State} {k : Slot} (h : s.sound) (hk : s.stage = some k) :
    ∃ i t, decodeSel k s.sel = .ok i ∧ exec i s = .next t := by
  obtain ⟨_, _, _, hreg, hseq⟩ := h
  rw [State.seqSound, hk] at hseq
  obtain ⟨_, hn, hmax, hm, _, hchan, hbuf⟩ := hseq
  obtain ⟨hmode, htau⟩ := sel_legal hreg
  obtain ⟨i, hd⟩ := decodeSel_ok hmode htau (chanExists_sel hchan)
  have hrange : k = .quant → ∀ v ∈ s.iq, v.inUnit = true := by
    rintro rfl
    exact hbuf.2
  obtain ⟨t, ht⟩ := exec_slot_next hd hn hmax hm hrange
  exact ⟨i, t, hd, ht⟩

/-! ### PRODUCER's move -/

theorem step_producer_idle {s : State} {ts : List Turn} (hs : s.env.sched = .producer :: ts) (hk : s.stage = none) :
    step s = .next (popTurn s) := by
  simp [step, move, fetch, otherMove, hs, hk]

theorem step_producer_slot {s : State} {ts : List Turn} {k : Slot} {i : Instr} (hs : s.env.sched = .producer :: ts)
    (hk : s.stage = some k) (hd : decodeSel k s.sel = .ok i) : step s = exec i (popTurn s) := by
  simp [step, move, fetch, fetched, runWord, decode, hs, hk, hd]

theorem sound_producer_next {s : State} {ts : List Turn} (h : s.sound) (hs : s.env.sched = .producer :: ts) :
    ∃ t, step s = .next t := by
  cases hk : s.stage with
  | none => exact ⟨_, step_producer_idle hs hk⟩
  | some k =>
    have hpop : (popTurn s).sound := h
    obtain ⟨i, t, hd, ht⟩ := sound_slot_next hpop hk
    exact ⟨t, (step_producer_slot hs hk hd).trans ht⟩

/-! ### Only PRODUCER's moves can fault -/

/-- RESAMP alone raises the model's faults. -/
theorem exec_fault {i : Instr} {s : State} {f : Fault} (h : exec i s = .fault f) : ∃ w c, i = .resamp w c := by
  cases i with
  | resamp w c => exact ⟨w, c, rfl⟩
  | deq len =>
    simp only [exec, execDeq] at h
    split at h <;> cases h
  | quant w =>
    simp only [exec, execQuant] at h
    split at h <;> cases h
  | nop | chunk | srst | pre50 | pre75 | preByp | mixMono | mixAvg | mixMpx | modWfm | modNfm | modAm | enq => cases h

theorem rejectWord_ne_fault (e : Reject) (s : State) (f : Fault) : rejectWord e s ≠ .fault f := by
  cases e <;> exact nofun

theorem unlessBusy_ne_fault (s t : State) (f : Fault) : unlessBusy s t ≠ .fault f := by
  unfold unlessBusy
  split <;> exact nofun

theorem sampleLoad_ne_fault (c i : Nat) (v : LoadValue) (s : State) (f : Fault) : sampleLoad c i v s ≠ .fault f := by
  unfold sampleLoad
  split
  · exact nofun
  · exact nofun
  · split
    · exact nofun
    · exact unlessBusy_ne_fault _ _ f

theorem regWrite_ne_fault (off bytes : Nat) (v : Word32) (s : State) (f : Fault) :
    regWrite off bytes v s ≠ .fault f := by
  have hwindow : windowWrite off v s ≠ .fault f := by
    unfold windowWrite
    split
    · exact sampleLoad_ne_fault _ _ _ _ f
    · exact nofun
  unfold regWrite
  split_ifs
  · exact nofun
  · exact hwindow
  · exact nofun
  · exact nofun
  · exact unlessBusy_ne_fault _ _ f
  · exact unlessBusy_ne_fault _ _ f
  · exact unlessBusy_ne_fault _ _ f
  · exact nofun

theorem regRead_ne_fault (off bytes : Nat) (s : State) (f : Fault) : regRead off bytes s ≠ .fault f := by
  unfold regRead
  split_ifs <;> exact nofun

theorem hostAccess_ne_fault (s : State) (f : Fault) : hostAccess s ≠ .fault f := by
  unfold hostAccess
  split
  · exact nofun
  · split_ifs
    · exact nofun
    · exact regWrite_ne_fault _ _ _ _ f
  · exact regRead_ne_fault _ _ _ f
  · exact sampleLoad_ne_fault _ _ _ _ f

theorem otherMove_ne_fault (s : State) (f : Fault) : otherMove s ≠ .fault f := by
  unfold otherMove
  split
  case h_1 => exact hostAccess_ne_fault _ f
  all_goals exact nofun

/-- A word that decodes to RESAMP is a selection word, so it is PRODUCER that presents it. -/
theorem fetch_resamp {s : State} {o : OpWord} {w : Sel} {c : Chan} (hf : fetch s = some o)
    (hd : decode o = .ok (.resamp w c)) : ∃ ts, s.env.sched = .producer :: ts := by
  rcases fetch_cases hf with ⟨_, _, _, _, v, _, _, _, _, rfl, _⟩ | ⟨ts, _, hs, _⟩ | ⟨_, _, _, rfl, _⟩
  · rw [decode] at hd
    rcases decodeCommand_cases v with ⟨_, hv⟩ | ⟨_, hv⟩ | ⟨_, hv⟩ | ⟨_, _, _, hv⟩ <;> cases hv.symm.trans hd
  · exact ⟨ts, hs⟩
  · cases hd

theorem step_fault {s : State} {f : Fault} (h : step s = .fault f) : ∃ ts, s.env.sched = .producer :: ts := by
  rcases step_cases s with ⟨o, i, hf, hd, hstep⟩ | ⟨_, e, _, _, hstep⟩ | ⟨_, hstep⟩
  · obtain ⟨w, c, rfl⟩ := exec_fault (hstep.symm.trans h)
    exact fetch_resamp hf hd
  · exact absurd (hstep.symm.trans h) (rejectWord_ne_fault e _ f)
  · exact absurd (hstep.symm.trans h) (otherMove_ne_fault s f)

/-- Settles O27: only PRODUCER's moves can fault (`step_fault`), and in a sound state they go on
(`sound_producer_next`). -/
theorem noStageOfASoundStateStops : Obligations.NoStageOfASoundStateStops := by
  intro s h
  refine ⟨fun f hf => ?fault, fun ts hs => sound_producer_next h hs⟩
  case fault =>
    obtain ⟨ts, hs⟩ := step_fault hf
    obtain ⟨t, ht⟩ := sound_producer_next h hs
    cases hf.symm.trans ht

end Sys2Proof.Machine
end

section
/-! PROOFS. What DEQ returns, frees and leaves unchanged on a non-empty ring and on an empty one (45_ring_buffer.md rules
R210, R211; 60_exceptions.md rule R268). -/

namespace Sys2Proof.Machine

theorem exec_deq_of_pos {len : Word32} {s : State} (hlen : len.toNat = s.env.par.ringB) (hcount : 0 < s.count) :
    exec (.deq len) s = .next (dequeueBlock s) := by
  simp [exec, execDeq, hlen, hcount]

theorem exec_deq_of_empty {len : Word32} {s : State} (hlen : len.toNat = s.env.par.ringB) (hcount : s.count = 0) :
    exec (.deq len) s = .next (underrun s) := by
  simp [exec, execDeq, hlen, hcount]

/-- Settles O14: DEQ runs `dequeueBlock`, and `claim` and `answer` write no other field of the state than those named. -/
theorem deqReturnsTheTailBlock : Obligations.DeqReturnsTheTailBlock := by
  intro s len hlen hcount
  exact ⟨rfl, exec_deq_of_pos hlen hcount⟩

/-- Settles O15: DEQ runs `underrun`, which writes no other field of the state than the sticky bits and the answer. -/
theorem deqOnAnEmptyRingReturnsZeros : Obligations.DeqOnAnEmptyRingReturnsZeros := by
  intro s len hlen hcount
  exact exec_deq_of_empty hlen hcount

end Sys2Proof.Machine
end

section
/-! PROOFS. What a reserved command word and NOP do (46_commands.md rules R231, R239; 60_exceptions.md rule R263). -/

namespace Sys2Proof.Machine

theorem decodeCommand_of_reserved {v : Word32} (h0 : v ≠ 0#32) (h1 : v ≠ 1#32) (h2 : v ≠ 2#32) :
    decodeCommand v = .error .reservedCommand := by
  rcases decodeCommand_cases v with ⟨h, _⟩ | ⟨h, _⟩ | ⟨h, _⟩ | ⟨_, _, _, hd⟩
  · exact absurd h h0
  · exact absurd h h1
  · exact absurd h h2
  · exact hd

theorem runWord_of_reserved {w : OpWord} (hd : decode w = .error .reservedCommand) (s : State) :
    runWord w s = .next (raiseFault .fCmd s) := by
  rw [runWord, hd]
  rfl

theorem faultBit_fCmd : faultBit .fCmd = 0x00200000#32 := by decide

/-- A state as its own effect is what is left whether the command is held or not. -/
theorem whenIdle_self (s : State) : whenIdle s s = s := by
  rcases whenIdle_cases s s with ⟨_, h⟩ | ⟨_, h⟩ <;> exact h

theorem exec_nop (s : State) : exec .nop s = .next s := congrArg _ (whenIdle_self s)

/-- Settles O7: a reserved word does not decode, and its rejection raises `F_CMD`, which writes the sticky bits alone. -/
theorem reservedCommandOnlySetsFCmd : Obligations.ReservedCommandOnlySetsFCmd := by
  intro s v h0 h1 h2 _
  have hd : decode (.k v) = .error .reservedCommand := decodeCommand_of_reserved h0 h1 h2
  rw [runWord_of_reserved hd, raiseFault, faultBit_fCmd]

/-- Settles O9: the word 0 is NOP's, and NOP's effect is the state it starts from. -/
theorem nopChangesNothing : Obligations.NopChangesNothing :=
  ⟨rfl, exec_nop⟩

end Sys2Proof.Machine
end

section
/-! PROOFS. The faults of CHUNK: which of its checks answers (46_commands.md rule R232; 60_exceptions.md rules R257 to
R262), and that a fault sets its own bit only (60_exceptions.md rule R264). -/

namespace Sys2Proof.Machine

/-- What CHUNK's first check asks, in the positive form (60_exceptions.md rule R257). -/
theorem not_badChannels {n : BitVec 2} (h : n = 1#2 ∨ n = 2#2) : ¬(n ≠ 1#2 ∧ n ≠ 2#2) :=
  fun ⟨h1, h2⟩ => h.elim h1 h2

section
variable {s : State}

theorem chunkFault_fChan (hch : s.chunkCh ≠ 1#2 ∧ s.chunkCh ≠ 2#2) : chunkFault s = some .fChan :=
  if_pos hch

theorem chunkFault_fRate (hch : s.chunkCh = 1#2 ∨ s.chunkCh = 2#2) (hrate : s.chunkRate = 0#32) :
    chunkFault s = some .fRate := by
  rw [chunkFault, if_neg (not_badChannels hch), if_pos hrate]

theorem chunkFault_fShort (hch : s.chunkCh = 1#2 ∨ s.chunkCh = 2#2) (hrate : s.chunkRate ≠ 0#32)
    (hshort : s.chunkN.toNat < 4) : chunkFault s = some .fShort := by
  rw [chunkFault, if_neg (not_badChannels hch), if_neg hrate, if_pos hshort]

theorem chunkFault_fLen (hch : s.chunkCh = 1#2 ∨ s.chunkCh = 2#2) (hrate : s.chunkRate ≠ 0#32)
    (hmin : 4 ≤ s.chunkN.toNat) (hlen : s.env.par.nMax < s.chunkN.toNat) : chunkFault s = some .fLen := by
  rw [chunkFault, if_neg (not_badChannels hch), if_neg hrate, if_neg hmin.not_gt, if_pos hlen]

/-- The last check asks whether the output count is 0; for a rate that is not 0 this is `2 * N * T < S`
(60_exceptions.md rule R261). -/
theorem chunkFault_fMzero (hch : s.chunkCh = 1#2 ∨ s.chunkCh = 2#2) (hrate : s.chunkRate ≠ 0#32)
    (hmin : 4 ≤ s.chunkN.toNat) (hmax : s.chunkN.toNat ≤ s.env.par.nMax)
    (hzero : 2 * s.chunkN.toNat * s.env.par.targetRate < s.chunkRate.toNat) : chunkFault s = some .fMzero := by
  have hcount : outCount s.chunkN.toNat s.rate s.chunkRate.toNat = 0 :=
    (outCount_eq_zero (Nat.zero_lt_of_lt hzero)).mpr hzero
  rw [chunkFault, if_neg (not_badChannels hch), if_neg hrate, if_neg hmin.not_gt, if_neg hmax.not_gt, if_pos hcount]

theorem acceptChunk_of_fault {f : FaultCode} (hfault : chunkFault s = some f) : acceptChunk s = raiseFault f s := by
  rw [acceptChunk, hfault]

/-- A CHUNK that a check rejects sets the fault's bit and writes nothing else (60_exceptions.md rule R264). -/
theorem exec_chunk_of_fault {f : FaultCode} {bit : Word32} (hidle : s.busy = false) (hfault : chunkFault s = some f)
    (hbit : faultBit f = bit) : exec .chunk s = .next { s with sticky := s.sticky ||| bit } := by
  rw [exec, execChunk, whenIdle_idle hidle, acceptChunk_of_fault hfault, raiseFault, hbit]

end

/-- Settles O11: each clause names the first check that fails, and `exec_chunk_of_fault` says what that fault does. -/
theorem chunkFaultsInOrderAndPrecisely : Obligations.ChunkFaultsInOrderAndPrecisely := by
  intro s hidle
  refine ⟨fun hch => ?chan, fun hch hrate => ?rate, fun hch hrate hshort => ?short,
    fun hch hrate hmin hlen => ?len, fun hch hrate hmin hmax hzero => ?mzero⟩
  case chan => exact exec_chunk_of_fault hidle (chunkFault_fChan hch) (by decide)
  case rate => exact exec_chunk_of_fault hidle (chunkFault_fRate hch hrate) (by decide)
  case short => exact exec_chunk_of_fault hidle (chunkFault_fShort hch hrate hshort) (by decide)
  case len => exact exec_chunk_of_fault hidle (chunkFault_fLen hch hrate hmin hlen) (by decide)
  case mzero => exact exec_chunk_of_fault hidle (chunkFault_fMzero hch hrate hmin hmax hzero) (by decide)

end Sys2Proof.Machine
end

section
/-! PROOFS. An operation of a chunk neither reads nor writes `CFG`: the chunk has its configuration from the latch
(70_reset_and_hazards.md rule R305). -/

namespace Sys2Proof.Machine

/-! ### ENQ, whose branches are decided by the ring's cursors and the pending bytes -/

theorem enqueueByte_cfg (b : IQByte) (s : State) : (enqueueByte b s).cfg = s.cfg := by
  unfold enqueueByte
  split <;> rfl

theorem enqueueByte_set_cfg (b : IQByte) (s : State) (v : Word32) :
    enqueueByte b { s with cfg := v } = { enqueueByte b s with cfg := v } := by
  by_cases hfull : s.off + 1 = s.env.par.ringB
  · simp only [enqueueByte, if_pos hfull]; rfl
  · simp only [enqueueByte, if_neg hfull]; rfl

theorem completeIfDone_cfg (s : State) : (completeIfDone s).cfg = s.cfg := by
  unfold completeIfDone
  split <;> rfl

theorem completeIfDone_set_cfg (s : State) (v : Word32) :
    completeIfDone { s with cfg := v } = { completeIfDone s with cfg := v } := by
  by_cases hdone : s.pend.length ≤ s.pidx
  · simp only [completeIfDone, if_pos hdone]; rfl
  · simp only [completeIfDone, if_neg hdone]

theorem enqStep_cfg (s : State) : (enqStep s).cfg = s.cfg := by
  obtain ⟨_, hdone⟩ | ⟨_, _, hheld⟩ | ⟨b, _, _, hstored⟩ := enqStep_cases s
  · rw [hdone, finishChunk_cfg]
  · rw [hheld]
  · rw [hstored, completeIfDone_cfg, enqueueByte_cfg]

theorem enqStep_set_cfg (s : State) (v : Word32) : enqStep { s with cfg := v } = { enqStep s with cfg := v } := by
  unfold enqStep
  cases s.pend[s.pidx]? with
  | none => rfl
  | some b =>
    by_cases hroom : s.count < s.env.par.ringC
    · simp only [if_pos hroom, enqueueByte_set_cfg, completeIfDone_set_cfg]
    · simp only [if_neg hroom]

/-- Settles O51: RESAMP and QUANT stop on conditions of the latch and of the samples alone, ENQ is `enqStep`, and every
other operation of a chunk is one update that names `CFG` nowhere. -/
theorem configurationActsThroughTheLatchOnly : Obligations.ConfigurationActsThroughTheLatchOnly := by
  intro i s t v hagent hexec
  cases i with
  | resamp w c =>
    obtain ⟨hmin, hmax, hout, rfl⟩ := execResamp_next hexec
    exact ⟨rfl, execResamp_ok (s := { s with cfg := v }) hmin hmax hout⟩
  | quant w =>
    obtain ⟨bs, hbytes, rfl⟩ := execQuant_next hexec
    exact ⟨rfl, execQuant_ok (s := { s with cfg := v }) hbytes⟩
  | enq w =>
    cases hexec
    exact ⟨enqStep_cfg s, congrArg _ (enqStep_set_cfg s v)⟩
  | pre50 | pre75 | preByp | mixMono | mixAvg | mixMpx | modWfm | modNfm | modAm =>
    cases hexec
    exact ⟨rfl, rfl⟩
  | nop | chunk | srst | deq => cases hagent

end Sys2Proof.Machine
end

section
/-! PROOFS. The encoder and the decoder are inverse to each other, and each selection word selects one variant in each
slot (30_encoding.md rules R91 to R96). -/

namespace Sys2Proof

/-! ### Each condition in words is its patterns of bits (30_encoding.md rule R96) -/

theorem Sel.isPre50_iff : ∀ {w : Sel}, w.isPre50 = true ↔ w &&& 0b001110#6 = 0b000000#6 := by decide
theorem Sel.isPre75_iff : ∀ {w : Sel}, w.isPre75 = true ↔ w &&& 0b001110#6 = 0b000100#6 := by decide
theorem Sel.isPreByp_iff : ∀ {w : Sel}, w.isPreByp = true ↔
    w &&& 0b001100#6 = 0b001000#6 ∨ w &&& 0b000011#6 = 0b000010#6 := by decide
theorem Sel.isMono_iff : ∀ {w : Sel}, w.isMono = true ↔ w &&& 0b100000#6 = 0b000000#6 := by decide
theorem Sel.isAvg_iff : ∀ {w : Sel}, w.isAvg = true ↔
    w &&& 0b110000#6 = 0b100000#6 ∨ w &&& 0b110011#6 = 0b110001#6 ∨ w &&& 0b110011#6 = 0b110010#6 := by decide
theorem Sel.isMpx_iff : ∀ {w : Sel}, w.isMpx = true ↔ w &&& 0b110011#6 = 0b110000#6 := by decide
/-- `MODE` is the pattern's two low bits. -/
theorem Sel.mode_eq_iff : ∀ {w : Sel} {m : BitVec 2}, w.mode = m ↔ w &&& 0b000011#6 = m.setWidth 6 := by decide

/-! ### The slots with one row, which every word hits -/

theorem decode_resamp {w : Sel} {c : Chan} (hc : w.hasChan c = true) :
    decode (.s (.resamp c) w) = .ok (.resamp w c) :=
  decodeSel_of_row (k := .resamp c) ⟨0b000000#6, 0b000000#6, fun w => .resamp w c⟩ hc (by simp [Slot.rows])
    BitVec.and_zero (by simp [Slot.rows])

theorem decode_quant (w : Sel) : decode (.s .quant w) = .ok (.quant w) :=
  decodeSel_of_row ⟨0b000000#6, 0b000000#6, .quant⟩ rfl (by simp [Slot.rows]) BitVec.and_zero (by simp [Slot.rows])

theorem decode_enq (w : Sel) : decode (.s .enq w) = .ok (.enq w) :=
  decodeSel_of_row ⟨0b000000#6, 0b000000#6, .enq⟩ rfl (by simp [Slot.rows]) BitVec.and_zero (by simp [Slot.rows])

/-! ### Round trips -/

/-- Settles O1: each operation's condition in words is a pattern of its row, and the row decides the slot. -/
theorem decodeInvertsEncode : Obligations.DecodeInvertsEncode := by
  intro i h
  cases i with
  | nop | chunk | srst | deq => rfl
  | resamp w c => exact decode_resamp h
  | pre50 w c =>
    obtain ⟨hrow, hchan⟩ := Bool.and_eq_true_iff.1 h
    exact decode_pre50 (Sel.isPre50_iff.1 hrow) hchan
  | pre75 w c =>
    obtain ⟨hrow, hchan⟩ := Bool.and_eq_true_iff.1 h
    exact decode_pre75 (Sel.isPre75_iff.1 hrow) hchan
  | preByp w c =>
    obtain ⟨hrow, hchan⟩ := Bool.and_eq_true_iff.1 h
    exact decode_preByp (Sel.isPreByp_iff.1 hrow) hchan
  | mixMono w => exact decode_mixMono (Sel.isMono_iff.1 h)
  | mixAvg w => exact decode_mixAvg (Sel.isAvg_iff.1 h)
  | mixMpx w => exact decode_mixMpx (Sel.isMpx_iff.1 h)
  | modWfm w => exact decode_modWfm (Sel.mode_eq_iff.1 (eq_of_beq h))
  | modNfm w => exact decode_modNfm (Sel.mode_eq_iff.1 (eq_of_beq h))
  | modAm w => exact decode_modAm (Sel.mode_eq_iff.1 (eq_of_beq h))
  | quant w => exact decode_quant w
  | enq w => exact decode_enq w

/-- Settles O2: a command word is one of the three, a request keeps its length, and a selection word is
`decodeSel_slot` and `decodeSel_wellFormed`. -/
theorem encodeInvertsDecode : Obligations.EncodeInvertsDecode := by
  intro w i h
  cases w with
  | k v =>
    rw [decode] at h
    rcases Machine.decodeCommand_cases v with ⟨rfl, hv⟩ | ⟨rfl, hv⟩ | ⟨rfl, hv⟩ | ⟨_, _, _, hv⟩ <;>
      cases hv.symm.trans h <;> exact ⟨rfl, rfl⟩
  | t len =>
    cases h
    exact ⟨rfl, rfl⟩
  | s k w => exact ⟨(Machine.decodeSel_slot h).2, Machine.decodeSel_wellFormed h⟩

/-! ### One variant in each slot -/

/-- With legal fields some row of the slot has the word's bits (30_encoding.md rule R96). -/
theorem exists_row_hits {w : Sel} (hmode : w.mode ≠ 3#2) (htau : w.tau ≠ 3#2) (k : Slot) :
    ∃ r ∈ k.rows, r.hits w = true := by
  have key : ∀ w : Sel, w.mode ≠ 3#2 → w.tau ≠ 3#2 →
      ((Slot.pre .ch0).rows.any (·.hits w) = true ∧ Slot.mix.rows.any (·.hits w) = true ∧
        Slot.mod.rows.any (·.hits w) = true) := by decide
  obtain ⟨hpre, hmix, hmod⟩ := key w hmode htau
  rw [← List.any_eq_true]
  cases k with
  | resamp | quant | enq => simp [Slot.rows, SelRow.hits]
  | pre c => exact hpre
  | mix => exact hmix
  | mod => exact hmod

/-- Two rows of a slot name one operation, or differ in a bit that both fix. -/
theorem rows_separated (k : Slot) (w : Sel) :
    ∀ r ∈ k.rows, ∀ r' ∈ k.rows, r.op w = r'.op w ∨ r'.pat &&& r.mask ≠ r.pat &&& r'.mask := by
  cases k <;> simp [Slot.rows]

/-- Settles O3: some row hits the word (`exists_row_hits`), and rows of different operations cannot both hit it
(`rows_separated`). -/
theorem everySelectionMatchesOneVariant : Obligations.EverySelectionMatchesOneVariant :=
  fun k w hmode htau => ⟨exists_row_hits hmode htau k, fun _ hr _ hr' hit hit' =>
    (rows_separated k w _ hr _ hr').resolve_right (· (SelRow.agree_of_hits hit hit'))⟩

/-- Settles O4: fixed words, each of which evaluates. -/
theorem wordsOfTheTablesDecode : Obligations.WordsOfTheTablesDecode := by
  unfold Obligations.WordsOfTheTablesDecode
  decide

namespace Machine

theorem sel_stereo (s : State) : s.sel.stereo = cfgStereo s.lcfg := by
  unfold State.sel
  cases s.stereoChunk <;> simp [Sel.stereo, cfgStereo]

/-- Settles O5: `sel_fields` and `sel_stereo`. -/
theorem selectionWordIsFormedFromTheLatch : Obligations.SelectionWordIsFormedFromTheLatch := by
  intro s
  obtain ⟨hmode, htau, hch⟩ := sel_fields s
  refine ⟨hmode, htau, sel_stereo s, ?_⟩
  rw [hch, State.stereoChunk, beq_iff_eq]

end Machine

end Sys2Proof
end

section
/-! PROOFS. Which operation or access a step runs, for each move; and the commands (30_encoding.md rule R90;
46_commands.md rules R230 to R242). -/

namespace Sys2Proof.Machine

/-! ### A step, by what the next move presents -/

theorem step_of_fetch {s : State} {w : OpWord} (h : fetch s = some w) : step s = runWord w (fetched s) := by
  rw [step, move, h]

theorem step_of_no_fetch {s : State} (h : fetch s = none) : step s = otherMove s := by
  rw [step, move, h]

section
variable {s : State} {ts : List Turn}

theorem step_host_command {v : Word32} {q : List HostOp} (hs : s.env.sched = .host :: ts)
    (hq : s.env.hostQ = .wr 0 4 v :: q) (hidle : s.busy = false) :
    step s = runWord (.k v) (popHost (popTurn s)) := by
  have hcmd : isCommand 0 4 = true := rfl
  have hf : fetch s = some (.k v) := by simp [fetch, hs, hq, hcmd, hidle]
  rw [step_of_fetch hf, fetched, hs]

theorem step_producer {k : Slot} (hs : s.env.sched = .producer :: ts) (hk : s.stage = some k) :
    step s = runWord (.s k s.sel) (popTurn s) := by
  have hf : fetch s = some (.s k s.sel) := by simp [fetch, hs, hk]
  rw [step_of_fetch hf, fetched, hs]

theorem step_consumer {len : Word32} (hs : s.env.sched = .consumer len :: ts) :
    step s = exec (.deq len) (popTurn s) := by
  have hf : fetch s = some (.t len) := by simp [fetch, hs]
  rw [step_of_fetch hf, fetched, hs]
  rfl

theorem step_platformReset (hs : s.env.sched = .platformReset :: ts) : step s = .next (resetEvent (popTurn s)) := by
  have hf : fetch s = none := by simp [fetch, hs]
  rw [step_of_no_fetch hf, otherMove, hs]

theorem step_no_turn (hs : s.env.sched = []) : step s = .next s := by
  have hf : fetch s = none := by simp [fetch, hs]
  rw [step_of_no_fetch hf, otherMove, hs]

/-- HOST's move where its next access is no command to run. -/
theorem step_host_access (hs : s.env.sched = .host :: ts)
    (h : ∀ off bytes v q, s.env.hostQ = .wr off bytes v :: q → isCommand off bytes = true → s.busy = true) :
    step s = hostAccess (popTurn s) := by
  have hf : fetch s = none := by
    unfold fetch
    rw [hs]
    rcases hq : s.env.hostQ with _ | ⟨⟨off, bytes, v⟩ | ⟨off, bytes⟩ | ⟨c, i, v⟩, q⟩
    · rfl
    · refine if_neg fun ⟨hcmd, hidle⟩ => ?_
      cases (h off bytes v q hq hcmd).symm.trans hidle
    · rfl
    · rfl
  rw [step_of_no_fetch hf, otherMove, hs]

theorem isCommand_eq_false {off bytes : Nat} (h : off ≠ 0 ∨ bytes ≠ 4) : isCommand off bytes = false := by
  rw [isCommand, wordAccess, offCmd]
  rcases h with h | h <;> simp [h]

theorem step_host_write {off bytes : Nat} {v : Word32} {q : List HostOp} (hs : s.env.sched = .host :: ts)
    (hq : s.env.hostQ = .wr off bytes v :: q) (h : off ≠ 0 ∨ bytes ≠ 4) :
    step s = regWrite off bytes v (popHost (popTurn s)) := by
  have hcmd := isCommand_eq_false h
  have hq' : (popTurn s).env.hostQ = .wr off bytes v :: q := hq
  rw [step_host_access hs, hostAccess, hq']
  · simp only [hcmd, Bool.false_eq_true, if_false]
  · intro off' bytes' v' q' hq' hcmd'
    cases hq.symm.trans hq'
    cases hcmd.symm.trans hcmd'

theorem step_host_read {off bytes : Nat} {q : List HostOp} (hs : s.env.sched = .host :: ts)
    (hq : s.env.hostQ = .rd off bytes :: q) : step s = regRead off bytes (popHost (popTurn s)) := by
  have hq' : (popTurn s).env.hostQ = .rd off bytes :: q := hq
  rw [step_host_access hs, hostAccess, hq']
  intro _ _ _ _ hw
  cases hq.symm.trans hw

theorem step_host_load {c i : Nat} {v : LoadValue} {q : List HostOp} (hs : s.env.sched = .host :: ts)
    (hq : s.env.hostQ = .ld c i v :: q) : step s = sampleLoad c i v (popHost (popTurn s)) := by
  have hq' : (popTurn s).env.hostQ = .ld c i v :: q := hq
  rw [step_host_access hs, hostAccess, hq']
  intro _ _ _ _ hw
  cases hq.symm.trans hw

theorem step_host_nothing (hs : s.env.sched = .host :: ts) (hq : s.env.hostQ = []) : step s = .next (popTurn s) := by
  have hq' : (popTurn s).env.hostQ = [] := hq
  rw [step_host_access hs, hostAccess, hq']
  intro _ _ _ _ hw
  cases hq.symm.trans hw

/-- While `BUSY = 1` a `CMD` write stays in HOST's list (10_state.md rule R34). -/
theorem step_host_held {v : Word32} {q : List HostOp} (hs : s.env.sched = .host :: ts)
    (hq : s.env.hostQ = .wr 0 4 v :: q) (hbusy : s.busy = true) : step s = .next (popTurn s) := by
  have hq' : (popTurn s).env.hostQ = .wr 0 4 v :: q := hq
  rw [step_host_access hs fun _ _ _ _ _ _ => hbusy, hostAccess, hq']
  rfl

theorem popTurn_eq {m : Turn} (hs : s.env.sched = m :: ts) :
    popTurn s = { s with env := { s.env with sched := ts } } := by
  rw [popTurn, hs, List.tail_cons]

theorem popHost_popTurn_eq {m : Turn} {a : HostOp} {q : List HostOp} (hs : s.env.sched = m :: ts)
    (hq : s.env.hostQ = a :: q) :
    popHost (popTurn s) = { s with env := { s.env with sched := ts, hostQ := q } } := by
  rw [popTurn_eq hs, popHost, hq, List.tail_cons]

end

/-- A word runs as the operation it decodes to, or is rejected. -/
theorem runWord_cases {w : OpWord} {s u t : State} (hstep : step s = runWord w u) (hu : u = t) :
    (∀ i, decode w = .ok i → step s = exec i t) ∧ ∀ e, decode w = .error e → step s = rejectWord e t := by
  subst hu
  constructor <;> intro _ h <;> rw [hstep, runWord, h]

/-- Settles O6: one equation of `step` for each move. -/
theorem stepRunsTheDecodedOperation : Obligations.StepRunsTheDecodedOperation := by
  unfold Obligations.StepRunsTheDecodedOperation
  intro runs s ts q turn made
  refine ⟨fun v hs hq hidle => ?_, fun k hs hk => ?_, fun len hs => ?_, fun off bytes v hs hq h => ?_,
    fun off bytes hs hq => ?_, fun c i v hs hq => ?_, fun hs hq => ?_, fun hs hk => ?_, step_no_turn⟩
  · exact runWord_cases (step_host_command hs hq hidle) (popHost_popTurn_eq hs hq)
  · exact runWord_cases (step_producer hs hk) (popTurn_eq hs)
  · exact runWord_cases (w := .t len) (step_consumer hs) (popTurn_eq hs)
  · exact (step_host_write hs hq h).trans (congrArg _ (popHost_popTurn_eq hs hq))
  · exact (step_host_read hs hq).trans (congrArg _ (popHost_popTurn_eq hs hq))
  · exact (step_host_load hs hq).trans (congrArg _ (popHost_popTurn_eq hs hq))
  · exact (step_host_nothing hs hq).trans (congrArg _ (popTurn_eq hs))
  · exact (step_producer_idle hs hk).trans (congrArg _ (popTurn_eq hs))

/-! ### The hold, the latch and the reset -/

theorem exec_chunk_of_idle {s : State} (h : s.busy = false) : exec .chunk s = .next (acceptChunk s) :=
  congrArg _ (whenIdle_idle h _)

theorem exec_srst_of_idle {s : State} (h : s.busy = false) : exec .srst s = .next (resetEvent s) :=
  congrArg _ (whenIdle_idle h _)

/-- Settles O8: each command is `whenIdle`, and HOST's move on a held write is `step_host_held`. -/
theorem commandsAreHeldWhileBusy : Obligations.CommandsAreHeldWhileBusy := by
  intro s hbusy
  refine ⟨⟨congrArg _ (whenIdle_busy hbusy _), congrArg _ (whenIdle_busy hbusy _), congrArg _ (whenIdle_busy hbusy _)⟩,
    fun v q ts hq hs => ?held⟩
  case held => rw [step_host_held hs hq hbusy, popTurn_eq hs]

/-- Settles O10: with every check passed CHUNK is `latchChunk`. -/
theorem chunkWritesTheLatch : Obligations.ChunkWritesTheLatch := by
  intro s hidle hch hrate hmin hmax hout
  have hpass : chunkFault s = none := chunkFault_eq_none.2 ⟨hch, hrate, hmin, hmax, hout⟩
  rw [exec_chunk_of_idle hidle, acceptChunk, hpass]
  rfl

/-- Settles O12: both are `resetEvent`, whose state is that of `State.resetIn`; its `STATUS` is `statusWord_resetIn`. -/
theorem srstAndResetTakeTheResetState : Obligations.SrstAndResetTakeTheResetState := by
  intro s
  refine ⟨fun hidle => ?srst, fun ts hs => ?platform⟩
  case srst => exact ⟨resetEvent s, exec_srst_of_idle hidle, rfl, statusWord_resetIn⟩
  case platform =>
    refine ⟨resetEvent (popTurn s), step_platformReset hs, ?_, statusWord_resetIn⟩
    rw [popTurn_eq hs]
    rfl

/-! ### CONSUMER's request -/

theorem exec_deq_of_length_ne {len : Word32} {s : State} (hlen : len.toNat ≠ s.env.par.ringB) :
    exec (.deq len) s = .refused .transferLength :=
  if_neg hlen

/-- Settles O16: CONSUMER's move is DEQ, which answers in both of its cases. -/
theorem deqIsAlwaysEnabled : Obligations.DeqIsAlwaysEnabled := by
  intro s len ts hs
  rw [step_consumer hs]
  refine ⟨fun hlen => ?served, fun hlen => exec_deq_of_length_ne hlen⟩
  case served =>
    rcases Nat.eq_zero_or_pos s.count with hcount | hcount
    · exact ⟨_, exec_deq_of_empty hlen hcount, rfl, List.length_replicate⟩
    · exact ⟨_, exec_deq_of_pos hlen hcount, rfl, by simp [dequeueBlock, blockBytes]⟩

end Sys2Proof.Machine
end

section
/-! PROOFS. The ring: what one ENQ step stores and publishes, when it holds, and that the ring is first in, first out
(45_ring_buffer.md rules R206 to R219). -/

namespace Sys2Proof.Machine

/-! ### What an ENQ step writes -/

/-- A byte written at `(HEAD, OFF)`, before a publication. -/
def storeByte (b : IQByte) (s : State) : State :=
  writeRing s.head s.off b { s with pidx := s.pidx + 1, off := s.off + 1 }

theorem enqueueByte_full {s : State} (h : s.off + 1 = s.env.par.ringB) (b : IQByte) :
    enqueueByte b s = publish (storeByte b s) :=
  if_pos h

theorem enqueueByte_room {s : State} (h : s.off + 1 ≠ s.env.par.ringB) (b : IQByte) :
    enqueueByte b s = storeByte b s :=
  if_neg h

theorem completeIfDone_done {s : State} (h : s.pend.length ≤ s.pidx) : completeIfDone s = finishChunk s := if_pos h

theorem completeIfDone_more {s : State} (h : s.pidx < s.pend.length) : completeIfDone s = s := if_neg h.not_ge

/-- One ENQ step that stores the byte `b`. -/
def enqStored (b : IQByte) (s : State) : State := completeIfDone (enqueueByte b s)

theorem exec_enq_of_pending {s : State} {b : IQByte} (hb : s.pend[s.pidx]? = some b) (hroom : s.count < s.env.par.ringC)
    (w : Sel) : exec (.enq w) s = .next (enqStored b s) := by
  rw [exec, execEnq, enqStep, hb]
  simp only [if_pos hroom, enqStored]

/-- What a publication and a completion write; every other field is that of `storeByte`. -/
theorem enqStored_eq (b : IQByte) (s : State) :
    enqStored b s = { storeByte b s with
      head := (enqStored b s).head, count := (enqStored b s).count, off := (enqStored b s).off
      busy := (enqStored b s).busy, stage := (enqStored b s).stage, buf := (enqStored b s).buf
      sig := (enqStored b s).sig, iq := (enqStored b s).iq, outb := (enqStored b s).outb } := by
  unfold enqStored enqueueByte completeIfDone
  split <;> split <;> rfl

@[simp] theorem enqStored_ring (b : IQByte) (s : State) : (enqStored b s).ring = (storeByte b s).ring := by
  rw [enqStored_eq]

@[simp] theorem enqStored_inp (b : IQByte) (s : State) : (enqStored b s).inp = s.inp := by rw [enqStored_eq]; rfl

@[simp] theorem enqStored_tail (b : IQByte) (s : State) : (enqStored b s).tail = s.tail := by rw [enqStored_eq]; rfl

@[simp] theorem enqStored_pend (b : IQByte) (s : State) : (enqStored b s).pend = s.pend := by rw [enqStored_eq]; rfl

@[simp] theorem enqStored_pidx (b : IQByte) (s : State) : (enqStored b s).pidx = s.pidx + 1 := by
  rw [enqStored_eq]; rfl

@[simp] theorem enqStored_env (b : IQByte) (s : State) : (enqStored b s).env = s.env := by rw [enqStored_eq]; rfl

theorem enqStored_sameDatapath (b : IQByte) (s : State) : sameDatapath s (enqStored b s) := by
  rw [enqStored_eq]
  exact ⟨rfl, rfl, rfl, rfl⟩

theorem enqStored_sameRegisters (b : IQByte) (s : State) : sameRegisters s (enqStored b s) := by
  rw [enqStored_eq]
  exact ⟨rfl, rfl, rfl, rfl, rfl, rfl, rfl, rfl, rfl, rfl⟩

theorem enqStored_cursors (b : IQByte) (s : State) : sameCursors (enqueueByte b s) (enqStored b s) := by
  unfold enqStored completeIfDone
  split <;> exact ⟨rfl, rfl, rfl, rfl⟩

/-- The byte that fills the block publishes it (45_ring_buffer.md rule R207). -/
theorem enqStored_full {s : State} (h : s.off + 1 = s.env.par.ringB) (b : IQByte) :
    (enqStored b s).head = (s.head + 1) % s.env.par.ringC ∧ (enqStored b s).count = s.count + 1 ∧
      (enqStored b s).off = 0 := by
  obtain ⟨hhead, _, hcount, hoff⟩ := enqStored_cursors b s
  rw [hhead, hcount, hoff, enqueueByte_full h]
  exact ⟨rfl, rfl, rfl⟩

theorem enqStored_room {s : State} (h : s.off + 1 ≠ s.env.par.ringB) (b : IQByte) :
    (enqStored b s).head = s.head ∧ (enqStored b s).count = s.count ∧ (enqStored b s).off = s.off + 1 := by
  obtain ⟨hhead, _, hcount, hoff⟩ := enqStored_cursors b s
  rw [hhead, hcount, hoff, enqueueByte_room h]
  exact ⟨rfl, rfl, rfl⟩

/-- What an ENQ step leaves of the chunk's progress and buffers, before its completion. -/
theorem enqueueByte_progress (b : IQByte) (s : State) :
    let t := enqueueByte b s
    t.pend = s.pend ∧ t.pidx = s.pidx + 1 ∧ sameProgress s t ∧ t.buf = s.buf ∧ t.sig = s.sig ∧ t.iq = s.iq ∧
      t.outb = s.outb := by
  intro t
  by_cases h : s.off + 1 = s.env.par.ringB
  · rw [show t = _ from enqueueByte_full h b]
    exact ⟨rfl, rfl, ⟨rfl, rfl⟩, rfl, rfl, rfl, rfl⟩
  · rw [show t = _ from enqueueByte_room h b]
    exact ⟨rfl, rfl, ⟨rfl, rfl⟩, rfl, rfl, rfl, rfl⟩

/-- The last byte completes the chunk (46_commands.md rule R237). -/
theorem enqStored_last {s : State} (h : s.pend.length ≤ s.pidx + 1) (b : IQByte) :
    enqStored b s = finishChunk (enqueueByte b s) := by
  obtain ⟨hpend, hpidx, _⟩ := enqueueByte_progress b s
  exact completeIfDone_done (by rwa [hpend, hpidx])

theorem enqStored_more {s : State} (h : s.pidx + 1 < s.pend.length) (b : IQByte) :
    enqStored b s = enqueueByte b s := by
  obtain ⟨hpend, hpidx, _⟩ := enqueueByte_progress b s
  exact completeIfDone_more (by rwa [hpend, hpidx])

/-! ### The bytes of `RING` after an ENQ step -/

theorem readRing_enqStored (b : IQByte) (s : State) (b' k' : Nat) :
    readRing (enqStored b s) b' k' = readRing (storeByte b s) b' k' := by
  rw [enqStored_eq]; rfl

theorem readRing_storeByte_same (b : IQByte) (s : State) : readRing (storeByte b s) s.head s.off = b :=
  readRing_writeRing_same ..

theorem readRing_storeByte_other {s : State} {b' k' : Nat} (h : ringIndex s b' k' ≠ ringIndex s s.head s.off)
    (b : IQByte) : readRing (storeByte b s) b' k' = readRing s b' k' :=
  readRing_writeRing_other { s with pidx := s.pidx + 1, off := s.off + 1 } b h

/-- Settles O17: `enqStored` is `storeByte` but for the cursors (`enqStored_full`, `enqStored_room`) and a completion
(`enqStored_last`, `enqStored_more`). -/
theorem enqStoresOneByteAndPublishes : Obligations.EnqStoresOneByteAndPublishes := by
  intro s w b hb hroom
  refine ⟨enqStored b s, exec_enq_of_pending hb hroom w, ?stored, fun b' k' h => ?others, fun c i => ?samples,
    enqStored_pidx b s, enqStored_pend b s, enqStored_tail b s, fun h => enqStored_full h b,
    fun h => enqStored_room h b, fun h => ?last, fun h => ?more, enqStored_sameDatapath b s,
    enqStored_sameRegisters b s, enqStored_env b s⟩
  case stored => rw [readRing_enqStored, readRing_storeByte_same]
  case others => rw [readRing_enqStored, readRing_storeByte_other h]
  case samples => rw [readIn, enqStored_inp, enqStored_env, readIn]
  case last => rw [enqStored_last h.ge, finishChunk_busy]
  case more =>
    obtain ⟨_, _, hprogress⟩ := enqueueByte_progress b s
    rw [enqStored_more h]
    exact hprogress

/-! ### The hold -/

theorem exec_enq_of_full {s : State} (hfull : s.count = s.env.par.ringC) (hpend : s.pidx < s.pend.length) (w : Sel) :
    exec (.enq w) s = .next s := by
  rw [exec, execEnq, enqStep, List.getElem?_eq_getElem hpend]
  simp only [hfull, lt_irrefl, if_false]

/-- Settles O18: a full ring holds ENQ (`exec_enq_of_full`); DEQ frees a block, after which ENQ stores the byte. -/
theorem enqHoldsWhileTheRingIsFull : Obligations.EnqHoldsWhileTheRingIsFull := by
  intro s w len hfull hpend
  refine ⟨exec_enq_of_full hfull hpend w, fun hblocks hlen => ?lifted⟩
  case lifted =>
    have hcount : 0 < s.count := hfull ▸ hblocks
    have hroom : s.count - 1 < s.env.par.ringC := by omega
    exact ⟨dequeueBlock s, exec_deq_of_pos hlen hcount, hroom, _,
      exec_enq_of_pending (s := dequeueBlock s) (List.getElem?_eq_getElem hpend) hroom w, enqStored_pidx _ _⟩

/-! ### First in, first out (45_ring_buffer.md rule R215) -/

/-- The address of 20_memory.md rule R62 tells two bytes of the ring apart. -/
theorem ringIndex_inj {s : State} {b k b' k' : Nat} (hk : k < s.env.par.ringB) (hk' : k' < s.env.par.ringB)
    (h : ringIndex s b k = ringIndex s b' k') : b = b' ∧ k = k' := by
  have hpos : 0 < s.env.par.ringB := Nat.zero_lt_of_lt hk
  simp only [ringIndex, Nat.mul_comm _ s.env.par.ringB] at h
  constructor
  · simpa [Nat.mul_add_div hpos, Nat.div_eq_of_lt hk, Nat.div_eq_of_lt hk'] using congrArg (· / s.env.par.ringB) h
  · simpa [Nat.mul_add_mod, Nat.mod_eq_of_lt hk, Nat.mod_eq_of_lt hk'] using congrArg (· % s.env.par.ringB) h

/-- Fewer blocks than the ring has, counted from the tail, are different blocks. -/
theorem block_ne {c tail i j : Nat} (hj : j < c) (hij : i < j) : (tail + i) % c ≠ (tail + j) % c := by
  intro h
  have hmod : i ≡ j [MOD c] := Nat.ModEq.add_left_cancel' tail h
  exact hij.ne (hmod.eq_of_lt_of_lt (hij.trans hj) hj)

/-- The place of the next byte is none of those that the ring's bytes stand at. -/
theorem ringIndex_ne_head {s : State} (h : s.ringSound) (hroom : s.count < s.env.par.ringC) {n : Nat}
    (hn : n < s.count * s.env.par.ringB + s.off) :
    ringIndex s ((s.tail + n / s.env.par.ringB) % s.env.par.ringC) (n % s.env.par.ringB) ≠
      ringIndex s s.head s.off := by
  obtain ⟨_, _, _, hoff, hhead, _⟩ := h
  have hpos : 0 < s.env.par.ringB := Nat.zero_lt_of_lt hoff
  intro heq
  obtain ⟨hblock, hbyte⟩ := ringIndex_inj (Nat.mod_lt n hpos) hoff heq
  have hdiv := Nat.div_add_mod' n s.env.par.ringB
  have hle : n / s.env.par.ringB < s.count := by
    by_contra hge
    have := Nat.mul_le_mul_right s.env.par.ringB (not_lt.1 hge)
    omega
  rw [hhead] at hblock
  exact block_ne hroom hle hblock

theorem ringByteAt_enqStored (b : IQByte) (s : State) (n : Nat) : ringByteAt (enqStored b s) n =
    readRing (storeByte b s) ((s.tail + n / s.env.par.ringB) % s.env.par.ringC) (n % s.env.par.ringB) := by
  rw [ringByteAt, readRing_enqStored, enqStored_tail, enqStored_env]

/-- A publication moves the bytes of the head block into the count of filled blocks. -/
theorem enqStored_size (b : IQByte) (s : State) :
    (enqStored b s).count * s.env.par.ringB + (enqStored b s).off = s.count * s.env.par.ringB + s.off + 1 := by
  by_cases h : s.off + 1 = s.env.par.ringB
  · obtain ⟨_, hcount, hoff⟩ := enqStored_full h b
    rw [hcount, hoff, Nat.succ_mul]
    omega
  · obtain ⟨_, hcount, hoff⟩ := enqStored_room h b
    rw [hcount, hoff, Nat.add_assoc]

theorem ringContents_enqStored {s : State} (h : s.ringSound) (hroom : s.count < s.env.par.ringC) (b : IQByte) :
    ringContents (enqStored b s) = ringContents s ++ [b] := by
  have hnew : ringByteAt (enqStored b s) (s.count * s.env.par.ringB + s.off) = b := by
    obtain ⟨_, _, _, hoff, hhead, _⟩ := h
    rw [ringByteAt_enqStored, Nat.mul_comm, Nat.mul_add_div (Nat.zero_lt_of_lt hoff), Nat.div_eq_of_lt hoff,
      Nat.mul_add_mod, Nat.mod_eq_of_lt hoff, Nat.add_zero, ← hhead, readRing_storeByte_same]
  have hold : ∀ n ∈ List.range (s.count * s.env.par.ringB + s.off), ringByteAt (enqStored b s) n = ringByteAt s n := by
    intro n hn
    rw [ringByteAt_enqStored, readRing_storeByte_other (ringIndex_ne_head h hroom (List.mem_range.1 hn)), ringByteAt]
  rw [ringContents, enqStored_env, enqStored_size, List.range_succ, List.map_append, List.map_congr_left hold,
    List.map_singleton, hnew, ringContents]

/-- The byte after the tail block's is the first of the blocks that remain. -/
theorem ringByteAt_dequeueBlock {s : State} (hpos : 0 < s.env.par.ringB) (n : Nat) :
    ringByteAt (dequeueBlock s) n = ringByteAt s (s.env.par.ringB + n) := by
  have hblock : ((s.tail + 1) % s.env.par.ringC + n / s.env.par.ringB) % s.env.par.ringC =
      (s.tail + (n / s.env.par.ringB + 1)) % s.env.par.ringC := by
    rw [Nat.mod_add_mod]
    congr 1
    omega
  rw [ringByteAt, ringByteAt, Nat.add_div_left n hpos, Nat.add_mod_left, ← hblock]
  rfl

theorem ringContents_dequeueBlock {s : State} (h : s.ringSound) (hcount : 0 < s.count) :
    ringContents s = (dequeueBlock s).env.txBytes ++ ringContents (dequeueBlock s) := by
  obtain ⟨_, _, htail, hoff, _, _⟩ := h
  have hpos : 0 < s.env.par.ringB := Nat.zero_lt_of_lt hoff
  have hsize : s.count * s.env.par.ringB + s.off =
      s.env.par.ringB + ((s.count - 1) * s.env.par.ringB + s.off) := by
    obtain ⟨c, hc⟩ := Nat.exists_eq_add_of_lt hcount
    rw [hc, Nat.zero_add, Nat.add_sub_cancel, Nat.succ_mul]
    omega
  have hfirst : (List.range s.env.par.ringB).map (ringByteAt s) = (dequeueBlock s).env.txBytes := by
    refine List.map_congr_left fun k hk => ?_
    have hk := List.mem_range.1 hk
    rw [ringByteAt, Nat.div_eq_of_lt hk, Nat.mod_eq_of_lt hk, Nat.add_zero, Nat.mod_eq_of_lt htail]
  have hrest : ∀ n, (ringByteAt s ∘ (s.env.par.ringB + ·)) n = ringByteAt (dequeueBlock s) n :=
    fun n => (ringByteAt_dequeueBlock hpos n).symm
  rw [ringContents, hsize, List.range_add, List.map_append, hfirst, List.map_map, funext hrest]
  rfl

/-- Settles O19: `ringContents_enqStored`, `ringContents_dequeueBlock`, and an empty ring's DEQ that moves no cursor. -/
theorem ringIsFirstInFirstOut : Obligations.RingIsFirstInFirstOut := by
  intro s _ hring
  exact ⟨fun w b hb hroom => ⟨_, exec_enq_of_pending hb hroom w, ringContents_enqStored hring hroom b⟩,
    fun len hlen hcount => ⟨_, exec_deq_of_pos hlen hcount, ringContents_dequeueBlock hring hcount⟩,
    fun len hlen hcount => ⟨_, exec_deq_of_empty hlen hcount, rfl⟩⟩

end Sys2Proof.Machine
end

section
/-! PROOFS. The pilot counter: its step reduces modulo `W`, and the tones do not see the reductions (42_stereo_mixer.md
rules R159 to R162). -/

namespace Sys2Proof

/-- `p modW` is the residue of `p` in `[0, W)`. -/
theorem ratMod_eq_toIcoMod (p : Rat) {w : Rat} (hw : 0 < w) : ratMod p w = toIcoMod hw 0 p := by
  rw [toIcoMod, toIcoDiv_eq_floor, sub_zero, zsmul_eq_mul, ratMod, rat_floor_eq, mul_comm]

theorem ratMod_mem (p : Rat) {w : Rat} (hw : 0 < w) : 0 ≤ ratMod p w ∧ ratMod p w < w := by
  rw [ratMod_eq_toIcoMod p hw]
  exact toIcoMod_mem_Ico' hw p

theorem sub_ratMod (p w : Rat) : ∃ k : ℤ, p - ratMod p w = k * w :=
  ⟨(p / w).floor, by rw [ratMod]; ring⟩

/-- No other number of `[0, W)` differs from `p` by a multiple of `W`. -/
theorem eq_ratMod {p q w : Rat} (hw : 0 < w) (h0 : 0 ≤ q) (h1 : q < w) (h : ∃ k : ℤ, p - q = k * w) :
    q = ratMod p w := by
  obtain ⟨k, hk⟩ := h
  rw [ratMod_eq_toIcoMod p hw, eq_comm, toIcoMod_eq_iff, zero_add]
  exact ⟨⟨h0, h1⟩, k, by rw [zsmul_eq_mul, ← hk]; ring⟩

/-- Settles O43: `ratMod` is the residue, so the conditional subtraction is by its uniqueness. -/
theorem pilotCounterStep : Obligations.PilotCounterStep := by
  intro p w hw
  refine ⟨⟨(ratMod_mem _ hw).1, (ratMod_mem _ hw).2, sub_ratMod _ _⟩, fun p' h0 h1 h => eq_ratMod hw h0 h1 h,
    fun hw1 h0 h1 => ?conditional⟩
  case conditional =>
    refine (eq_ratMod hw ?_ ?_ ?_).symm
    · split_ifs <;> linarith
    · split_ifs <;> linarith
    · split_ifs
      · exact ⟨1, by push_cast; ring⟩
      · exact ⟨0, by push_cast; ring⟩

namespace Machine

theorem pilotWrap_pos {t : Nat} (ht : 1 ≤ t) : 0 < pilotWrap t := by
  have : (0 : Rat) < t := by exact_mod_cast ht
  unfold pilotWrap
  positivity

/-- After `m` steps the counter differs from one that never wraps by a multiple of `W`. -/
theorem sub_iterate_pilotStep (w : Rat) (m : Nat) : ∃ k : ℤ, (m : Rat) - (fun q => ratMod (q + 1) w)^[m] 0 = k * w := by
  induction m with
  | zero => exact ⟨0, by simp⟩
  | succ m ih =>
    obtain ⟨k, hk⟩ := ih
    rw [Function.iterate_succ_apply']
    obtain ⟨l, hl⟩ := sub_ratMod ((fun q => ratMod (q + 1) w)^[m] 0 + 1) w
    exact ⟨k + l, by push_cast; linear_combination hk + hl⟩

/-- `W` is four periods of the pilot, so a reduction does not move a tone of a multiple of its frequency. -/
theorem sin_tone_of_pilot {t : Nat} (ht : 1 ≤ t) (a : Nat) {m p : ℝ} {k : ℤ} (h : m - p = k * (pilotWrap t : ℝ)) :
    Real.sin (2 * a * Real.pi * 19000 * (p / t)) = Real.sin (2 * a * Real.pi * 19000 * m / t) := by
  have ht : (t : ℝ) ≠ 0 := by positivity
  have hw : (pilotWrap t : ℝ) = 4 * t / 19000 := by simp [pilotWrap]
  have hturns : 2 * a * Real.pi * 19000 * m / t =
      2 * a * Real.pi * 19000 * (p / t) + ((4 * a * k : ℤ) : ℝ) * (2 * Real.pi) := by
    rw [sub_eq_iff_eq_add.1 h, hw]
    push_cast
    field_simp
    ring
  rw [hturns, Real.sin_add_int_mul_two_pi]

/-- Settles O44: the counter is the number of steps less a multiple of `W` (`sub_iterate_pilotStep`), which no tone sees
(`sin_tone_of_pilot`). -/
theorem pilotTonesArePhaseContinuous : Obligations.PilotTonesArePhaseContinuous := by
  intro t m ht p
  obtain ⟨k, hk⟩ := sub_iterate_pilotStep (pilotWrap t) m
  have hreal : (m : ℝ) - (p : ℝ) = k * (pilotWrap t : ℝ) := by exact_mod_cast congrArg (Rat.cast : ℚ → ℝ) hk
  rw [toReal_pilotTone, toReal_subcarrier]
  have hpilot := sin_tone_of_pilot ht 1 hreal
  have hsub := sin_tone_of_pilot ht 2 hreal
  norm_num at hpilot hsub
  exact ⟨hpilot, hsub⟩

end Machine

end Sys2Proof
end

section
/-! PROOFS. What the operations of slots 1 to 5 leave alone, and whom they cannot interfere with (10_state.md rule R43;
46_commands.md rule R236; 40_resampler.md rule R129; 41_preemphasis.md rule R146). -/

namespace Sys2Proof

/-- Writes to different channels commute. -/
theorem Pair.set_comm {α : Type} (p : Pair α) {c d : Chan} (h : d ≠ c) (u v : α) :
    (p.set c u).set d v = (p.set d v).set c u := by
  cases c <;> cases d <;> simp_all [Pair.set]

namespace Machine

/-- `t` differs from `s` in the datapath state, the buffers, the pending output and the slot cursor alone. -/
def onlyDatapath (s t : State) : Prop :=
  t = { s with hist := t.hist, fst := t.fst, phase := t.phase, pilot := t.pilot, buf := t.buf, sig := t.sig, iq := t.iq,
               outb := t.outb, pend := t.pend, pidx := t.pidx, stage := t.stage }

/-- `t` is the state `s` in whatever form of the ring, of its cursors and of the sticky bits. -/
def withRing (ring : List (Nat × IQByte)) (head tail count off : Nat) (sticky : Word32) (s : State) : State :=
  { s with ring := ring, head := head, tail := tail, count := count, off := off, sticky := sticky }

/-- An operation of slots 1 to 5 writes its part of the datapath and moves the slot cursor on. -/
theorem exec_stage {i : Instr} {s t : State} (hagent : i.agent = .producer) (hne : slotOf i ≠ some .enq)
    (hexec : exec i s = .next t) :
    onlyDatapath s t ∧ ∃ k, slotOf i = some k ∧ t.stage = some (nextSlot s.stereoChunk k) := by
  cases i with
  | resamp w c =>
    obtain ⟨_, _, _, rfl⟩ := execResamp_next hexec
    exact ⟨rfl, _, rfl, rfl⟩
  | quant w =>
    obtain ⟨bs, _, rfl⟩ := execQuant_next hexec
    exact ⟨rfl, _, rfl, rfl⟩
  | pre50 | pre75 | preByp | mixMono | mixAvg | mixMpx | modWfm | modNfm | modAm =>
    cases hexec
    exact ⟨rfl, _, rfl, rfl⟩
  | enq w => exact absurd rfl hne
  | nop | chunk | srst | deq => cases hagent

section
variable {s t : State} (h : onlyDatapath s t)
include h

theorem onlyDatapath.registers : sameRegisters s t := by
  rw [h]
  exact ⟨rfl, rfl, rfl, rfl, rfl, rfl, rfl, rfl, rfl, rfl⟩

theorem onlyDatapath.cursors : sameCursors s t := by
  rw [h]
  exact ⟨rfl, rfl, rfl, rfl⟩

theorem onlyDatapath.ring : t.ring = s.ring := by rw [h]

theorem onlyDatapath.inp : t.inp = s.inp := by rw [h]

theorem onlyDatapath.busy : t.busy = s.busy := by rw [h]

theorem onlyDatapath.env : t.env = s.env := by rw [h]

theorem onlyDatapath.memory : sameMemory s t := by
  rw [h]
  exact ⟨fun _ _ => rfl, fun _ _ => rfl⟩

end

/-- Settles O52: the condition on which RESAMP or QUANT stops is not about the ring, and the update that each operation
makes does not name it. -/
theorem stagesDoNotTouchTheRing : Obligations.StagesDoNotTouchTheRing := by
  intro i s t ring head tail count off sticky hagent hne hexec
  obtain ⟨hframe, _⟩ := exec_stage hagent hne hexec
  refine ⟨hframe.cursors, hframe.ring, hframe.registers.1, ?same⟩
  case same =>
    cases i with
    | resamp w c =>
      obtain ⟨hmin, hmax, hout, rfl⟩ := execResamp_next hexec
      exact execResamp_ok (s := withRing ring head tail count off sticky s) hmin hmax hout
    | quant w =>
      obtain ⟨bs, hbytes, rfl⟩ := execQuant_next hexec
      exact execQuant_ok (s := withRing ring head tail count off sticky s) hbytes
    | pre50 | pre75 | preByp | mixMono | mixAvg | mixMpx | modWfm | modNfm | modAm =>
      cases hexec
      rfl
    | enq w => exact absurd rfl hne
    | nop | chunk | srst | deq => cases hagent

/-- What an operation writes of the datapath state and the buffers is what the ownership summary of 10_state.md rule R43
names for it. -/
theorem exec_stage_owned {i : Instr} {s t : State} (hagent : i.agent = .producer) (hne : slotOf i ≠ some .enq)
    (hexec : exec i s = .next t) :
    ((∀ w c, i ≠ .resamp w c) → t.hist = s.hist) ∧
    ((∀ w c, i ≠ .pre50 w c ∧ i ≠ .pre75 w c) → t.fst = s.fst) ∧
    ((∀ w, i ≠ .modWfm w ∧ i ≠ .modNfm w) → t.phase = s.phase) ∧
    ((∀ w, i ≠ .mixMpx w) → t.pilot = s.pilot) ∧
    ((∀ w c, i ≠ .resamp w c ∧ i ≠ .pre50 w c ∧ i ≠ .pre75 w c) → t.buf = s.buf) ∧
    ((∀ w, i ≠ .mixMono w ∧ i ≠ .mixAvg w ∧ i ≠ .mixMpx w) → t.sig = s.sig) ∧
    ((∀ w, i ≠ .modWfm w ∧ i ≠ .modNfm w ∧ i ≠ .modAm w) → t.iq = s.iq) ∧
    ((∀ w, i ≠ .quant w) → t.outb = s.outb ∧ t.pend = s.pend ∧ t.pidx = s.pidx) := by
  cases i with
  | resamp w c =>
    obtain ⟨_, _, _, rfl⟩ := execResamp_next hexec
    simp [resampleChannel]
  | quant w =>
    obtain ⟨bs, _, rfl⟩ := execQuant_next hexec
    simp
  | pre50 | pre75 | preByp | mixMono | mixAvg | mixMpx | modWfm | modNfm | modAm =>
    cases hexec
    simp [filterChannel, modulateFm]
  | enq w => exact absurd rfl hne
  | nop | chunk | srst | deq => cases hagent

/-- Settles O54: `exec_stage` and `exec_stage_owned`. -/
theorem frameOfTheStages : Obligations.FrameOfTheStages := by
  intro i s t hagent hne hexec
  obtain ⟨hframe, k, hk, hstage⟩ := exec_stage hagent hne hexec
  refine ⟨hframe.registers, hframe.cursors, hframe.memory, hframe.busy, hframe.env, fun k' hk' => ?_,
    exec_stage_owned hagent hne hexec⟩
  cases hk.symm.trans hk'
  exact hstage

/-! ### The other channel -/

/-- The state with what channel `d` holds replaced. -/
def withChannel (d : Chan) (b : List RealNum) (h : Hist) (x : FilterState) (m : List (Nat × RealNum)) (s : State) :
    State :=
  { s with buf := s.buf.set d b, hist := s.hist.set d h, fst := s.fst.set d x, inp := s.inp.set d m }

section
variable {c d : Chan} (hne : d ≠ c) (b : List RealNum) (h : Hist) (x : FilterState) (m : List (Nat × RealNum))
  (s : State)
include hne

theorem readIn_withChannel : readIn (withChannel d b h x m s) c = readIn s c := by
  funext i
  rw [readIn, withChannel, Pair.get_set_other _ hne.symm, readIn]

theorem resampleChannel_withChannel :
    resampleChannel c (withChannel d b h x m s) = withChannel d b h x m (resampleChannel c s) := by
  rw [resampleChannel, readIn_withChannel hne]
  simp only [withChannel, resampleChannel, Pair.get_set_other _ hne.symm, Pair.set_comm _ hne]
  rfl

theorem filterChannel_withChannel (k : Coef) :
    filterChannel k c (withChannel d b h x m s) = withChannel d b h x m (filterChannel k c s) := by
  simp only [filterChannel, withChannel, Pair.get_set_other _ hne.symm, Pair.set_comm _ hne]
  rfl

end

/-- Settles O53: RESAMP and PRE read and write their own channel alone, so they commute with a change of the other. -/
theorem channelsAreIndependent : Obligations.ChannelsAreIndependent := by
  intro i s t w c d b h x m hne hi hexec
  rcases hi with rfl | rfl | rfl | rfl
  case inl =>
    obtain ⟨hmin, hmax, hout, rfl⟩ := execResamp_next hexec
    refine ⟨Pair.get_set_other _ hne _, Pair.get_set_other _ hne _, rfl, rfl, ?_⟩
    refine (execResamp_ok (s := withChannel d b h x m s) hmin hmax hout).trans ?_
    rw [resampleChannel_withChannel hne]
    rfl
  case inr.inl | inr.inr.inl =>
    cases hexec
    exact ⟨Pair.get_set_other _ hne _, rfl, Pair.get_set_other _ hne _, rfl,
      congrArg (Host.Outcome.next ∘ advance (.pre c)) (filterChannel_withChannel hne b h x m s _)⟩
  case inr.inr.inr =>
    cases hexec
    exact ⟨rfl, rfl, rfl, rfl, rfl⟩

end Machine

end Sys2Proof
end

section
/-! PROOFS. The invariants of the package hold after reset, and every step keeps each (10_state.md; 45_ring_buffer.md
section 4; 46_commands.md section 1). -/

namespace Sys2Proof.Machine

/-! ### PRODUCER's step -/

/-- The operation of the slot at which the chunk stands is ENQ's step, or it writes the datapath alone and the chunk
moves on. -/
theorem exec_slot_cases {k : Slot} {i : Instr} {s t : State} (hd : decodeSel k s.sel = .ok i) (h : exec i s = .next t) :
    (k = .enq ∧ t = enqStep s) ∨ (k ≠ .enq ∧ onlyDatapath s t ∧ t.stage = some (nextSlot s.stereoChunk k)) := by
  obtain ⟨hagent, hencode⟩ := decodeSel_slot hd
  have hslot : slotOf i = some k := by rw [slotOf, hencode]
  by_cases hk : k = .enq
  · subst hk
    cases (decode_enq s.sel).symm.trans hd
    cases h
    exact .inl ⟨rfl, rfl⟩
  · have hne : slotOf i ≠ some .enq := by rwa [hslot, ne_eq, Option.some.injEq]
    obtain ⟨hframe, k', hk', hstage⟩ := exec_stage hagent hne h
    cases hslot.symm.trans hk'
    exact .inr ⟨hk, hframe, hstage⟩

/-! ### The ring's cursors and the form of the memories -/

theorem ringSound_enqStored {s : State} (h : s.ringSound) (hroom : s.count < s.env.par.ringC) (b : IQByte) :
    (enqStored b s).ringSound := by
  obtain ⟨_, hhead, htail, hoff, hsum, _⟩ := h
  rw [State.ringSound, enqStored_env, enqStored_tail]
  by_cases hfull : s.off + 1 = s.env.par.ringB
  · obtain ⟨hhead', hcount', hoff'⟩ := enqStored_full hfull b
    rw [hhead', hcount', hoff']
    refine ⟨hroom, Nat.mod_lt _ (by omega), htail, by omega, ?_, by omega⟩
    rw [hsum, Nat.mod_add_mod, Nat.add_assoc]
  · obtain ⟨hhead', hcount', hoff'⟩ := enqStored_room hfull b
    rw [hhead', hcount', hoff']
    exact ⟨hroom.le, hhead, htail, by omega, hsum, fun _ => hroom⟩

theorem ringSound_dequeueBlock {s : State} (h : s.ringSound) (hcount : 0 < s.count) : (dequeueBlock s).ringSound := by
  obtain ⟨hle, hhead, htail, hoff, hsum, _⟩ := h
  refine ⟨(Nat.sub_le _ _).trans hle, hhead, Nat.mod_lt _ (Nat.zero_lt_of_lt htail), hoff, ?_, fun _ => ?_⟩
  · show s.head = ((s.tail + 1) % s.env.par.ringC + (s.count - 1)) % s.env.par.ringC
    rw [hsum, Nat.mod_add_mod]
    congr 1
    omega
  · show s.count - 1 < s.env.par.ringC
    omega

theorem ringSound_resetIn {e : Env} (h : e.par.wf) : (State.resetIn e).ringSound := by
  obtain ⟨_, _, hblocks, hbytes⟩ := h
  exact ⟨Nat.zero_le _, hblocks, hblocks, hbytes, (Nat.zero_mod _).symm, fun h => absurd h (lt_irrefl 0)⟩

theorem memSound_resetIn (e : Env) : (State.resetIn e).memSound :=
  ⟨rfl, rfl, rfl, fun _ h => absurd h List.not_mem_nil, fun _ h => absurd h List.not_mem_nil,
    fun _ h => absurd h List.not_mem_nil⟩

/-- The byte at `(HEAD, OFF)` is one of the ring's (20_memory.md rule R62). -/
theorem ringIndex_head_lt {s : State} (h : s.ringSound) :
    ringIndex s s.head s.off < s.env.par.ringC * s.env.par.ringB := by
  obtain ⟨_, hhead, _, hoff, _, _⟩ := h
  have hblocks := Nat.mul_le_mul_right s.env.par.ringB (Nat.succ_le_of_lt hhead)
  rw [Nat.succ_mul] at hblocks
  rw [ringIndex]
  omega

theorem memSound_enqStored {s : State} (hring : s.ringSound) (h : s.memSound) (b : IQByte) :
    (enqStored b s).memSound := by
  obtain ⟨hwf, hwf0, hwf1, hbelow, hbelow0, hbelow1⟩ := h
  rw [State.memSound, enqStored_ring, enqStored_inp, enqStored_env]
  exact ⟨Memory.wf_write hwf _ _, hwf0, hwf1, Memory.below_write hbelow (ringIndex_head_lt hring) _, hbelow0, hbelow1⟩

theorem memSound_writeIn {s : State} (h : s.memSound) {i : Nat} (hi : i < s.env.par.nMax) (c : Chan) (v : RealNum) :
    (writeIn c i v s).memSound := by
  obtain ⟨hwf, hwf0, hwf1, hbelow, hbelow0, hbelow1⟩ := h
  cases c with
  | ch0 => exact ⟨hwf, Memory.wf_write hwf0 _ _, hwf1, hbelow, Memory.below_write hbelow0 hi _, hbelow1⟩
  | ch1 => exact ⟨hwf, hwf0, Memory.wf_write hwf1 _ _, hbelow, hbelow0, Memory.below_write hbelow1 hi _⟩

theorem enqStep_env (s : State) : (enqStep s).env = s.env := by
  rcases enqStep_cases s with ⟨_, h⟩ | ⟨_, _, h⟩ | ⟨b, _, _, h⟩ <;> rw [h]
  · rfl
  · exact enqStored_env b s

theorem ringSound_enqStep {s : State} (h : s.ringSound) : (enqStep s).ringSound := by
  rcases enqStep_cases s with ⟨_, he⟩ | ⟨_, _, he⟩ | ⟨b, _, hroom, he⟩ <;> rw [he]
  · exact h
  · exact h
  · exact ringSound_enqStored h hroom b

theorem memSound_enqStep {s : State} (hring : s.ringSound) (h : s.memSound) : (enqStep s).memSound := by
  rcases enqStep_cases s with ⟨_, he⟩ | ⟨_, _, he⟩ | ⟨b, _, _, he⟩ <;> rw [he]
  · exact h
  · exact h
  · exact memSound_enqStored hring h b

theorem onlyDatapath.ringSound {s t : State} (h : onlyDatapath s t) (hs : s.ringSound) : t.ringSound := by
  rw [h]
  exact hs

theorem onlyDatapath.memSound {s t : State} (h : onlyDatapath s t) (hs : s.memSound) : t.memSound := by
  rw [h]
  exact hs

/-- Settles O20: ENQ, DEQ and a reset keep the cursors sound, and nothing else writes them; no update writes the
parameters. -/
theorem stepKeepsTheRingCursors : Obligations.StepKeepsTheRingCursors := by
  intro s t hpar hring hstep
  refine step_induction (fun u => u.ringSound ∧ u.env.par = s.env.par) hstep ⟨hring, rfl⟩ (fun _ h => h) (fun _ h => h)
    ?reset (fun _ _ h => h) (fun _ _ _ h => h) (fun _ _ h => h) (fun _ _ h => h) (fun _ _ _ h => h)
    (fun _ _ _ h => h) (fun _ _ _ h => h) (fun _ _ h => h) (fun _ _ _ _ _ _ h => h) ?dequeue (fun _ _ h => h) ?producer
  case reset => exact fun u ⟨_, hp⟩ => ⟨ringSound_resetIn (e := { u.env with epoch := _ }) (hp ▸ hpar), hp⟩
  case dequeue => exact fun _ hcount ⟨hu, hp⟩ => ⟨ringSound_dequeueBlock hu hcount, hp⟩
  case producer =>
    rintro u v k i - hd hexec ⟨hu, hp⟩
    rcases exec_slot_cases hd hexec with ⟨_, rfl⟩ | ⟨_, hframe, _⟩
    · exact ⟨ringSound_enqStep hu, by rw [enqStep_env, hp]⟩
    · exact ⟨hframe.ringSound hu, by rw [hframe.env, hp]⟩

/-- Settles O21: `RING` is written by ENQ, at an index that exists because the cursors are in range, and `IN` by a
sample load, which checks its index. -/
theorem stepKeepsTheMemoryForm : Obligations.StepKeepsTheMemoryForm := by
  intro s t hpar hring hmem hstep
  refine (step_induction (fun u => (u.ringSound ∧ u.parSound) ∧ u.memSound) hstep ⟨⟨hring, hpar⟩, hmem⟩ (fun _ h => h)
    (fun _ h => h) ?reset (fun _ _ h => h) (fun _ _ _ h => h) (fun _ _ h => h) (fun _ _ h => h) (fun _ _ _ h => h)
    (fun _ _ _ h => h) (fun _ _ _ h => h) (fun _ _ h => h) ?load ?dequeue (fun _ _ h => h) ?producer).2
  case reset =>
    exact fun u ⟨⟨_, hp⟩, _⟩ => ⟨⟨ringSound_resetIn (e := { u.env with epoch := _ }) hp, hp⟩, memSound_resetIn _⟩
  case load => exact fun _ c _ v _ hi ⟨h, hm⟩ => ⟨h, memSound_writeIn hm hi c v⟩
  case dequeue => exact fun _ hcount ⟨⟨hu, hp⟩, hm⟩ => ⟨⟨ringSound_dequeueBlock hu hcount, hp⟩, hm⟩
  case producer =>
    rintro u v k i - hd hexec ⟨⟨hu, hp⟩, hm⟩
    rcases exec_slot_cases hd hexec with ⟨_, rfl⟩ | ⟨_, hframe, _⟩
    · exact ⟨⟨ringSound_enqStep hu, by rwa [State.parSound, enqStep_env]⟩, memSound_enqStep hu hm⟩
    · exact ⟨⟨hframe.ringSound hu, by rwa [State.parSound, hframe.env]⟩, hframe.memSound hm⟩

/-! ### The registers -/

theorem legalField_legalField (f : BitVec 2) : legalField (legalField f) = legalField f := by
  revert f
  decide

/-- The fields that `CFG` stores as written, and no others. -/
theorem legalCfg_and_mask (v : Word32) : legalCfg v &&& 0x0000FF10#32 = v &&& 0x0000FF10#32 := by
  ext i hi
  interval_cases i <;> simp [legalCfg]

/-- A legal word is stored as it is (10_state.md rule R36). -/
theorem legalCfg_legalCfg (v : Word32) : legalCfg (legalCfg v) = legalCfg v := by
  rw [legalCfg, cfgMode_legalCfg, cfgTau_legalCfg, legalField_legalField, legalField_legalField, legalCfg_and_mask,
    legalCfg]

theorem legalCfg_zero : legalCfg 0#32 = 0#32 := by decide

theorem legalCfg_default : legalCfg 0x00005A10#32 = 0x00005A10#32 := by decide

/-- A sticky bit set leaves the reserved bits 0. -/
theorem sticky_or {v b : Word32} (hv : v &&& ~~~stickyMask = 0#32) (hb : b &&& ~~~stickyMask = 0#32) :
    (v ||| b) &&& ~~~stickyMask = 0#32 := by
  rw [BitVec.and_comm, BitVec.and_or_distrib_left, BitVec.and_comm _ v, BitVec.and_comm _ b, hv, hb, BitVec.or_zero]

theorem faultBit_reserved (f : FaultCode) : faultBit f &&& ~~~stickyMask = 0#32 := by
  cases f <;> decide

theorem underrunBit_reserved : underrunBit &&& ~~~stickyMask = 0#32 := by decide

theorem sticky_clear {sticky : Word32} (h : sticky &&& ~~~stickyMask = 0#32) (v : Word32) :
    clearSticky v sticky &&& ~~~stickyMask = 0#32 := by
  rw [clearSticky, BitVec.and_assoc, BitVec.and_comm (~~~_), ← BitVec.and_assoc, h, BitVec.zero_and]

theorem enqStep_sameRegisters (s : State) : sameRegisters s (enqStep s) := by
  rcases enqStep_cases s with ⟨_, h⟩ | ⟨_, _, h⟩ | ⟨b, _, _, h⟩ <;> rw [h]
  · exact ⟨rfl, rfl, rfl, rfl, rfl, rfl, rfl, rfl, rfl, rfl⟩
  · exact ⟨rfl, rfl, rfl, rfl, rfl, rfl, rfl, rfl, rfl, rfl⟩
  · exact enqStored_sameRegisters b s

theorem regSound_of_sameRegisters {s t : State} (h : sameRegisters s t) (hs : s.regSound) : t.regSound := by
  obtain ⟨hsticky, hcfg, _, _, _, hlcfg, _⟩ := h
  rwa [State.regSound, hsticky, hcfg, hlcfg]

theorem regSound_resetIn (e : Env) : (State.resetIn e).regSound :=
  ⟨BitVec.zero_and, legalCfg_default, legalCfg_zero⟩

/-- Settles O22: a fault, an acknowledgement, an underrun and a write to `CFG` keep the bits legal, the latch is a copy
of `CFG`, and nothing else writes them. -/
theorem stepKeepsTheRegistersLegal : Obligations.StepKeepsTheRegistersLegal := by
  intro s t hs hstep
  refine step_induction State.regSound hstep hs (fun _ h => h) (fun _ h => h) (fun _ _ => regSound_resetIn _)
    (fun _ f ⟨hsticky, h⟩ => ⟨sticky_or hsticky (faultBit_reserved f), h⟩)
    (fun _ _ _ ⟨hsticky, hcfg, _⟩ => ⟨hsticky, hcfg, hcfg⟩) (fun _ v ⟨hsticky, h⟩ => ⟨sticky_clear hsticky v, h⟩)
    (fun _ v ⟨hsticky, _, hlcfg⟩ => ⟨hsticky, legalCfg_legalCfg v, hlcfg⟩) (fun _ _ _ h => h)
    (fun _ _ _ h => h) (fun _ _ _ h => h) (fun _ _ h => h) (fun _ _ _ _ _ _ h => h) (fun _ _ h => h)
    (fun _ _ ⟨hsticky, h⟩ => ⟨sticky_or hsticky underrunBit_reserved, h⟩) ?producer
  case producer =>
    intro u v k i _ hd hexec hu
    rcases exec_slot_cases hd hexec with ⟨_, rfl⟩ | ⟨_, hframe, _⟩
    · exact regSound_of_sameRegisters (enqStep_sameRegisters u) hu
    · exact regSound_of_sameRegisters hframe.registers hu

end Sys2Proof.Machine
end

section
/-! PROOFS. Every step keeps the chunk in progress sound: its latch, its slot and the buffers of that slot
(46_commands.md rules R232, R235, R237). -/

namespace Sys2Proof.Machine

/-- A chunk that CHUNK accepted is in progress (46_commands.md rule R232). -/
def State.chunkAccepted (s : State) : Prop :=
  s.busy = true ∧ 4 ≤ s.ln.toNat ∧ s.ln.toNat ≤ s.env.par.nMax ∧ 1 ≤ s.lm ∧ (s.lch = 1#2 ∨ s.lch = 2#2)

/-- The slot is one of a channel that the chunk has (46_commands.md rule R235). -/
def State.hasSlot (s : State) (k : Slot) : Prop := (k = .resamp .ch1 ∨ k = .pre .ch1) → s.lch = 2#2

theorem seqSound_of_some {s : State} {k : Slot} (hk : s.stage = some k) :
    s.seqSound ↔ s.chunkAccepted ∧ s.hasSlot k ∧ s.buffersSound k := by
  simp only [State.seqSound, hk, State.chunkAccepted, State.hasSlot, and_assoc]

theorem onlyDatapath.lch {s t : State} (h : onlyDatapath s t) : t.lch = s.lch := by rw [h]

theorem onlyDatapath.chunkAccepted {s t : State} (h : onlyDatapath s t) (hs : s.chunkAccepted) : t.chunkAccepted := by
  rw [h]
  exact hs

theorem stereoChunk_iff {s : State} : s.stereoChunk = true ↔ s.lch = 2#2 := beq_iff_eq

/-- Only a chunk of two channels moves on to a slot of channel 1. -/
theorem hasSlot_nextSlot (s : State) (k : Slot) : s.hasSlot (nextSlot s.stereoChunk k) := by
  rw [State.hasSlot, ← stereoChunk_iff]
  cases s.stereoChunk with
  | true => exact fun _ => rfl
  | false => rcases k with ⟨_ | _⟩ | ⟨_ | _⟩ | _ | _ | _ | _ <;> simp [nextSlot]

/-! ### The buffers of the next slot -/

section
variable {s : State}

theorem buffersSound_resampleChannel {c : Chan} (h : s.buffersSound (.resamp c)) :
    (advance (.resamp c) (resampleChannel c s)).buffersSound (nextSlot s.stereoChunk (.resamp c)) := by
  have hlength : ((resampleChannel c s).buf.get c).length = s.lm := by
    rw [resampleChannel_buf_get, resample_length]
  cases c with
  | ch0 =>
    cases hch : s.stereoChunk with
    | true => exact hlength
    | false =>
      refine ⟨hlength, fun hlch => ?_⟩
      cases hch.symm.trans (stereoChunk_iff.2 hlch)
  | ch1 => exact ⟨h, fun _ => hlength⟩

/-- Slots 2 and 3 read the same buffers. -/
theorem buffersSound_pre_next {t : State} {c : Chan} (h0 : t.buf.ch0.length = t.lm)
    (h1 : t.lch = 2#2 → t.buf.ch1.length = t.lm) (two : Bool) : t.buffersSound (nextSlot two (.pre c)) := by
  cases c <;> cases two <;> exact ⟨h0, h1⟩

theorem filterChannel_lengths (p : Coef) (c d : Chan) (s : State) :
    ((filterChannel p c s).buf.get d).length = (s.buf.get d).length := by
  by_cases hd : d = c
  · rw [hd, filterChannel_buf_get, preFilter_length]
  · rw [filterChannel, Pair.get_set_other _ hd]

theorem buffersSound_filterChannel {c : Chan} (h : s.buffersSound (.pre c)) (p : Coef) :
    (advance (.pre c) (filterChannel p c s)).buffersSound (nextSlot s.stereoChunk (.pre c)) :=
  buffersSound_pre_next ((filterChannel_lengths p c .ch0 s).trans h.1)
    (fun hlch => (filterChannel_lengths p c .ch1 s).trans (h.2 hlch)) _

/-- The operation of a slot of a sound chunk leaves the buffers that the next slot reads as they are to be. -/
theorem buffersSound_next {k : Slot} {i : Instr} {t : State} (hd : decodeSel k s.sel = .ok i)
    (hexec : exec i s = .next t) (hk : k ≠ .enq) (hm : 1 ≤ s.lm) (h : s.buffersSound k) :
    t.buffersSound (nextSlot s.stereoChunk k) := by
  rcases producer_cases hd hexec with ⟨c, rfl, _, _, _, _, rfl⟩ | ⟨c, rfl, ⟨p, rfl⟩ | rfl⟩ | ⟨rfl, _, rfl⟩ |
    ⟨rfl, hlch, rfl⟩ | ⟨rfl, hlch, rfl⟩ | ⟨rfl, dev, rfl⟩ | ⟨rfl, rfl⟩ | ⟨rfl, bs, hbs, rfl⟩ | ⟨rfl, _⟩
  · exact buffersSound_resampleChannel h
  · exact buffersSound_filterChannel h p
  · exact buffersSound_pre_next h.1 h.2 _
  · exact h.1
  · show (List.zipWith _ _ _).length = s.lm
    rw [List.length_zipWith, h.1, h.2 hlch, Nat.min_self]
  · show (mpx _ _ _ _ _).2.length = s.lm
    rw [mpx_length, h.1, h.2 hlch, Nat.min_self]
  · exact ⟨(fmPairs_length ..).trans (congrArg (2 * ·) h), fmPairs_inUnit s.env.par.num _ _ _ _⟩
  · exact ⟨(amPairs_length ..).trans (congrArg (2 * ·) h), amPairs_inUnit _ _ _⟩
  · exact ⟨(quantBytes_length hbs).trans h.1, show 0 < 2 * s.lm by omega⟩
  · exact absurd rfl hk

end

/-! ### ENQ -/

theorem seqSound_finishChunk (s : State) : (finishChunk s).seqSound := rfl

theorem seqSound_enqStored {s : State} (hk : s.stage = some .enq) (h : s.seqSound) (b : IQByte) :
    (enqStored b s).seqSound := by
  obtain ⟨hacc, _, hlength, _⟩ := (seqSound_of_some hk).1 h
  rcases Nat.lt_or_ge (s.pidx + 1) s.pend.length with hmore | hlast
  · obtain ⟨_, _, ⟨hbusy, hstage⟩, _⟩ := enqueueByte_progress b s
    obtain ⟨_, _, _, _, _, _, hln, _, hlch, hlm⟩ := enqStored_sameRegisters b s
    rw [← enqStored_more hmore] at hbusy hstage
    rw [seqSound_of_some (hstage.trans hk), State.chunkAccepted, hbusy, hln, hlch, hlm, enqStored_env]
    refine ⟨hacc, nofun, ?_⟩
    rw [State.buffersSound, enqStored_pend, enqStored_pidx, hlm, ← hlength]
    exact ⟨rfl, hmore⟩
  · rw [enqStored_last hlast]
    exact seqSound_finishChunk _

theorem seqSound_enqStep {s : State} (hk : s.stage = some .enq) (h : s.seqSound) : (enqStep s).seqSound := by
  rcases enqStep_cases s with ⟨_, he⟩ | ⟨_, _, he⟩ | ⟨b, _, _, he⟩ <;> rw [he]
  · exact seqSound_finishChunk s
  · exact h
  · exact seqSound_enqStored hk h b

/-- Settles O23: CHUNK's checks make the latch sound, an operation of slots 1 to 5 keeps the latch and leaves the next
slot's buffers (`buffersSound_next`), ENQ counts its bytes, and nothing else writes what the invariant is about. -/
theorem stepKeepsTheChunkSound : Obligations.StepKeepsTheChunkSound := by
  intro s t hs hstep
  refine step_induction State.seqSound hstep hs (fun _ h => h) (fun _ h => h) (fun _ _ => rfl) (fun _ _ h => h)
    ?latch (fun _ _ h => h) (fun _ _ h => h) (fun _ _ _ h => h) (fun _ _ _ h => h) (fun _ _ _ h => h) (fun _ _ h => h)
    (fun _ _ _ _ _ _ h => h) (fun _ _ h => h) (fun _ _ h => h) ?producer
  case latch =>
    intro u _ hpass _
    obtain ⟨hch, _, hmin, hmax, hout⟩ := chunkFault_eq_none.1 hpass
    exact (seqSound_of_some rfl).2 ⟨⟨rfl, hmin, hmax, Nat.one_le_iff_ne_zero.2 hout, hch⟩, nofun, trivial⟩
  case producer =>
    intro u v k i hk hd hexec hu
    obtain ⟨hacc, _, hbuf⟩ := (seqSound_of_some hk).1 hu
    rcases exec_slot_cases hd hexec with ⟨rfl, rfl⟩ | ⟨hne, hframe, hstage⟩
    · exact seqSound_enqStep hk hu
    · have ⟨_, _, _, hm, _⟩ := hacc
      refine (seqSound_of_some hstage).2 ⟨hframe.chunkAccepted hacc, ?_, buffersSound_next hd hexec hne hm hbuf⟩
      rw [State.hasSlot, hframe.lch]
      exact hasSlot_nextSlot u k

end Sys2Proof.Machine
end

section
/-! PROOFS. Every step keeps the pilot counter and the phase in range; the state after reset is sound; and who moves the
ring's cursors (42_stereo_mixer.md rule R161; 43_modulator.md rule R182; 10_state.md rules R28, R41). -/

namespace Sys2Proof.Machine

theorem enqStep_sameDatapath (s : State) : sameDatapath s (enqStep s) := by
  rcases enqStep_cases s with ⟨_, h⟩ | ⟨_, _, h⟩ | ⟨b, _, _, h⟩ <;> rw [h]
  · exact ⟨rfl, rfl, rfl, rfl⟩
  · exact ⟨rfl, rfl, rfl, rfl⟩
  · exact enqStored_sameDatapath b s

/-- The operation of a slot that changes the counter is MIX.MPX, and one that changes the phase is frequency
modulation. -/
theorem exec_slot_counters {k : Slot} {i : Instr} {s t : State} (hd : decodeSel k s.sel = .ok i)
    (hexec : exec i s = .next t) :
    (t.pilot = s.pilot ∨ t.pilot = (mpx s.format s.rate s.pilot s.buf.ch0 s.buf.ch1).1) ∧
    (t.phase = s.phase ∨ ∃ dev, t.phase = (modulateFm dev s).phase) ∧ t.env = s.env := by
  obtain ⟨hagent, _⟩ := decodeSel_slot hd
  cases i with
  | mixMpx w =>
    cases hexec
    exact ⟨.inr rfl, .inl rfl, rfl⟩
  | modWfm w =>
    cases hexec
    exact ⟨.inl rfl, .inr ⟨deviationWide, rfl⟩, rfl⟩
  | modNfm w =>
    cases hexec
    exact ⟨.inl rfl, .inr ⟨deviationNarrow, rfl⟩, rfl⟩
  | enq w =>
    cases hexec
    obtain ⟨_, _, hphase, hpilot⟩ := enqStep_sameDatapath s
    exact ⟨.inl hpilot, .inl hphase, enqStep_env s⟩
  | resamp w c =>
    obtain ⟨_, _, _, rfl⟩ := execResamp_next hexec
    exact ⟨.inl rfl, .inl rfl, rfl⟩
  | quant w =>
    obtain ⟨bs, _, rfl⟩ := execQuant_next hexec
    exact ⟨.inl rfl, .inl rfl, rfl⟩
  | pre50 | pre75 | preByp | mixMono | mixAvg | modAm =>
    cases hexec
    exact ⟨.inl rfl, .inl rfl, rfl⟩
  | nop | chunk | srst | deq => cases hagent

/-! ### The pilot counter -/

/-- What every step of the counter keeps, MIX.MPX keeps. -/
theorem mpx_pilot_induction (Q : Rat → Prop) (f : NumFormat) (t : Nat)
    (hstep : ∀ q, Q q → Q (f.pilotStep (pilotWrap t) q)) {p : Rat} (hp : Q p) (l r : List RealNum) :
    Q (mpx f t p l r).1 := by
  induction l generalizing p r with
  | nil => exact hp
  | cons x l ih =>
    cases r with
    | nil => exact hp
    | cons y r => exact ih (hstep p hp) r

/-- Settles O24: each step of the counter is a residue modulo `W`, and a reset sets it to 0. -/
theorem stepKeepsThePilotBounded : Obligations.StepKeepsThePilotBounded := by
  intro s t hx hpar hpilot hstep
  refine (step_induction (fun u => (u.exactFormat ∧ u.parSound) ∧ u.pilotSound) hstep ⟨⟨hx, hpar⟩, hpilot⟩
    (fun _ h => h) (fun _ h => h) ?reset (fun _ _ h => h) (fun _ _ _ h => h) (fun _ _ h => h) (fun _ _ h => h)
    (fun _ _ _ h => h) (fun _ _ _ h => h) (fun _ _ _ h => h) (fun _ _ h => h) (fun _ _ _ _ _ _ h => h)
    (fun _ _ h => h) (fun _ _ h => h) ?producer).2
  case reset => exact fun u ⟨⟨hux, hup⟩, _⟩ => ⟨⟨hux, hup⟩, le_rfl, pilotWrap_pos hup.1⟩
  case producer =>
    rintro u v k i - hd hexec ⟨⟨hux, hup⟩, hu⟩
    obtain ⟨hcounter, _, henv⟩ := exec_slot_counters hd hexec
    refine ⟨⟨by rwa [State.exactFormat, henv], by rwa [State.parSound, henv]⟩, ?_⟩
    rw [State.pilotSound, State.rate, henv]
    rcases hcounter with h | h <;> rw [h]
    · exact hu
    · rw [format_of_exactFormat hux]
      exact mpx_pilot_induction (fun q => 0 ≤ q ∧ q < pilotWrap u.rate) _ _
        (fun q _ => ratMod_mem (q + 1) (pilotWrap_pos hup.1)) hu _ _

/-! ### The phase -/

/-- The range that a phase has in a number format (43_modulator.md rule R182; log entry 28). -/
def phaseIn (n : NumSel) (p : RealNum) : Prop :=
  match n with
  | .reference => -Real.pi < p.toReal ∧ p.toReal ≤ Real.pi
  | .build => ∃ q : Rat, p = .ofRat q ∧ inBuildPi q

theorem phaseSound_iff {s : State} : s.phaseSound ↔ phaseIn s.env.par.num s.phase := Iff.rfl

theorem phaseIn_zero (n : NumSel) : phaseIn n .zero := by
  have hpi := Real.pi_pos
  have hbuild := numPi_pos
  cases n with
  | reference =>
    rw [phaseIn, RealNum.toReal_zero]
    exact ⟨by linarith, hpi.le⟩
  | build => exact ⟨0, rfl, by linarith, hbuild.le⟩

theorem phaseIn_wrap (n : NumSel) (p : RealNum) : phaseIn n ((NumFormat.of n).wrap p) := by
  cases n with
  | reference =>
    show -Real.pi < p.wrap.toReal ∧ p.wrap.toReal ≤ Real.pi
    rw [RealNum.toReal_wrap]
    exact wrapReal_mem _
  | build => exact ⟨_, rfl, buildWrap_mem p⟩

/-- The phase after a signal is the one before it, or a wrap. -/
theorem phaseIn_fmPairs (n : NumSel) (scale : RealNum) (g : Rat) {p : RealNum} (hp : phaseIn n p) (xs : List RealNum) :
    phaseIn n (fmPairs (.of n) scale g p xs).1 := by
  induction xs generalizing p with
  | nil => exact hp
  | cons x xs ih => exact ih (phaseIn_wrap n _)

/-- Settles O25: frequency modulation wraps each phase, and a reset sets it to 0. -/
theorem stepKeepsThePhaseInRange : Obligations.StepKeepsThePhaseInRange := by
  intro s t hs hstep
  refine step_induction State.phaseSound hstep hs (fun _ h => h) (fun _ h => h) (fun u _ => phaseIn_zero u.env.par.num)
    (fun _ _ h => h) (fun _ _ _ h => h) (fun _ _ h => h) (fun _ _ h => h) (fun _ _ _ h => h) (fun _ _ _ h => h)
    (fun _ _ _ h => h) (fun _ _ h => h) (fun _ _ _ _ _ _ h => h) (fun _ _ h => h) (fun _ _ h => h) ?producer
  case producer =>
    intro u v k i _ hd hexec hu
    obtain ⟨_, hphase, henv⟩ := exec_slot_counters hd hexec
    rw [phaseSound_iff, henv]
    rcases hphase with h | ⟨dev, h⟩ <;> rw [h]
    · exact hu
    · exact phaseIn_fmPairs u.env.par.num _ _ hu _

/-! ### The state after reset -/

theorem config_params_wf : Config.params.wf :=
  ⟨Nat.le_add_left 1 _, Nat.le_add_left 4 _, Nat.le_add_left 1 _, Nat.le_add_left 1 _⟩

/-- Settles O26: the parameters meet their constraints by their form, and the rest are the literals of the reset
state. -/
theorem resetIsSound : Obligations.ResetIsSound :=
  ⟨⟨config_params_wf, ringSound_resetIn config_params_wf, memSound_resetIn _, regSound_resetIn _, rfl⟩,
    ⟨le_rfl, pilotWrap_pos config_params_wf.1⟩, phaseIn_zero .reference, rfl⟩

/-! ### Who moves the ring's cursors -/

/-- A move of HOST resets the unit or leaves the ring's cursors alone. -/
theorem step_host_cursors {s t : State} {ts : List Turn} (hs : s.env.sched = .host :: ts) (hstep : step s = .next t) :
    t = { State.reset with env := t.env } ∨ sameCursors s t := by
  have hsame : ∀ {c i v}, sampleLoad c i v (popHost (popTurn s)) = .next t → sameCursors s t := by
    intro c i v h
    obtain ⟨k, x, _, _, _, _, rfl⟩ := sampleLoad_next h
    exact ⟨rfl, rfl, rfl, rfl⟩
  rcases hq : s.env.hostQ with _ | ⟨⟨off, bytes, v⟩ | ⟨off, bytes⟩ | ⟨c, i, v⟩, q⟩
  · cases (step_host_nothing hs hq).symm.trans hstep
    exact .inr ⟨rfl, rfl, rfl, rfl⟩
  · by_cases hcmd : off ≠ 0 ∨ bytes ≠ 4
    · refine .inr ?_
      rcases regWrite_next ((step_host_write hs hq hcmd).symm.trans hstep) with rfl | rfl | rfl | ⟨_, rfl | rfl | rfl⟩ |
        ⟨c, i, w, h⟩
      case inr.inr.inr.inr => exact hsame h
      all_goals exact ⟨rfl, rfl, rfl, rfl⟩
    · obtain ⟨rfl, rfl⟩ : off = 0 ∧ bytes = 4 := by omega
      cases hbusy : s.busy with
      | true =>
        cases (step_host_held hs hq hbusy).symm.trans hstep
        exact .inr ⟨rfl, rfl, rfl, rfl⟩
      | false =>
        have hidle : (popHost (popTurn s)).busy = false := hbusy
        rw [step_host_command hs hq hbusy, runWord, decode] at hstep
        rcases decodeCommand_cases v with ⟨_, hv⟩ | ⟨_, hv⟩ | ⟨_, hv⟩ | ⟨_, _, _, hv⟩ <;> rw [hv] at hstep
        · cases (exec_nop _).symm.trans hstep
          exact .inr ⟨rfl, rfl, rfl, rfl⟩
        · cases (exec_chunk_of_idle hidle).symm.trans hstep
          rcases acceptChunk_cases (popHost (popTurn s)) with ⟨f, _, h⟩ | ⟨_, h⟩ <;> rw [h] <;>
            exact .inr ⟨rfl, rfl, rfl, rfl⟩
        · cases (exec_srst_of_idle hidle).symm.trans hstep
          exact .inl rfl
        · cases hstep
          exact .inr ⟨rfl, rfl, rfl, rfl⟩
  · rw [regRead_next ((step_host_read hs hq).symm.trans hstep)]
    exact .inr ⟨rfl, rfl, rfl, rfl⟩
  · exact .inr (hsame ((step_host_load hs hq).symm.trans hstep))

theorem enqStep_tail (s : State) : (enqStep s).tail = s.tail := by
  rcases enqStep_cases s with ⟨_, h⟩ | ⟨_, _, h⟩ | ⟨b, _, _, h⟩ <;> rw [h]
  · rfl
  · exact enqStored_tail b s

theorem step_producer_tail {s t : State} {ts : List Turn} (hs : s.env.sched = .producer :: ts)
    (hstep : step s = .next t) : t.tail = s.tail := by
  cases hk : s.stage with
  | none =>
    cases (step_producer_idle hs hk).symm.trans hstep
    rfl
  | some k =>
    rw [step_producer hs hk, runWord, decode] at hstep
    cases hd : decodeSel k s.sel with
    | error e =>
      rw [hd] at hstep
      rw [(rejectWord_next hstep).2]
      rfl
    | ok i =>
      rw [hd] at hstep
      rcases exec_slot_cases (s := popTurn s) hd hstep with ⟨_, rfl⟩ | ⟨_, hframe, _⟩
      · exact enqStep_tail _
      · exact hframe.cursors.2.1

theorem step_consumer_cursors {s t : State} {len : Word32} {ts : List Turn} (hs : s.env.sched = .consumer len :: ts)
    (hstep : step s = .next t) : t.head = s.head ∧ t.off = s.off := by
  rw [step_consumer hs] at hstep
  obtain ⟨_, ⟨_, rfl⟩ | ⟨_, rfl⟩⟩ := execDeq_next hstep <;> exact ⟨rfl, rfl⟩

/-- Settles O28: one lemma for each agent's moves. -/
theorem cursorsHaveTheirOwners : Obligations.CursorsHaveTheirOwners := by
  intro s t m ts hs hstep
  cases m with
  | host =>
    rcases step_host_cursors hs hstep with h | ⟨hhead, htail, hcount, hoff⟩
    · exact .inl ⟨.inl rfl, h⟩
    · exact .inr ⟨fun _ => ⟨hhead, hoff⟩, fun _ => htail, fun _ _ => hcount⟩
  | producer => exact .inr ⟨fun h => absurd rfl h, fun _ => step_producer_tail hs hstep, fun h => absurd rfl h⟩
  | consumer len =>
    exact .inr ⟨fun _ => step_consumer_cursors hs hstep, fun h => absurd rfl (h len), fun _ h => absurd rfl (h len)⟩
  | platformReset =>
    cases (step_platformReset hs).symm.trans hstep
    exact .inl ⟨.inr rfl, rfl⟩

end Sys2Proof.Machine
end

section
/-! PROOFS. The resampler: its output count, its length and last sample, when it stops, its bounds, and that it keeps a
rising input rising (40_resampler.md rules R121 to R134). -/

namespace Sys2Proof.Machine

/-- Settles O29: natural-number division is the floor of the quotient, here `(2NT + S) / (2S)`. -/
theorem outputCountIsRoundedHalfUp : Obligations.OutputCountIsRoundedHalfUp := by
  intro n t r hr
  have hr : (r : ℚ) ≠ 0 := by positivity
  have hquot : (n * t : ℚ) / r + 1 / 2 = ((2 * n * t + r : ℕ) : ℚ) / ((2 * r : ℕ) : ℚ) := by
    push_cast
    field_simp
  rw [hquot, Rat.floor_natCast_div_natCast, outCount, Int.natCast_ediv]

/-- Settles O31: the buffer is `resample`, whose last entry is the last input by `toReal_resampleAt_last`. -/
theorem resampleLengthAndLastSampleAreExact : Obligations.ResampleLengthAndLastSampleAreExact := by
  intro s w c hmin hmax hm
  refine ⟨_, execResamp_ok hmin hmax hm, ?length, ?last⟩
  case length => rw [advance_buf, resampleChannel_buf_get, resample_length]
  case last =>
    rw [advance_buf, resampleChannel_buf_get, resample_getElem? _ _ _ (Nat.sub_lt hm Nat.one_pos),
      toReal_resampleAt_last _ _ _ _ _ hm]

/-- Settles O32: the three conditions are tested in this order. -/
theorem resampleStopsOutsideItsPreconditions : Obligations.ResampleStopsOutsideItsPreconditions := by
  intro s w c
  refine ⟨fun hshort => if_pos hshort, fun hmin hlong => ?long, fun hmin hmax hzero => ?zero⟩
  case long => exact (if_neg hmin.not_gt).trans (if_pos hlong)
  case zero => exact (if_neg hmin.not_gt).trans ((if_neg hmax.not_gt).trans (if_pos hzero))

/-! ### The interpolant

The outputs are the values, at the positions `(j + 1) * N / M`, of one broken line: it has the carry at 0 and input `i`
at `i + 1`. -/

/-- The line's value at the corner `i`. -/
def corner (carry : ℝ) (x : Nat → ℝ) : Nat → ℝ
  | 0 => carry
  | i + 1 => x i

/-- The value at the position `q / m` of the line with the corners `e`. -/
noncomputable def lineAt (e : Nat → ℝ) (m q : Nat) : ℝ :=
  e (q / m) + ((q % m : Nat) : ℝ) / m * (e (q / m + 1) - e (q / m))

theorem lineAt_mul (e : Nat → ℝ) {m : Nat} (hm : 0 < m) (n : Nat) : lineAt e m (m * n) = e n := by
  simp [lineAt, Nat.mul_div_cancel_left n hm]

/-- Every output is a value of the line, the last one too. -/
theorem toReal_resampleAt_eq_lineAt (carry : RealNum) (x : Nat → RealNum) {n m j : Nat} (hn : 0 < n) (hj : j < m) :
    (resampleAt .reference carry x n m j).toReal =
      lineAt (corner carry.toReal fun i => (x i).toReal) m ((j + 1) * n) := by
  rcases Nat.lt_or_ge (j + 1) m with h | h
  · rw [toReal_resampleAt carry x h, lineAt]
    dsimp only
    cases (j + 1) * n / m with
    | zero => rfl
    | succ f => rfl
  · obtain rfl : m = j + 1 := by omega
    obtain ⟨k, rfl⟩ := Nat.exists_eq_add_one.2 hn
    rw [lineAt_mul _ (Nat.succ_pos j)]
    exact congrArg RealNum.toReal (toReal_resampleAt_last .reference carry x _ _ (Nat.succ_pos j))

/-- The next position: the slope of the piece, over `m`. -/
theorem lineAt_succ (e : Nat → ℝ) {m : Nat} (hm : 0 < m) (q : Nat) :
    lineAt e m (q + 1) = lineAt e m q + (e (q / m + 1) - e (q / m)) / m := by
  have hm' : (m : ℝ) ≠ 0 := by positivity
  have hq := Nat.div_add_mod q m
  have hlt := Nat.mod_lt q hm
  rcases Nat.lt_or_ge (q % m + 1) m with h | h
  · have hdiv : (q + 1) / m = q / m := by
      rw [← hq, Nat.add_assoc, Nat.mul_add_div hm, Nat.mul_add_div hm, Nat.div_eq_of_lt h, Nat.div_eq_of_lt hlt]
    have hmod : (q + 1) % m = q % m + 1 := by
      rw [← hq, Nat.add_assoc, Nat.mul_add_mod, Nat.mul_add_mod, Nat.mod_eq_of_lt h, Nat.mod_mod]
    rw [lineAt, lineAt, hdiv, hmod]
    push_cast
    field_simp
    ring
  · have hlast : q % m + 1 = m := by omega
    have hnext : q + 1 = m * (q / m + 1) := by rw [Nat.mul_succ]; omega
    have hw : ((q % m : Nat) : ℝ) = m - 1 := by rw [eq_sub_iff_add_eq]; exact_mod_cast hlast
    rw [hnext, lineAt_mul e hm, lineAt, hw]
    field_simp
    ring

/-- Between two positions the line stays between any bounds of the corners. -/
theorem lineAt_mem {e : Nat → ℝ} {lo hi : ℝ} {m n q : Nat} (hm : 0 < m) (hq : q ≤ m * n)
    (he : ∀ i, i ≤ n → lo ≤ e i ∧ e i ≤ hi) : lo ≤ lineAt e m q ∧ lineAt e m q ≤ hi := by
  rcases hq.lt_or_eq with hq | rfl
  · have hf : q / m < n := Nat.div_lt_of_lt_mul hq
    obtain ⟨hlo0, hhi0⟩ := he (q / m) hf.le
    obtain ⟨hlo1, hhi1⟩ := he (q / m + 1) hf
    have hw0 : (0 : ℝ) ≤ ((q % m : Nat) : ℝ) / m := by positivity
    have hw1 : ((q % m : Nat) : ℝ) / m ≤ 1 := by
      rw [div_le_one (by positivity)]
      exact_mod_cast (Nat.mod_lt q hm).le
    rw [lineAt]
    constructor <;> nlinarith
  · rw [lineAt_mul e hm]
    exact he n le_rfl

/-- Rising corners make a rising line, and strictly rising ones a strictly rising line. -/
theorem lineAt_mono {e : Nat → ℝ} {m n : Nat} (hm : 0 < m) (he : ∀ i, i < n → e i ≤ e (i + 1)) {q r : Nat} (hqr : q ≤ r)
    (hr : r ≤ m * n) : lineAt e m q ≤ lineAt e m r := by
  induction r, hqr using Nat.le_induction with
  | base => rfl
  | succ r _ ih =>
    have hslope := he (r / m) (Nat.div_lt_of_lt_mul hr)
    have hstep : 0 ≤ (e (r / m + 1) - e (r / m)) / m := div_nonneg (by linarith) (Nat.cast_nonneg m)
    rw [lineAt_succ e hm]
    linarith [ih (Nat.le_of_succ_le hr)]

theorem lineAt_strictMono {e : Nat → ℝ} {m n : Nat} (hm : 0 < m) (he : ∀ i, i < n → e i < e (i + 1)) {q r : Nat}
    (hqr : q < r) (hr : r ≤ m * n) : lineAt e m q < lineAt e m r := by
  have hslope := he (q / m) (Nat.div_lt_of_lt_mul (hqr.trans_le hr))
  have hstep : 0 < (e (q / m + 1) - e (q / m)) / m := div_pos (by linarith) (by exact_mod_cast hm)
  have hrest := lineAt_mono hm (fun i hi => (he i hi).le) (Nat.succ_le_of_lt hqr) hr
  rw [Nat.succ_eq_add_one, lineAt_succ e hm] at hrest
  linarith

/-- The corners of the line that RESAMP of channel `c` follows. -/
noncomputable def State.corner (s : State) (c : Chan) : Nat → ℝ :=
  Machine.corner (s.hist.get c).h3.toReal (inReal s c)

/-- What RESAMP leaves in the channel's buffer, over exact arithmetic. -/
theorem resamp_outputs {s t : State} {w : Sel} {c : Chan} (hx : s.exactFormat)
    (hexec : exec (.resamp w c) s = .next t) :
    0 < s.ln.toNat ∧ 0 < s.lm ∧ (t.buf.get c).length = s.lm ∧
      ∀ j, j < s.lm → realAt (t.buf.get c) j = lineAt (s.corner c) s.lm ((j + 1) * s.ln.toNat) := by
  obtain ⟨hmin, _, hm, rfl⟩ := execResamp_next hexec
  have hn : 0 < s.ln.toNat := by omega
  rw [advance_buf, resampleChannel_buf_get, format_of_exactFormat hx]
  refine ⟨hn, hm, resample_length .., fun j hj => ?_⟩
  rw [realAt_resample _ _ _ hj]
  exact toReal_resampleAt_eq_lineAt _ _ hn hj

/-- Settles O33: each output is a value of the line (`resamp_outputs`), whose corners are the carry and the inputs. -/
theorem resampleStaysBetweenItsInputs : Obligations.ResampleStaysBetweenItsInputs := by
  intro s t w c lo hi hx hexec hlo hhi hin
  obtain ⟨_, hm, hlength, hout⟩ := resamp_outputs hx hexec
  have hcorner : ∀ i, i ≤ s.ln.toNat → lo ≤ s.corner c i ∧ s.corner c i ≤ hi := by
    rintro (_ | i) hi'
    · exact ⟨hlo, hhi⟩
    · exact hin i hi'
  refine ⟨hlength, fun y hy => ?_⟩
  obtain ⟨j, hj, rfl⟩ := List.mem_iff_getElem.1 hy
  have hj' : j < s.lm := hlength ▸ hj
  rw [← realAt_of_lt hj, hout j hj']
  exact lineAt_mem hm (Nat.mul_le_mul_right _ hj') hcorner

/-- Settles O34: the positions rise with `j`, and the line rises with its corners. -/
theorem resampleKeepsMonotone : Obligations.ResampleKeepsMonotone := by
  intro s t w c hx hexec
  obtain ⟨hn, hm, _, hout⟩ := resamp_outputs hx hexec
  refine ⟨fun hcarry hin j hj => ?weak, fun hcarry hin j hj => ?strict⟩
  case weak =>
    have hcorner : ∀ i, i < s.ln.toNat → s.corner c i ≤ s.corner c (i + 1) := by
      rintro (_ | i) hi
      · exact hcarry
      · exact hin i hi
    rw [hout j (Nat.lt_of_succ_lt hj), hout (j + 1) hj]
    exact lineAt_mono hm hcorner (Nat.mul_le_mul_right _ (Nat.le_succ _)) (Nat.mul_le_mul_right _ hj)
  case strict =>
    have hcorner : ∀ i, i < s.ln.toNat → s.corner c i < s.corner c (i + 1) := by
      rintro (_ | i) hi
      · exact hcarry
      · exact hin i hi
    rw [hout j (Nat.lt_of_succ_lt hj), hout (j + 1) hj]
    exact lineAt_strictMono hm hcorner (Nat.mul_lt_mul_of_pos_right (Nat.lt_succ_self _) hn) (Nat.mul_le_mul_right _ hj)

end Sys2Proof.Machine
end

section
/-! PROOFS. The pre-emphasis filter as a function of its state and input: concatenation, zero and linearity
(41_preemphasis.md rules R148 to R150). -/

namespace Sys2Proof.Machine

/-- Settles O36: by induction on the first list, with the state that its head leaves. -/
theorem preEmphasisConcatenates : Obligations.PreEmphasisConcatenates := by
  intro f k st x1 x2
  induction x1 generalizing st with
  | nil => rfl
  | cons x x1 ih => simp only [List.cons_append, preFilter, ih]

/-! ### Zero -/

theorem reference_mul_zero (x : RealNum) : NumFormat.reference.mul x .zero = .zero := if_pos (.inr rfl)

theorem reference_add_zero (x : RealNum) : NumFormat.reference.add x .zero = x := by
  by_cases h : x = .zero
  · exact (if_pos h).trans h.symm
  · exact (if_neg h).trans (if_pos rfl)

theorem reference_sub_zero (x : RealNum) : NumFormat.reference.sub x .zero = x := by
  have hneg : RealNum.scale (-1) 0 .zero = .zero := by simp [RealNum.scale, RealNum.zero]
  show RealNum.add x (RealNum.scale (-1) 0 .zero) = x
  rw [hneg]
  exact reference_add_zero x

/-- Zeros in, zeros out, as stored, and the state stays 0. -/
theorem preFilter_zeros (k : Coef) {xs : List RealNum} (h : ∀ x ∈ xs, x = RealNum.zero) :
    preFilter .reference k ⟨.zero, .zero⟩ xs = (⟨.zero, .zero⟩, xs) := by
  induction xs with
  | nil => rfl
  | cons x xs ih =>
    obtain ⟨rfl, hxs⟩ := List.forall_mem_cons.1 h
    simp only [preFilter, reference_mul_zero, reference_add_zero, reference_sub_zero, ih hxs]

theorem filterChannel_zeros {s : State} {c : Chan} (hx : s.exactFormat) (hst : s.fst.get c = ⟨.zero, .zero⟩)
    (h : ∀ x ∈ s.buf.get c, x = RealNum.zero) (k : Coef) : filterChannel k c s = s := by
  have hout := preFilter_zeros k h
  rw [← hst, ← format_of_exactFormat hx] at hout
  simp only [filterChannel, hout, Pair.set_get_self]

/-- Settles O37: on zeros both operations' filter is the identity (`filterChannel_zeros`). -/
theorem preEmphasisOfZeroIsZero : Obligations.PreEmphasisOfZeroIsZero := by
  intro s w c i hx hst hzero hi
  rcases hi with rfl | rfl
  · exact ⟨advance (.pre c) s, congrArg (Host.Outcome.next ∘ advance _) (filterChannel_zeros hx hst hzero _), rfl⟩
  · exact ⟨advance (.pre c) s, congrArg (Host.Outcome.next ∘ advance _) (filterChannel_zeros hx hst hzero _), rfl⟩

/-! ### Linearity -/

/-- One output of the recursion of 41_preemphasis.md rule R142. -/
def filterOut (f : NumFormat) (k : Coef) (st : FilterState) (x : RealNum) : RealNum :=
  f.sub (f.add (f.mul k.b0 x) (f.mul k.b1 st.xp)) (f.mul k.a1 st.yp)

theorem preFilter_cons (f : NumFormat) (k : Coef) (st : FilterState) (x : RealNum) (xs : List RealNum) :
    preFilter f k st (x :: xs) = ((preFilter f k ⟨x, filterOut f k st x⟩ xs).1,
      filterOut f k st x :: (preFilter f k ⟨x, filterOut f k st x⟩ xs).2) := rfl

theorem toReal_filterOut (k : Coef) (st : FilterState) (x : RealNum) : (filterOut .reference k st x).toReal =
    k.b0.toReal * x.toReal + k.b1.toReal * st.xp.toReal - k.a1.toReal * st.yp.toReal := by
  simp only [filterOut, NumFormat.reference, RealNum.toReal_sub, RealNum.toReal_add, RealNum.toReal_mul]

/-- The state and the entries of one run are the combination of those of two others. -/
theorem preFilter_linear (k : Coef) {a b : ℝ} {u v r : FilterState} {x y z : List RealNum} (hx : x.length = z.length)
    (hy : y.length = z.length) (hxp : r.xp.toReal = a * u.xp.toReal + b * v.xp.toReal)
    (hyp : r.yp.toReal = a * u.yp.toReal + b * v.yp.toReal)
    (hz : ∀ n, realAt z n = a * realAt x n + b * realAt y n) :
    (∀ n, realAt (preFilter .reference k r z).2 n =
        a * realAt (preFilter .reference k u x).2 n + b * realAt (preFilter .reference k v y).2 n) ∧
      (preFilter .reference k r z).1.xp.toReal =
        a * (preFilter .reference k u x).1.xp.toReal + b * (preFilter .reference k v y).1.xp.toReal ∧
      (preFilter .reference k r z).1.yp.toReal =
        a * (preFilter .reference k u x).1.yp.toReal + b * (preFilter .reference k v y).1.yp.toReal := by
  induction z generalizing u v r x y with
  | nil =>
    obtain rfl := List.length_eq_zero_iff.1 hx
    obtain rfl := List.length_eq_zero_iff.1 hy
    exact ⟨fun n => by simp [preFilter], hxp, hyp⟩
  | cons z₀ z ih =>
    obtain ⟨x₀, x, rfl⟩ := List.exists_cons_of_length_eq_add_one hx
    obtain ⟨y₀, y, rfl⟩ := List.exists_cons_of_length_eq_add_one hy
    have hin : z₀.toReal = a * x₀.toReal + b * y₀.toReal := hz 0
    have hout : (filterOut .reference k r z₀).toReal =
        a * (filterOut .reference k u x₀).toReal + b * (filterOut .reference k v y₀).toReal := by
      simp only [toReal_filterOut, hin, hxp, hyp]
      ring
    simp only [preFilter_cons]
    obtain ⟨hrest, hlast⟩ := ih (r := ⟨z₀, filterOut .reference k r z₀⟩) (u := ⟨x₀, filterOut .reference k u x₀⟩)
      (v := ⟨y₀, filterOut .reference k v y₀⟩) (Nat.succ.inj hx) (Nat.succ.inj hy) hin hout fun n => hz (n + 1)
    refine ⟨fun n => ?_, hlast⟩
    cases n with
    | zero => exact hout
    | succ n => exact hrest n

/-- Settles O38: `preFilter_linear`. -/
theorem preEmphasisIsLinear : Obligations.PreEmphasisIsLinear :=
  fun k _ _ _ _ _ _ _ _ hx hy hxp hyp hz => preFilter_linear k hx hy hxp hyp hz

end Sys2Proof.Machine
end

section
/-! PROOFS. Slots 2 to 4 complete in every number format, with values in range; frequency modulation of silence; the
quadrature of amplitude modulation (43_modulator.md rules R181 to R186). -/

namespace Sys2Proof.Machine

/-- Over exact arithmetic every pair of frequency modulation is the sine and the cosine of one phase. -/
theorem fmPairs_circle (scale : RealNum) (g : Rat) (p : RealNum) {xs : List RealNum} {n : Nat} (h : n < xs.length) :
    realAt (fmPairs .reference scale g p xs).2 (2 * n) ^ 2 +
      realAt (fmPairs .reference scale g p xs).2 (2 * n + 1) ^ 2 = 1 := by
  obtain ⟨hsin, hcos⟩ := fmPairs_pair .reference scale g p h
  rw [realAt_of_getElem? hsin, realAt_of_getElem? hcos]
  simp only [NumFormat.reference, RealNum.toReal_sin, RealNum.toReal_cos, Real.sin_sq_add_cos_sq]

theorem modulateFm_iq_inUnit (dev : Nat) (s : State) :
    (modulateFm dev s).iq.length = 2 * s.sig.length ∧ ∀ v ∈ (modulateFm dev s).iq, v.inUnit = true :=
  ⟨fmPairs_length .., fmPairs_inUnit s.env.par.num _ _ _ _⟩

theorem modulateFm_circle {s : State} (hx : s.exactFormat) (dev : Nat) {n : Nat} (hn : n < s.sig.length) :
    realAt (modulateFm dev s).iq (2 * n) ^ 2 + realAt (modulateFm dev s).iq (2 * n + 1) ^ 2 = 1 := by
  rw [modulateFm, format_of_exactFormat hx]
  exact fmPairs_circle _ _ _ hn

/-- Settles O46: each operation is one update; the values of MOD are sines, cosines, clipped values and zeros. -/
theorem stagesCompleteInEveryFormat : Obligations.StagesCompleteInEveryFormat := by
  intro s w c
  refine ⟨fun i hi => ?complete, fun i hi => ?range, fun i hi t hx hexec n hn => ?circle⟩
  case complete =>
    simp only [List.mem_cons, List.not_mem_nil, or_false] at hi
    rcases hi with rfl | rfl | rfl | rfl | rfl | rfl <;> exact ⟨_, rfl⟩
  case range =>
    simp only [List.mem_cons, List.not_mem_nil, or_false] at hi
    rcases hi with rfl | rfl | rfl
    · exact ⟨_, rfl, modulateFm_iq_inUnit deviationWide s⟩
    · exact ⟨_, rfl, modulateFm_iq_inUnit deviationNarrow s⟩
    · exact ⟨_, rfl, amPairs_length .., amPairs_inUnit _ _ _⟩
  case circle =>
    simp only [List.mem_cons, List.not_mem_nil, or_false] at hi
    rcases hi with rfl | rfl <;> cases hexec
    · exact modulateFm_circle hx deviationWide hn
    · exact modulateFm_circle hx deviationNarrow hn

/-! ### Silence -/

/-- A phase that each sample leaves as it is stays. -/
theorem fmPhaseAt_const {f : NumFormat} {scale : RealNum} {g : Rat} {p : RealNum} {xs : List RealNum}
    (h : ∀ x ∈ xs, fmPhase f scale g p x = p) {n : Nat} (hn : n ≤ xs.length) : fmPhaseAt f scale g p xs n = p := by
  induction n with
  | zero => rfl
  | succ n ih => rw [fmPhaseAt_succ _ _ _ _ hn, ih (Nat.le_of_succ_le hn), h _ (List.getElem_mem _)]

theorem clip_zero : RealNum.zero.clip = .zero := by
  norm_num [RealNum.clip, RealNum.zero, RealNum.enc_rat]

/-- The clause of 43_modulator.md rule R183 that holds "exactly under any `NUM`". -/
theorem fmPhase_silence {f : NumFormat} {scale p x : RealNum} {g : Rat} (hmul : f.mul scale .zero = .zero)
    (hadd : f.add p .zero = p) (hwrap : f.wrap p = p) (hx : f.mul x (f.ofRat g) = .zero) :
    fmPhase f scale g p x = p := by
  rw [fmPhase, hx, clip_zero, hmul, hadd, hwrap]

/-- Over exact arithmetic a phase in range denotes the same number after each silent sample. -/
theorem toReal_fmPhaseAt_silence (dev t : Nat) {g : Rat} {p : RealNum} {xs : List RealNum} (hp : phaseIn .reference p)
    (h : ∀ x ∈ xs, x.toReal * (g : ℝ) = 0) {n : Nat} (hn : n ≤ xs.length) :
    (fmPhaseAt .reference (phaseScale .reference dev t) g p xs n).toReal = p.toReal := by
  induction n with
  | zero => rfl
  | succ n ih =>
    rw [toReal_fmPhaseAt_succ dev t g p hn, ih (Nat.le_of_succ_le hn), realAt_of_lt hn, h _ (List.getElem_mem _),
      clipReal_of_mem (by norm_num) (by norm_num), mul_zero, add_zero, wrapReal_of_mem hp.1 hp.2]

theorem modulateFm_silence {s : State} (hx : s.exactFormat) (hp : s.phaseSound)
    (h : ∀ x ∈ s.sig, x.toReal * ((cfgGain s.lcfg : ℝ) / 100) = 0) (dev : Nat) :
    (modulateFm dev s).phase.toReal = s.phase.toReal ∧ ∀ n, n < s.sig.length →
      realAt (modulateFm dev s).iq (2 * n) = Real.sin s.phase.toReal ∧
      realAt (modulateFm dev s).iq (2 * n + 1) = Real.cos s.phase.toReal := by
  rw [phaseSound_iff, hx] at hp
  rw [← gainFactor_cast] at h
  rw [modulateFm, format_of_exactFormat hx]
  refine ⟨?_, fun n hn => ?_⟩
  · rw [fmPairs_phase]
    exact toReal_fmPhaseAt_silence dev s.rate hp h le_rfl
  · obtain ⟨hsin, hcos⟩ := fmPairs_pair .reference (phaseScale .reference dev s.rate) (gainFactor s.lcfg) s.phase hn
    rw [realAt_of_getElem? hsin, realAt_of_getElem? hcos, ← toReal_fmPhaseAt_silence dev s.rate hp h hn]
    exact ⟨RealNum.toReal_sin _, RealNum.toReal_cos _⟩

/-- Settles O47: `modulateFm_silence` over exact arithmetic; in a number format with the named properties the stored
phase stays (`fmPhase_silence`); a build's wrap is `buildWrap_of_mem`. -/
theorem fmSilenceKeepsThePhase : Obligations.FmSilenceKeepsThePhase := by
  refine ⟨fun s t w hx hp hexec h => ?exact, fun f scale p g xs hmul hadd hwrap hzero => ?any,
    fun p hp => congrArg RealNum.ofRat (buildWrap_of_mem hp)⟩
  case exact =>
    rcases hexec with hexec | hexec <;> cases hexec
    · exact modulateFm_silence hx hp h deviationWide
    · exact modulateFm_silence hx hp h deviationNarrow
  case any =>
    have hstays : ∀ x ∈ xs, fmPhase f scale g p x = p := fun x hx => fmPhase_silence hmul hadd hwrap (hzero x hx)
    refine ⟨(fmPairs_phase ..).trans (fmPhaseAt_const hstays le_rfl), fun n hn => ?_⟩
    have hpair := fmPairs_pair f scale g p hn
    rwa [fmPhaseAt_const hstays hn] at hpair

/-- Settles O49: `amPairs_pair`. -/
theorem amQuadratureIsAStoredZero : Obligations.AmQuadratureIsAStoredZero :=
  fun s _ => ⟨_, rfl, fun _ hn => (amPairs_pair s.format (gainFactor s.lcfg) hn).2⟩

end Sys2Proof.Machine
end

section
/-! PROOFS. The fields of `CFG` and of the status word, what a register read answers, and what a sample load stores
(10_state.md rules R34 to R40; 46_commands.md rules R240 to R242). -/

namespace Sys2Proof.Machine

/-! ### `CFG` -/

theorem cfgStereo_legalCfg (v : Word32) : cfgStereo (legalCfg v) = cfgStereo v := by
  simp [cfgStereo, legalCfg]

theorem cfgGain_legalCfg (v : Word32) : cfgGain (legalCfg v) = cfgGain v := by
  have hbits : (legalCfg v).extractLsb' 8 8 = v.extractLsb' 8 8 := by
    ext i hi
    interval_cases i <;> simp [legalCfg]
  rw [cfgGain, hbits, cfgGain]

theorem legalCfg_reserved (v : Word32) : legalCfg v &&& 0xFFFF00E0#32 = 0#32 := by
  ext i hi
  interval_cases i <;> simp [legalCfg]

/-- Settles O56: one lemma for each field of the stored word. -/
theorem cfgTakesLegalValues : Obligations.CfgTakesLegalValues :=
  fun v => ⟨cfgMode_legalCfg v, cfgTau_legalCfg v, cfgStereo_legalCfg v, cfgGain_legalCfg v, legalCfg_reserved v⟩

/-! ### The status word -/

theorem getLsbD_flagBit (b : Bool) {pos n : Nat} (hpos : pos < 32) :
    (flagBit b pos).getLsbD n = (b && decide (n = pos)) := by
  have hbit : (1#32 <<< pos).getLsbD n = decide (n = pos) := by
    rw [← BitVec.twoPow_eq, BitVec.getLsbD_twoPow]
    simp [hpos, eq_comm]
  cases b
  · simp [flagBit]
  · simp [flagBit, hbit]

theorem getLsbD_stickyMask : ∀ n, n < 32 → stickyMask.getLsbD n = decide (n = 8 ∨ (16 ≤ n ∧ n ≤ 21)) := by decide

/-- Each bit of the status word is a flag's, at its own place, or a sticky bit (10_state.md rule R35). -/
theorem getLsbD_statusWord (s : State) {n : Nat} (hn : n < 32) : (statusWord s).getLsbD n =
    (s.sticky.getLsbD n && decide (n = 8 ∨ (16 ≤ n ∧ n ≤ 21)) || s.busy && decide (n = 0) || s.full && decide (n = 1) ||
      s.empty && decide (n = 2)) := by
  simp only [statusWord, BitVec.getLsbD_or, BitVec.getLsbD_and, getLsbD_stickyMask n hn,
    getLsbD_flagBit _ (by omega : 0 < 32), getLsbD_flagBit _ (by omega : 1 < 32),
    getLsbD_flagBit _ (by omega : 2 < 32)]

/-- Settles O58: the flags' places are no sticky bits', so at most one term of `getLsbD_statusWord` is not 0. -/
theorem statusWordFields : Obligations.StatusWordFields := by
  intro s n hn
  rw [getLsbD_statusWord s hn]
  split_ifs with h0 h1 h2 hsticky
  · simp [h0]
  · simp [h1, State.full, beq_eq_decide]
  · simp [h2, State.empty, beq_eq_decide]
  · simp [h0, h1, h2, hsticky]
  · simp [h0, h1, h2, hsticky]

/-! ### Register reads -/

theorem regRead_of_word {off : Nat} (ha : off % 4 = 0) (hoff : off < inBase) (s : State) :
    regRead off 4 s = .next { s with env := { s.env with rdata := regValue s off } } := by
  simp [regRead, wordAccess_aligned ha, hoff]

theorem regRead_of_not_word {off bytes : Nat} (h : off % 4 ≠ 0 ∨ bytes ≠ 4) (s : State) :
    regRead off bytes s = .refused .badRegAccess :=
  if_pos (wordAccess_eq_false.mpr h)

theorem regRead_window {off : Nat} (h : inBase ≤ off) (ha : off % 4 = 0) (s : State) :
    regRead off 4 s = .refused .sampleWindow := by
  simp [regRead, wordAccess_aligned ha, h]

theorem regValue_reserved {off : Nat} (h : offChunkCh + 4 ≤ off) (s : State) : regValue s off = 0#32 := by
  simp only [offChunkCh] at h
  have hnot : off ≠ offStatus ∧ off ≠ offCfg ∧ off ≠ offChunkN ∧ off ≠ offChunkRate ∧ off ≠ offChunkCh := by
    simp only [offStatus, offCfg, offChunkN, offChunkRate, offChunkCh]; omega
  simp [regValue, hnot]

/-- Settles O57: each clause is the equation of `regRead` at its class of offsets. -/
theorem registerReadsAnswer : Obligations.RegisterReadsAnswer := by
  unfold Obligations.RegisterReadsAnswer
  intro s answers
  refine ⟨rfl, rfl, rfl, rfl, rfl, rfl, fun off hlo hhi ha => ?reserved, fun off bytes h => regRead_of_not_word h s,
    fun off h ha => regRead_window h ha s⟩
  case reserved => exact (regRead_of_word ha hhi s).trans (by rw [regValue_reserved hlo])

/-! ### Sample loads -/

theorem sampleLoad_of_chan {c : Chan} {i : Nat} {s : State} (hi : i < s.env.par.nMax) (v : RealNum) :
    sampleLoad c.index i (.finite v) s = unlessBusy s (writeIn c i v s) := by
  cases c <;> exact if_neg hi.not_ge

theorem sampleLoad_above {s : State} {i : Nat} (h : s.env.par.nMax ≤ i) (c : Nat) (v : RealNum) :
    sampleLoad c i (.finite v) s = .refused .noSuchSample := by
  unfold sampleLoad
  cases chanOf c with
  | none => rfl
  | some k => exact if_pos h

theorem sampleLoad_notFinite (c : Chan) (i : Nat) (s : State) :
    sampleLoad c.index i .notFinite s = .refused .notFinite := by
  cases c <;> rfl

/-- Settles O59: an existing sample's load is `writeIn` unless `BUSY = 1`. -/
theorem sampleLoadsStore : Obligations.SampleLoadsStore := by
  intro s i v
  refine ⟨fun c hi hidle => ?stores, fun c hi hbusy => ?held, fun c h => ?absent, fun c => sampleLoad_notFinite c i s⟩
  case stores =>
    refine ⟨writeIn c i v s, (sampleLoad_of_chan hi v).trans (unlessBusy_idle hidle _), readIn_writeIn_same s c i v,
      fun d j h => readIn_writeIn_other s v h, rfl⟩
  case held => exact (sampleLoad_of_chan hi v).trans (unlessBusy_busy hbusy _)
  case absent =>
    rcases h with hc | hi
    · exact sampleLoad_no_channel hc i _ s
    · exact sampleLoad_above hi c v

end Sys2Proof.Machine
end

section
/-! PROOFS. A chunk with room in the ring completes (46_commands.md rules R235, R237, R245): its slots are run one after
another up to ENQ, and then its bytes one by one. -/

namespace Sys2Proof.Machine

/-! ### Runs of a sound state -/

/-- The invariants together: every step keeps them. -/
theorem step_keeps_sound {s t : State} (h : s.sound) (hstep : step s = .next t) : t.sound := by
  obtain ⟨hpar, hring, hmem, hreg, hseq⟩ := h
  obtain ⟨hring', hpar'⟩ := stepKeepsTheRingCursors s t hpar hring hstep
  exact ⟨by rwa [State.parSound, hpar'], hring', stepKeepsTheMemoryForm s t hpar hring hmem hstep,
    stepKeepsTheRegistersLegal s t hreg hstep, stepKeepsTheChunkSound s t hseq hstep⟩

theorem run_succ {s t : State} (h : step s = .next t) (n : Nat) :
    Sys2Proof.core.run (n + 1) s = Sys2Proof.core.run n t := by
  have hcore : Sys2Proof.core.step s = .next t := h
  simp only [Host.Core.run, hcore]

/-- A byte of the stream that is an integer in `-127 .. 127` (44_quantizer.md rule R199). -/
def byteInRange (b : IQByte) : Prop := -127 ≤ b.toByte.toInt ∧ b.toByte.toInt ≤ 127

/-- The chunk's size and what it may do to the ring are as before. -/
structure SameChunk (s t : State) : Prop where
  lch : t.lch = s.lch
  lm : t.lm = s.lm
  count : t.count = s.count
  off : t.off = s.off
  par : t.env.par = s.env.par
  contents : ringContents t = ringContents s

theorem SameChunk.trans {s t u : State} (h : SameChunk s t) (h' : SameChunk t u) : SameChunk s u :=
  ⟨h'.lch.trans h.lch, h'.lm.trans h.lm, h'.count.trans h.count, h'.off.trans h.off, h'.par.trans h.par,
    h'.contents.trans h.contents⟩

theorem onlyDatapath.sameChunk {s t : State} (h : onlyDatapath (popTurn s) t) : SameChunk s t := by
  rw [h]
  exact ⟨rfl, rfl, rfl, rfl, rfl, rfl⟩

/-! ### Slots 1 to 5 -/

/-- How many of PRODUCER's moves a chunk takes from a slot up to ENQ, in the order of `nextSlot`; `two` says that the
chunk has two channels. -/
def movesToEnq (two : Bool) : Slot → Nat
  | .resamp .ch0 => if two then 7 else 5
  | .resamp .ch1 => if two then 6 else 5
  | .pre .ch0 => if two then 5 else 4
  | .pre .ch1 => 4
  | .mix => 3
  | .mod => 2
  | .quant => 1
  | .enq => 0

theorem movesToEnq_nextSlot {two : Bool} {k : Slot} {d : Nat} (h : movesToEnq two k = d + 1) :
    movesToEnq two (nextSlot two k) = d := by
  cases two <;> rcases k with ⟨_ | _⟩ | ⟨_ | _⟩ | _ | _ | _ | _ <;> cases h <;> rfl

theorem eq_quant_of_movesToEnq {two : Bool} {k : Slot} (h : movesToEnq two k = 1) : k = .quant := by
  cases two <;> rcases k with ⟨_ | _⟩ | ⟨_ | _⟩ | _ | _ | _ | _ <;> cases h <;> rfl

theorem eq_enq_of_movesToEnq {two : Bool} {k : Slot} (h : movesToEnq two k = 0) : k = .enq := by
  cases two <;> rcases k with ⟨_ | _⟩ | ⟨_ | _⟩ | _ | _ | _ | _ <;> cases h <;> rfl

theorem quantBytes_inRange {s : State} {bs : List IQByte} (h : ∀ v ∈ s.iq, v.inUnit = true)
    (hbs : quantBytes s.format s.iq = some bs) : ∀ b ∈ bs, byteInRange b := by
  cases (quantBytes_of_inUnit s.format h).symm.trans hbs
  intro b hb
  obtain ⟨v, hv, rfl⟩ := List.mem_map.1 hb
  exact quantValue_bounds s.env.par.num (h v hv)

/-- QUANT leaves its bytes pending from the first on. -/
theorem pend_of_quant {i : Instr} {s t : State} (hd : decodeSel .quant s.sel = .ok i) (hexec : exec i s = .next t)
    (h : ∀ v ∈ s.iq, v.inUnit = true) : t.pidx = 0 ∧ ∀ b ∈ t.pend, byteInRange b := by
  cases (decode_quant s.sel).symm.trans hd
  obtain ⟨bs, hbs, rfl⟩ := execQuant_next hexec
  exact ⟨rfl, quantBytes_inRange h hbs⟩

/-- PRODUCER's move at a slot before ENQ: the chunk moves on, one move nearer to ENQ. -/
theorem sound_slot_step {s : State} {k : Slot} {ts : List Turn} {d : Nat} (h : s.sound)
    (hs : s.env.sched = .producer :: ts) (hk : s.stage = some k) (hd : movesToEnq s.stereoChunk k = d + 1) :
    ∃ t k', step s = .next t ∧ t.sound ∧ t.stage = some k' ∧ movesToEnq t.stereoChunk k' = d ∧ t.env.sched = ts ∧
      SameChunk s t ∧ (k = .quant → t.pidx = 0 ∧ ∀ b ∈ t.pend, byteInRange b) := by
  have hpop : (popTurn s).sound := h
  obtain ⟨i, t, hi, hexec⟩ := sound_slot_next hpop hk
  have hstep : step s = .next t := (step_producer_slot hs hk hi).trans hexec
  rcases exec_slot_cases hi hexec with ⟨rfl, _⟩ | ⟨_, hframe, hstage⟩
  · cases hd
  · refine ⟨t, _, hstep, step_keeps_sound h hstep, hstage, ?moves, ?turns, hframe.sameChunk, ?bytes⟩
    case moves =>
      rw [State.stereoChunk, hframe.lch]
      exact movesToEnq_nextSlot hd
    case turns => rw [hframe.env, popTurn_eq hs]
    case bytes =>
      rintro rfl
      obtain ⟨_, _, _, _, hseq⟩ := hpop
      obtain ⟨_, _, _, hunit⟩ := (seqSound_of_some hk).1 hseq
      exact pend_of_quant hi hexec hunit

/-- A sound chunk comes to ENQ, with its bytes pending and the ring as it was. -/
theorem run_to_enq {d m : Nat} {s : State} {k : Slot} (h : s.sound) (hk : s.stage = some k)
    (hd : movesToEnq s.stereoChunk k = d + 1) (hs : s.env.sched = List.replicate (m + (d + 1)) .producer) :
    ∃ u, Sys2Proof.core.run (m + (d + 1)) s = Sys2Proof.core.run m u ∧ u.sound ∧ u.stage = some .enq ∧
      u.env.sched = List.replicate m .producer ∧ SameChunk s u ∧ u.pidx = 0 ∧ ∀ b ∈ u.pend, byteInRange b := by
  induction d generalizing s k with
  | zero =>
    obtain rfl := eq_quant_of_movesToEnq hd
    obtain ⟨t, k', hstep, ht, hstage, hmoves, hturns, hsame, hbytes⟩ := sound_slot_step h hs hk hd
    obtain rfl := eq_enq_of_movesToEnq hmoves
    exact ⟨t, run_succ hstep m, ht, hstage, hturns, hsame, hbytes rfl⟩
  | succ d ih =>
    obtain ⟨t, k', hstep, ht, hstage, hmoves, hturns, hsame, _⟩ := sound_slot_step h hs hk hd
    obtain ⟨u, hrun, hu, hustage, huturns, husame, hbytes⟩ := ih ht hstage hmoves hturns
    exact ⟨u, (run_succ hstep _).trans hrun, hu, hustage, huturns, hsame.trans husame, hbytes⟩

/-! ### ENQ, byte by byte -/

theorem count_lt_of_room {s : State} {n : Nat} (hroom : n + 1 + s.off ≤ (s.env.par.ringC - s.count) * s.env.par.ringB) :
    s.count < s.env.par.ringC := by
  by_contra hge
  rw [Nat.sub_eq_zero_of_le (not_lt.1 hge), Nat.zero_mul] at hroom
  omega

/-- One more byte leaves room for one byte less. -/
theorem room_enqStored {s : State} {n : Nat} (hroom : n + 1 + s.off ≤ (s.env.par.ringC - s.count) * s.env.par.ringB)
    (b : IQByte) : n + (enqStored b s).off ≤ (s.env.par.ringC - (enqStored b s).count) * s.env.par.ringB := by
  by_cases hfull : s.off + 1 = s.env.par.ringB
  · obtain ⟨_, hcount, hoff⟩ := enqStored_full hfull b
    rw [hcount, hoff, Nat.sub_add_eq, Nat.sub_mul _ 1]
    omega
  · obtain ⟨_, hcount, hoff⟩ := enqStored_room hfull b
    rw [hcount, hoff]
    omega

/-- PRODUCER's move at ENQ, where there is room. -/
theorem step_enq {s : State} {b : IQByte} {ts : List Turn} (hs : s.env.sched = .producer :: ts)
    (hk : s.stage = some .enq) (hb : s.pend[s.pidx]? = some b) (hcount : s.count < s.env.par.ringC) :
    step s = .next (enqStored b (popTurn s)) :=
  (step_producer_slot hs hk (decode_enq s.sel)).trans (exec_enq_of_pending (s := popTurn s) hb hcount s.sel)

/-- At ENQ, with room for the bytes that are pending, each move appends one, and the last completes the chunk. -/
theorem run_enq {n : Nat} {s : State} (h : s.sound) (hk : s.stage = some .enq)
    (hs : s.env.sched = List.replicate (n + 1) .producer) (hpend : s.pend.length = s.pidx + (n + 1))
    (hroom : n + 1 + s.off ≤ (s.env.par.ringC - s.count) * s.env.par.ringB) :
    ∃ t, Sys2Proof.core.run (n + 1) s = .next t ∧ t.busy = false ∧
      ringContents t = ringContents s ++ s.pend.drop s.pidx := by
  have ⟨_, hring, _⟩ := h
  have hlt : s.pidx < s.pend.length := by omega
  have hstep := step_enq hs hk (List.getElem?_eq_getElem hlt) (count_lt_of_room hroom)
  have hcontents := ringContents_enqStored (s := popTurn s) hring (count_lt_of_room hroom) s.pend[s.pidx]
  rw [List.drop_eq_getElem_cons hlt]
  generalize ht : enqStored s.pend[s.pidx] (popTurn s) = t at hstep hcontents
  cases n with
  | zero =>
    have hlast : s.pend.length ≤ s.pidx + 1 := hpend.le
    refine ⟨t, run_succ hstep 0, ?_, ?_⟩
    · rw [← ht, enqStored_last (s := popTurn s) hlast, finishChunk_busy]
    · rw [hcontents, List.drop_eq_nil_of_le hlast]
      rfl
  | succ n =>
    have hmore : (popTurn s).pidx + 1 < (popTurn s).pend.length := by
      show s.pidx + 1 < s.pend.length
      omega
    obtain ⟨hpend', hpidx', ⟨_, hstage⟩, _⟩ := enqueueByte_progress s.pend[s.pidx] (popTurn s)
    rw [← enqStored_more hmore, ht] at hpend' hpidx' hstage
    have hturns : t.env.sched = List.replicate (n + 1) .producer := by rw [← ht, enqStored_env, popTurn_eq hs]
    have hroom' := room_enqStored (s := popTurn s) hroom s.pend[s.pidx]
    obtain ⟨u, hrun, hidle, hu⟩ := run_enq (step_keeps_sound h hstep) (hstage.trans hk) hturns
      (by rw [hpend', hpidx', popTurn_pend, popTurn_pidx]; omega) (by rw [← ht, enqStored_env]; exact hroom')
    refine ⟨u, (run_succ hstep _).trans hrun, hidle, ?_⟩
    rw [hu, hcontents, hpend', hpidx', List.append_assoc]
    rfl

/-- Settles O60: the slots bring the chunk to ENQ (`run_to_enq`), whose bytes the ring has room for (`run_enq`). -/
theorem aChunkWithRoomCompletes : Obligations.AChunkWithRoomCompletes := by
  intro s h hk hroom n hs
  obtain ⟨d, hd⟩ : ∃ d, movesToEnq s.stereoChunk (.resamp .ch0) = d + 1 := by
    cases s.stereoChunk
    · exact ⟨4, rfl⟩
    · exact ⟨6, rfl⟩
  have hn : n = 2 * s.lm + (d + 1) := by
    rw [← hd, movesToEnq]
    simp only [n, stereoChunk_iff, Nat.add_comm]
  rw [hn] at hs ⊢
  obtain ⟨u, hrun, hu, hustage, huturns, hsame, hpidx, hrange⟩ := run_to_enq h hk hd hs
  have ⟨_, _, _, _, hseq⟩ := hu
  obtain ⟨_, _, hlength, hlt⟩ := (seqSound_of_some hustage).1 hseq
  obtain ⟨l, hl⟩ : ∃ l, 2 * s.lm = l + 1 := Nat.exists_eq_add_one.2 (by rw [hsame.lm] at hlt; omega)
  rw [hsame.lm] at hlength
  rw [hl] at huturns hroom hlength
  obtain ⟨t, hrun', hidle, hcontents⟩ := run_enq hu hustage huturns (by rw [hlength, hpidx, Nat.zero_add])
    (by rwa [hsame.off, hsame.count, hsame.par])
  rw [hpidx, List.drop_zero, hsame.contents] at hcontents
  exact ⟨t, u.pend, hrun.trans (hl ▸ hrun'), hidle, hcontents, by rw [hlength, hl], hrange⟩

end Sys2Proof.Machine
end
